-- ==== Sys2Proof/Word.lean ====
section
/-! DEFINITION. The word types of the sample-packing block (00_scope.md R6, R8, R13). -/

namespace Sys2Proof

/-- A DC word, a command word, an MMIO lane: 32 bits (R6 `LANE_BITS`, R13). -/
abbrev Word := BitVec 32

/-- One ADC or DAC lane value at one time instant: 16 bits (R6 `HALF_BITS`, R13). -/
abbrev Sample16 := BitVec 16

/-- One byte of a byte-addressed region (R33). -/
abbrev Byte := BitVec 8

end Sys2Proof
end

