-- ==== Sys2Proof/Config.lean ====
section
/-! DEFINITION. The configuration parameters of a block instance (00_scope.md R7, 10_state.md R17) and the
free values of the model (93_implementation_defined.md U1, U2, U4, U6, U7; log entry 6). -/

namespace Sys2Proof

/-- The memory technology of a playback region (R7 `REGION_TECH`, R71). -/
inductive Tech where
  | bram
  | uram
  | ddr4
  deriving DecidableEq, Repr

/-- `MMIO_BYTE_ORDER` (R7, R38, D26): which byte of a 32-bit word lies at the lowest address of a region. -/
inductive ByteOrder where
  | little
  | big
  deriving DecidableEq, Repr

/-- `CAP_ADDR` (R7, R87, D16) as plain data: the offsets of the first words one by one, then an arithmetic
progression. A gather covers fewer than 2^32 words, so every function from word index to offset that a command
can see has this form (DEDUCED, log entry 3). -/
structure CapAddr where
  explicit : List Nat
  tailBase : Nat
  tailStride : Nat
  deriving DecidableEq, Repr

/-- The configuration of one block instance (R7, R17). No command writes it. -/
structure Config where
  /-- `REGION_TECH`: technology of the playback region. -/
  regionTech : Tech
  /-- `REGION_SIZE`: size of the playback region in bytes. -/
  regionSize : Nat
  /-- `REGION_BASE`: used by the collaborator only, never seen by the block (R34). -/
  regionBase : Nat
  /-- `CAP_REGION_SIZE`: size of the capture region in bytes. -/
  capRegionSize : Nat
  /-- The base address of the capture region, never seen by the block (R17). -/
  capRegionBase : Nat
  /-- `CAP_ADDR`: byte offset of each capture word. -/
  capAddr : CapAddr
  /-- `MAX_STREAM_LEN`: the longest stream a descriptor may carry (R56). -/
  maxStreamLen : Nat
  /-- `SETTLE_DELAY`, in the units in which the environment reports time (R109; log entry 8). -/
  settleDelay : Nat
  /-- `NUM_INSTANCES` (R111): not visible to a command. -/
  numInstances : Nat
  /-- `MMIO_BYTE_ORDER` (R38). -/
  mmioByteOrder : ByteOrder
  deriving DecidableEq, Repr

/-- Free value: the word an unconstrained read returns, by the source of an instance and a draw index (R41, R97, U1, U2).
It has no body. -/
opaque Config.freeWord : Nat → Nat → BitVec 32

/-- Free value: an unconstrained choice by the source of an instance, a draw index and a byte offset (R44, R46, R114; U4,
U6, U7). It has no body. -/
opaque Config.freeChoice : Nat → Nat → Nat → Bool

end Sys2Proof
end

