-- ==== Sys2Proof/Syntax.lean ====
section
/-! DEFINITION. The syntax of the block's commands: the command descriptor of 30_encoding.md R49 and one
constructor per row of opcode_table.json (R51, R54). -/

namespace Sys2Proof

/-- A command descriptor (R49): the command word, the count operand and two streams of host integers (R52). -/
structure Descriptor where
  cmd : Word
  arg0 : Word
  a : List Int
  b : List Int
  deriving DecidableEq, Repr

/-- A decoded command (R51), with the descriptor fields its row of R54 uses. -/
inductive Instr where
  /-- PACK_COMPLEX: `a` real parts, `b` imaginary parts (R61). -/
  | packComplex (a b : List Int)
  /-- PACK_REAL: `a` real samples (R62). -/
  | packReal (a : List Int)
  /-- UNPACK_REAL: `a` DC words (R63). -/
  | unpackReal (a : List Int)
  /-- SCATTER_BRAM: `a` DC words (R78). -/
  | scatterBram (a : List Int)
  /-- SCATTER_URAM: `a` DC words (R79). -/
  | scatterUram (a : List Int)
  /-- SCATTER_DDR4: `a` DC words (R80). -/
  | scatterDdr4 (a : List Int)
  /-- GATHER_REAL: `n` is ARG0, the capture word count (R88). -/
  | gatherReal (n : Word)
  /-- GATHER_IQ: `n` is ARG0, the capture word count (R91). -/
  | gatherIq (n : Word)
  deriving DecidableEq, Repr

end Sys2Proof
end

