-- ==== Sys2Proof/WellFormed.lean ====
section
/-! DEFINITION. Well-formed commands: those that decode can produce under a stream limit (30_encoding.md R49, R56). -/

namespace Sys2Proof

/-- A stream no longer than `MAX_STREAM_LEN` (R49, R56). -/
abbrev streamFits (maxLen : Nat) (xs : List Int) : Prop := xs.length ≤ maxLen

/-- A command whose streams respect `MAX_STREAM_LEN`. Every value of an element and of ARG0 is allowed (R52, R53). -/
abbrev Instr.WellFormed (maxLen : Nat) (i : Instr) : Prop :=
  match i with
  | .packComplex a b => streamFits maxLen a ∧ streamFits maxLen b
  | .packReal a => streamFits maxLen a
  | .unpackReal a => streamFits maxLen a
  | .scatterBram a => streamFits maxLen a
  | .scatterUram a => streamFits maxLen a
  | .scatterDdr4 a => streamFits maxLen a
  | .gatherReal _ => True
  | .gatherIq _ => True

end Sys2Proof
end

