-- ==== Sys2Proof/Decode.lean ====
section
/-! DEFINITION. Decoding and encoding of command descriptors (30_encoding.md R50, R51, R55, R57) and the
descriptor image (R58). -/

namespace Sys2Proof

/-- Why a descriptor or a descriptor image is turned away. The first six are the checks of R55, in their order:
each raises InvalidArgument (IA1 to IA6 of R100). The last two say that a list of words is no descriptor image
(R58), which is a listing format and no hardware interface. -/
inductive DecodeError where
  | reservedBits
  | reservedOpcode
  | nonzeroArg0
  | streamAInGather
  | streamBNotAllowed
  | streamTooLong
  | imageTooShort
  | imageLengthMismatch
  deriving DecidableEq, Repr

/-- `MAX_STREAM_LEN` unless the configuration says otherwise (R56). -/
def defaultMaxStreamLen : Nat := 2 ^ 31 - 1

/-! The opcode map of R51. -/

def opPackComplex : BitVec 8 := 0x01#8
def opPackReal : BitVec 8 := 0x02#8
def opUnpackReal : BitVec 8 := 0x03#8
def opScatterBram : BitVec 8 := 0x10#8
def opScatterUram : BitVec 8 := 0x11#8
def opScatterDdr4 : BitVec 8 := 0x12#8
def opGatherReal : BitVec 8 := 0x20#8
def opGatherIq : BitVec 8 := 0x21#8

/-- The opcodes that name a command; every other value is reserved (R51, R57). -/
def legalOpcodes : List (BitVec 8) :=
  [opPackComplex, opPackReal, opUnpackReal, opScatterBram, opScatterUram, opScatterDdr4, opGatherReal, opGatherIq]

/-- The opcodes whose ARG0 is a word count and whose streams must be empty (R54). -/
def gatherOpcodes : List (BitVec 8) := [opGatherReal, opGatherIq]

/-- `OP = CMD[7:0]` (R50). -/
def cmdOp (cmd : Word) : BitVec 8 := cmd.extractLsb' 0 8

/-- `RSV = CMD[31:8]` (R50). -/
def cmdRsv (cmd : Word) : BitVec 24 := cmd.extractLsb' 8 24

/-- The command an opcode selects (the dispatch line of R55). -/
def dispatchOp (d : Descriptor) : Except DecodeError Instr :=
  if cmdOp d.cmd = opPackComplex then .ok (.packComplex d.a d.b)
  else if cmdOp d.cmd = opPackReal then .ok (.packReal d.a)
  else if cmdOp d.cmd = opUnpackReal then .ok (.unpackReal d.a)
  else if cmdOp d.cmd = opScatterBram then .ok (.scatterBram d.a)
  else if cmdOp d.cmd = opScatterUram then .ok (.scatterUram d.a)
  else if cmdOp d.cmd = opScatterDdr4 then .ok (.scatterDdr4 d.a)
  else if cmdOp d.cmd = opGatherReal then .ok (.gatherReal d.arg0)
  else if cmdOp d.cmd = opGatherIq then .ok (.gatherIq d.arg0)
  else .error .reservedOpcode

/-- `decode` of R55: the checks in the order given there, then the dispatch. -/
def decode (maxLen : Nat) (d : Descriptor) : Except DecodeError Instr :=
  if cmdRsv d.cmd ≠ 0 then .error .reservedBits
  else if cmdOp d.cmd ∉ legalOpcodes then .error .reservedOpcode
  else if cmdOp d.cmd ∉ gatherOpcodes ∧ d.arg0 ≠ 0 then .error .nonzeroArg0
  else if cmdOp d.cmd ∈ gatherOpcodes ∧ d.a.length ≠ 0 then .error .streamAInGather
  else if cmdOp d.cmd ≠ opPackComplex ∧ d.b.length ≠ 0 then .error .streamBNotAllowed
  else if d.a.length > maxLen ∨ d.b.length > maxLen then .error .streamTooLong
  else dispatchOp d

/-- The opcode of a command (R51). -/
def opcodeOf (i : Instr) : BitVec 8 :=
  match i with
  | .packComplex _ _ => opPackComplex
  | .packReal _ => opPackReal
  | .unpackReal _ => opUnpackReal
  | .scatterBram _ => opScatterBram
  | .scatterUram _ => opScatterUram
  | .scatterDdr4 _ => opScatterDdr4
  | .gatherReal _ => opGatherReal
  | .gatherIq _ => opGatherIq

/-- The command word `0x000000OP` of an opcode (R51). -/
def cmdWord (op : BitVec 8) : Word := 0#24 ++ op

/-- The descriptor of a command: 0 or the empty stream in every field its row of R54 does not use. -/
def encode (i : Instr) : Descriptor :=
  match i with
  | .packComplex a b => { cmd := cmdWord opPackComplex, arg0 := 0, a := a, b := b }
  | .packReal a => { cmd := cmdWord opPackReal, arg0 := 0, a := a, b := [] }
  | .unpackReal a => { cmd := cmdWord opUnpackReal, arg0 := 0, a := a, b := [] }
  | .scatterBram a => { cmd := cmdWord opScatterBram, arg0 := 0, a := a, b := [] }
  | .scatterUram a => { cmd := cmdWord opScatterUram, arg0 := 0, a := a, b := [] }
  | .scatterDdr4 a => { cmd := cmdWord opScatterDdr4, arg0 := 0, a := a, b := [] }
  | .gatherReal n => { cmd := cmdWord opGatherReal, arg0 := n, a := [], b := [] }
  | .gatherIq n => { cmd := cmdWord opGatherIq, arg0 := n, a := [], b := [] }

/-! The descriptor image of R58: `CMD, ARG0, len(A), len(B)`, then the elements of A, then those of B. -/

/-- The opcodes whose streams are read as Sample16 (R52, R54). -/
def sampleOpcodes : List (BitVec 8) := [opPackComplex, opPackReal]

/-- One element as a word of the image: `zext_32(trunc_16(v))` in a Sample16 stream, `trunc_32(v)` in a DcWord
stream (R58). R58 gives no form to a stream that the opcode does not read: a descriptor whose opcode reads no stream takes
the DcWord form, and a B that the opcode does not read takes the form of its A, Sample16 for PACK_REAL and DcWord for
UNPACK_REAL and the SCATTER commands (DESIGN CHOICE, log entry 9). -/
def elementWord (op : BitVec 8) (v : Int) : Word :=
  if op ∈ sampleOpcodes then (BitVec.ofInt 16 v).setWidth 32 else BitVec.ofInt 32 v

/-- The image of a descriptor (R58). R58 gives no length word to a stream of 2^32 elements or more: it is the length modulo
2^32, and `parseImage` refuses such an image (DESIGN CHOICE, log entry 9). -/
def imageOf (d : Descriptor) : List Word :=
  [d.cmd, d.arg0, BitVec.ofNat 32 d.a.length, BitVec.ofNat 32 d.b.length] ++
    d.a.map (elementWord (cmdOp d.cmd)) ++ d.b.map (elementWord (cmdOp d.cmd))

/-- The host integer an image word stands for: its unsigned value, whose twins give the same port value (R52). -/
def wordElement (w : Word) : Int := Int.ofNat w.toNat

/-- Reads a descriptor back from its image (R58). Total; refuses by name a list that is no image. -/
def parseImage (ws : List Word) : Except DecodeError Descriptor :=
  match ws with
  | cmd :: arg0 :: la :: lb :: rest =>
    if rest.length = la.toNat + lb.toNat then
      .ok { cmd := cmd, arg0 := arg0, a := (rest.take la.toNat).map wordElement, b := (rest.drop la.toNat).map wordElement }
    else .error .imageLengthMismatch
  | _ => .error .imageTooShort

/-- Decodes a descriptor image. -/
def decodeImage (maxLen : Nat) (ws : List Word) : Except DecodeError Instr :=
  match parseImage ws with
  | .error e => .error e
  | .ok d => decode maxLen d

/-- Word `i` of a number whose bit 0 is the least significant bit of the first word. -/
def wordOfNumber (w i : Nat) : Word := BitVec.ofNat 32 (w >>> (32 * i))

/-- The descriptor image whose low `nbits` bits are `w` and whose other bits are 0: the four header words, then as
many element words as the header counts. -/
def tableImage (nbits w : Nat) : List Word :=
  let v := w % 2 ^ nbits
  (List.range (4 + (wordOfNumber v 2).toNat + (wordOfNumber v 3).toNat)).map (wordOfNumber v)

/-- The command the decoder reads from an instruction numbered as opcode_table.json numbers its bits. -/
def decodeTableWord (nbits w : Nat) : Option Instr :=
  match decodeImage defaultMaxStreamLen (tableImage nbits w) with
  | .ok i => some i
  | .error _ => none

end Sys2Proof
end

