-- ==== Sys2Proof/Machine/State.lean ====
section
/-! DEFINITION. The state of the machine (10_state.md), as plain data, and its value after reset (R32). -/

namespace Sys2Proof.Machine

/-- A region's contents: (byte offset, byte) pairs, offsets strictly rising. An offset that is not listed holds no
value the model may assume (R32, U3; log entry 4). -/
abbrev Memory := List Host.Cell

/-- One element of an output stream (R54). -/
inductive Element where
  /-- A DC word (PACK_COMPLEX, PACK_REAL). -/
  | dcWord (w : Word)
  /-- A Sample16 pattern (UNPACK_REAL, GATHER_REAL; R65, R95). -/
  | sample (x : Sample16)
  /-- The ordered pair (I, Q) (GATHER_IQ; R92). -/
  | iq (i q : Sample16)
  deriving DecidableEq, Repr

/-- One MMIO access a command issued (R43). -/
inductive Event where
  /-- A 32-bit write of a value at an offset of the playback region. -/
  | write (off : Nat) (value : Word)
  /-- A 32-bit read at an offset of the capture region. -/
  | read (off : Nat)
  deriving DecidableEq, Repr

/-- The response of a command (R27). -/
structure Response where
  status : Word
  count : Word
  out : List Element
  events : List Event
  deriving DecidableEq, Repr

/-- What the host and the other agents have received, oldest first. -/
inductive Delivery where
  /-- The response of a command (R27). -/
  | response (r : Response)
  /-- The value of STATUS, read by the host (R25). -/
  | statusRead (value : Word)
  /-- The value of COUNT, read by the host (R25). -/
  | countRead (value : Word)
  /-- A word of the playback region, read by another agent (R30, R44). -/
  | playbackRead (off : Nat) (value : Word)
  /-- A word of the capture region, read by another agent (R117). -/
  | captureRead (off : Nat) (value : Word)
  deriving DecidableEq, Repr

/-- What the outside world does to the block (R16, R116, R126); `step` takes one input at a time. -/
inductive Input where
  /-- The integration fixes the configuration (R116, step 1). -/
  | configure (c : Config)
  /-- The platform asserts and releases reset (R113, R115). -/
  | reset
  /-- The host presents a command descriptor (R48). -/
  | command (d : Descriptor)
  /-- The host reads STATUS (R25). -/
  | readStatus
  /-- The host reads COUNT (R25). -/
  | readCount
  /-- The host writes STATUS: no effect (R25). -/
  | writeStatus (value : Word)
  /-- The host writes COUNT: no effect (R25). -/
  | writeCount (value : Word)
  /-- The host issues the capture-arm command (R31). -/
  | armCapture
  /-- Time passes, in the units of `SETTLE_DELAY` (R31, R109). -/
  | elapse (time : Nat)
  /-- The environment says whether the capture region would change before a gather ends (R31, R118). -/
  | captureBusy (busy : Bool)
  /-- The capture hardware writes a word of the capture region (R31). -/
  | captureWrite (off : Nat) (value : Word)
  /-- Another agent reads the playback region while no command is in flight (R30). -/
  | readPlayback (off : Nat)
  /-- Another agent, such as another instance or the host through the collaborator, writes a word of the playback region
  while no command is in flight (R46, R110, R111). -/
  | writePlayback (off : Nat) (value : Word)
  /-- Another agent reads the capture region once (R117). -/
  | readCapture (off : Nat)
  /-- Another agent reads the capture region twice and keeps the second value (R117). -/
  | readCapturePair (off : Nat)
  /-- Reset is asserted while this command is in flight (R114). -/
  | resetDuring (d : Descriptor)
  /-- Another agent reads these offsets of the playback region, one after another, while this command is in flight
  (R44, R120). -/
  | readsDuring (d : Descriptor) (offs : List Nat)
  /-- Another agent's writes to the playback region overlap this command (R46, R119). -/
  | writesDuring (d : Descriptor) (ws : List (Nat × Word))
  /-- Another agent reads the playback region while two passes overlap on it (R46). -/
  | readInOverlap (off : Nat)
  deriving DecidableEq, Repr

/-- Why the machine stops with a fault. -/
inductive Fault where
  /-- Raised by the memory operations for a playback write at an offset that is no multiple of 4 or lies past
  `REGION_SIZE` (R30, R36). R37: it cannot arise from the block. Safe. -/
  | playbackAccess (off : Nat)
  /-- Raised by the memory operations for a capture read at an offset that is no multiple of 4 or lies past
  `CAP_REGION_SIZE` (R31, R36). R37: it cannot arise from the block. Safe. -/
  | captureAccess (off : Nat)
  deriving DecidableEq, Repr

/-- Why the model gives a step no meaning. -/
inductive Refusal where
  /-- Raised by `exec` for an instruction that has no meaning yet; no instruction is left so. Safe. -/
  | notModelled (mnemonic : String)
  /-- Raised by every command, and by an input that needs the configuration, before it is fixed (R116, U14). Safe. -/
  | unconfigured
  /-- Raised where the configuration has a misaligned `CAP_ADDR` or an impossible region size (R37, U13). Safe. -/
  | illFormedConfiguration
  /-- Raised by a second configuration: it is fixed before the first command and does not change (R17). Safe. -/
  | alreadyConfigured
  /-- Raised by another agent's misaligned or out-of-region access (R37, U15). Safe. -/
  | agentAccess (off : Nat)
  /-- Raised by another agent's read of a playback word that holds no value (R32, U3). Safe. -/
  | unwrittenPlayback (off : Nat)
  deriving DecidableEq, Repr

/-- The state of one block instance and of its interfaces. -/
structure State where
  /-- STATUS (R18). -/
  status : Word
  /-- COUNT (R26). -/
  count : Word
  /-- The playback region PM (R30). -/
  playback : Memory
  /-- The capture region CM (R31). -/
  capture : Memory
  /-- The configuration (R17), or none while it is not fixed (R116; log entry 1). -/
  config : Option Config
  /-- SETTLED, first part: the host has issued the capture-arm command (R31; log entry 8). -/
  armed : Bool
  /-- SETTLED, second part: the time since then (R31; log entry 8). -/
  elapsed : Nat
  /-- SETTLED, third part, negated: the capture region would change before a gather ends (R31; log entry 8). -/
  captureBusy : Bool
  /-- Inputs not yet taken, the next one first (R16, R48; log entry 2). -/
  inbox : List Input
  /-- What was delivered outside, oldest first (R27, R125; log entry 7). -/
  outbox : List Delivery
  /-- Which stream of free values this instance draws from (the model's own field; log entry 6). -/
  source : Nat
  /-- The index of the next free value in that stream (the model's own field; log entry 6). -/
  draws : Nat
  deriving DecidableEq, Repr

/-- The machine right after reset (R32). -/
def State.reset : State :=
  { status := 0, count := 0, playback := [], capture := [], config := none, armed := false, elapsed := 0,
    captureBusy := false, inbox := [], outbox := [], source := 0, draws := 0 }

end Sys2Proof.Machine
end

