-- ==== Sys2Proof/Machine/Operands.lean ====
section
/-! DEFINITION. Operand forms: the notation of 00_scope.md R8 and R9, the input ports of 30_encoding.md R52 and R53,
and the integer view of an output sample (40_codec.md R65). -/

namespace Sys2Proof.Machine

/-- `trunc_16` (R9): the pattern whose unsigned value is `v mod 2^16`. -/
def trunc16 (v : Int) : Sample16 := BitVec.ofInt 16 v

/-- `trunc_32` (R9). -/
def trunc32 (v : Int) : Word := BitVec.ofInt 32 v

/-- `hi16(w) = w[31:16]` (R8). -/
def hi16 (w : Word) : Sample16 := w.extractLsb' 16 16

/-- `lo16(w) = w[15:0]` (R8). -/
def lo16 (w : Word) : Sample16 := w.extractLsb' 0 16

/-- `{h, l}`: the word with `hi16 = h` and `lo16 = l` (R9). -/
def joinHalves (h l : Sample16) : Word := h ++ l

/-- The port of a Sample16 stream (R52). -/
def portSample (v : Int) : Sample16 := trunc16 v

/-- The port of a DcWord stream (R52). -/
def portWord (v : Int) : Word := trunc32 v

/-- The word count of a gather, `n = uval(ARG0)` (R53). -/
def portCount (arg0 : Word) : Nat := arg0.toNat

/-- `lane16(c, h)` of R86: lane 0 is the low half, lane 1 the high half. -/
def lane16 (c : Word) (h : Nat) : Sample16 := if h = 0 then lo16 c else hi16 c

/-- The integer value of an output sample, `sval` of its pattern (R65, R95). -/
def sampleValue (x : Sample16) : Int := x.toInt

/-- A sample widened to `n` bits by the host, `sext_n` of its pattern, for any width (R9, R65). -/
def sampleExtended (n : Nat) (x : Sample16) : BitVec n := x.signExtend n

end Sys2Proof.Machine
end

