-- ==== Sys2Proof/Machine/Flags.lean ====
section
/-! DEFINITION. The STATUS register: its layout, its fields and the value `finish` gives it (10_state.md R18 to R24,
R27; 60_exceptions.md R99). -/

namespace Sys2Proof.Machine

/-- The fatal error of a command, `e` of `finish` (R27, R99). -/
inductive ErrorKind where
  | none
  | invalidArgument
  | rangeViolation
  deriving DecidableEq, Repr

/-- `code(e)` (R20, R27, R99). Value 3 is never produced. -/
def errorCode (e : ErrorKind) : BitVec 2 :=
  match e with
  | .none => 0#2
  | .invalidArgument => 1#2
  | .rangeViolation => 2#2

/-- The layout of STATUS (R18), from bit 31 down: reserved, LAST_OP, reserved, DROPPED, reserved, WM, ERR, DONE. -/
def statusWord (done wm : Bool) (err : BitVec 2) (dropped : BitVec 5) (lastOp : BitVec 8) : Word :=
  0#8 ++ lastOp ++ 0#3 ++ dropped ++ 0#4 ++ BitVec.ofBool wm ++ err ++ BitVec.ofBool done

/-- STATUS after a command with opcode byte `op` (R27). -/
def endStatus (op : BitVec 8) (e : ErrorKind) (wm : Bool) (k : Nat) : Word :=
  match e with
  | .none => statusWord true wm (errorCode .none) (BitVec.ofNat 5 k) op
  | .invalidArgument => statusWord true false (errorCode .invalidArgument) 0#5 op
  | .rangeViolation => statusWord true false (errorCode .rangeViolation) 0#5 op

/-- COUNT after a command (R26, R27). -/
def endCount (e : ErrorKind) (c : Nat) : Word :=
  match e with
  | .none => BitVec.ofNat 32 c
  | .invalidArgument => 0#32
  | .rangeViolation => 0#32

/-! The fields of STATUS (R18). -/

def statusDone (st : Word) : Bool := st.getLsbD 0
def statusErr (st : Word) : BitVec 2 := st.extractLsb' 1 2
def statusWm (st : Word) : Bool := st.getLsbD 3
def statusDropped (st : Word) : BitVec 5 := st.extractLsb' 8 5
def statusLastOp (st : Word) : BitVec 8 := st.extractLsb' 16 8
/-- The reserved bits 7:4, 15:13 and 31:24 (R24). -/
def statusReserved (st : Word) : Word := st &&& 0xFF00E0F0#32

end Sys2Proof.Machine
end

