-- ==== Sys2Proof/Machine/Layout.lean ====
section
/-! DEFINITION. Fixed parameters (00_scope.md R6), the layout of each memory technology (41_scatter.md R71 to R76),
capture addressing (42_gather.md R87) and the well-formed configurations (20_memory.md R37, U13). -/

namespace Sys2Proof.Machine

/-- `LANE_BITS` (R6). -/
def laneBits : Nat := 32
/-- `GROUP` (R6): lanes per permutation group. -/
def groupLanes : Nat := 8
/-- `CAP_BLOCK` (R6): words per capture block. -/
def capBlock : Nat := 8
/-- `CAP_LANES_PER_BLOCK` (R6): 16-bit lanes per capture block. -/
def capLanesPerBlock : Nat := 16
/-- `REAL_KEEP` (R6): lanes kept of each 16 in real mode. -/
def realKeep : Nat := 8

/-- `WIDE_BITS(t)` (R6, R71). -/
def wideBits (t : Tech) : Nat :=
  match t with
  | .bram => 1024
  | .uram => 1024
  | .ddr4 => 512

/-- `LANES(t)` (R6). -/
def lanes (t : Tech) : Nat := wideBits t / laneBits

/-- `NGROUPS(t)` (R6). -/
def ngroups (t : Tech) : Nat := lanes t / groupLanes

/-- `PERIOD_BYTES(t)` (R6, R74). -/
def periodBytes (t : Tech) : Nat := 4 * lanes t

/-- `lane_t(s)` (R72): the logical lane written at slot `s` of a period. -/
def laneOf (t : Tech) (s : Nat) : Nat := groupLanes * (ngroups t - 1 - s / groupLanes) + s % groupLanes

/-- `off_t(p, s)` (R74): the byte offset of slot `s` of period `p`. -/
def slotOffset (t : Tech) (p s : Nat) : Nat := p * periodBytes t + 4 * s

/-- `CAP_ADDR(w)` (R87). -/
def capOffset (c : Config) (w : Nat) : Nat :=
  match c.capAddr.explicit[w]? with
  | some off => off
  | none => c.capAddr.tailBase + c.capAddr.tailStride * (w - c.capAddr.explicit.length)

/-- The default `CAP_ADDR(w) = 4*w` (R7, R87, D16). -/
def defaultCapAddr : CapAddr := { explicit := [], tailBase := 0, tailStride := 4 }

/-- A region size the configuration may have: a multiple of 4, at most 2^32 (R7, D40). -/
abbrev regionSizeOk (size : Nat) : Prop := size % 4 = 0 ∧ size ≤ 2 ^ 32

/-- A `CAP_ADDR` whose every value is a multiple of 4 (R87). -/
abbrev capAddrOk (a : CapAddr) : Prop := (∀ off ∈ a.explicit, off % 4 = 0) ∧ a.tailBase % 4 = 0 ∧ a.tailStride % 4 = 0

/-- A well-formed configuration; any other is refused (R37, R87, U13). -/
abbrev configOk (c : Config) : Prop := regionSizeOk c.regionSize ∧ regionSizeOk c.capRegionSize ∧ capAddrOk c.capAddr

/-- An offset at which a 32-bit word of a region of this size exists (R30, R31). -/
abbrev wordInside (size off : Nat) : Prop := off % 4 = 0 ∧ off + 4 ≤ size

end Sys2Proof.Machine
end

