-- ==== Sys2Proof/Machine/Ops.lean ====
section
/-! DEFINITION. The named operations over the regions and the registers: byte and word access (20_memory.md R36 to
R41), free draws, the end of a command (10_state.md R27), raising an error (60_exceptions.md R104) and reset
(70_reset_and_hazards.md R115). -/

namespace Sys2Proof.Machine

/-- What a command or an input does to the machine. -/
abbrev Answer := Host.Outcome State Fault Refusal

/-! ### Memory -/

/-- The canonical form of a region: offsets strictly rising, so equal contents are equal data. -/
abbrev Memory.wf (m : Memory) : Prop := m.Pairwise (fun x y => x.1 < y.1)

/-- The byte at an offset, or none where no value is known (log entry 4). -/
def readByte (a : Nat) (m : Memory) : Option Byte :=
  match m with
  | [] => none
  | (k, v) :: rest => if a = k then some v else readByte a rest

/-- Sets the byte at an offset, keeping the offsets rising. -/
def writeByte (a : Nat) (b : Byte) (m : Memory) : Memory :=
  match m with
  | [] => [(a, b)]
  | (k, v) :: rest =>
    if a < k then (a, b) :: (k, v) :: rest
    else if a = k then (a, b) :: rest
    else (k, v) :: writeByte a b rest

/-- Byte `i` of a word in the order `MMIO_BYTE_ORDER` gives (R38). -/
def wordByte (order : ByteOrder) (v : Word) (i : Nat) : Byte :=
  match order with
  | .little => v.extractLsb' (8 * i) 8
  | .big => v.extractLsb' (8 * (3 - i)) 8

/-- The word whose bytes, lowest offset first, are the four given (R38). -/
def wordOfBytes (order : ByteOrder) (b0 b1 b2 b3 : Byte) : Word :=
  match order with
  | .little => b3 ++ b2 ++ b1 ++ b0
  | .big => b0 ++ b1 ++ b2 ++ b3

/-- Sets the word at an offset (R40). -/
def writeWord (order : ByteOrder) (off : Nat) (v : Word) (m : Memory) : Memory :=
  writeByte (off + 3) (wordByte order v 3) (writeByte (off + 2) (wordByte order v 2)
    (writeByte (off + 1) (wordByte order v 1) (writeByte off (wordByte order v 0) m)))

/-- The word at an offset, or none unless all four bytes hold a value. -/
def readWord (order : ByteOrder) (off : Nat) (m : Memory) : Option Word :=
  match readByte off m, readByte (off + 1) m, readByte (off + 2) m, readByte (off + 3) m with
  | some b0, some b1, some b2, some b3 => some (wordOfBytes order b0 b1 b2 b3)
  | _, _, _, _ => none

/-- All the writes, without the check of each offset. -/
def allWrites (order : ByteOrder) (ws : List (Nat × Word)) (m : Memory) : Memory :=
  match ws with
  | [] => m
  | (off, v) :: rest => allWrites order rest (writeWord order off v m)

/-! ### The primitives of R11 -/

/-- `MemWrite(off, 4, v)` on the playback region (R36, R40). -/
def memWrite (c : Config) (off : Nat) (v : Word) (m : Memory) : Except Fault Memory :=
  if wordInside c.regionSize off then .ok (writeWord c.mmioByteOrder off v m) else .error (.playbackAccess off)

/-- The writes of one command, in order (R43). -/
def memWrites (c : Config) (ws : List (Nat × Word)) (m : Memory) : Except Fault Memory :=
  match ws with
  | [] => .ok m
  | (off, v) :: rest =>
    match memWrite c off v m with
    | .error f => .error f
    | .ok m' => memWrites c rest m'

/-- SETTLED (R31; log entry 8). -/
def settled (c : Config) (s : State) : Bool := s.armed && decide (c.settleDelay ≤ s.elapsed) && !s.captureBusy

/-- The first `MemRead` of a pair: a free draw (R41, U1). Answers the value and the next draw index. -/
def memReadFirst (c : Config) (source off draw : Nat) : Except Fault (Word × Nat) :=
  if wordInside c.capRegionSize off then .ok (Config.freeWord source draw, draw + 1) else .error (.captureAccess off)

/-- The second `MemRead` of a pair: `CM[off]` if SETTLED holds, else a free draw (R41, U2). A settled read of a word
that nothing has placed is a free draw too (R32; log entry 5). -/
def memReadSecond (c : Config) (source : Nat) (isSettled : Bool) (cm : Memory) (off draw : Nat) : Except Fault (Word × Nat) :=
  if wordInside c.capRegionSize off then
    match isSettled, readWord c.mmioByteOrder off cm with
    | true, some w => .ok (w, draw)
    | true, none => .ok (Config.freeWord source draw, draw + 1)
    | false, _ => .ok (Config.freeWord source draw, draw + 1)
  else .error (.captureAccess off)

/-- `ReadPair(off)` (R85): two reads, the first discarded, the second kept. -/
def readPair (c : Config) (source : Nat) (isSettled : Bool) (cm : Memory) (off draw : Nat) : Except Fault (Word × Nat) :=
  match memReadFirst c source off draw with
  | .error f => .error f
  | .ok (_, draw') => memReadSecond c source isSettled cm off draw'

/-- The read pairs of one gather, in order (R43). -/
def readPairs (c : Config) (source : Nat) (isSettled : Bool) (cm : Memory) (offs : List Nat) (draw : Nat) :
    Except Fault (List Word × Nat) :=
  match offs with
  | [] => .ok ([], draw)
  | off :: rest =>
    match readPair c source isSettled cm off draw with
    | .error f => .error f
    | .ok (w, draw') =>
      match readPairs c source isSettled cm rest draw' with
      | .error f => .error f
      | .ok (ws, draw'') => .ok (w :: ws, draw'')

/-- The events of the read pairs at these offsets: two reads each, next to each other (R43, R85). -/
def readEvents (offs : List Nat) : List Event := offs.flatMap (fun off => [.read off, .read off])

/-- The events of these writes (R43). -/
def writeEvents (ws : List (Nat × Word)) : List Event := ws.map (fun w => .write w.1 w.2)

/-! ### State updates -/

/-- Sends something outside (R27). -/
def deliver (x : Delivery) (s : State) : State := { s with outbox := s.outbox ++ [x] }

/-- Sends several things outside, in order. -/
def deliverAll (xs : List Delivery) (s : State) : State := { s with outbox := s.outbox ++ xs }

/-- Replaces the playback region. -/
def withPlayback (m : Memory) (s : State) : State := { s with playback := m }

/-- Replaces the capture region. -/
def withCapture (m : Memory) (s : State) : State := { s with capture := m }

/-- Moves the index of the next free value. -/
def withDraws (n : Nat) (s : State) : State := { s with draws := n }

/-- `finish(e, wm, k, c)` of R27, for a command whose CMD[7:0] is `op`, with its output stream and its events. -/
def finish (op : BitVec 8) (e : ErrorKind) (wm : Bool) (k c : Nat) (out : List Element) (events : List Event)
    (s : State) : State :=
  let status := endStatus op e wm k
  let count := endCount e c
  let response : Response :=
    { status := status, count := count, out := if e = .none then out else [], events := events }
  { s with status := status, count := count, outbox := s.outbox ++ [.response response] }

/-- A fatal error: the command ends at once, with no access and no output (R104, R105). This is the block's only
exception; it saves nothing and redirects nothing. -/
def raiseError (op : BitVec 8) (e : ErrorKind) (s : State) : State := finish op e false 0 0 [] [] s

/-- Reset (R115): STATUS and COUNT take their initial values, the regions and the configuration keep theirs.
SETTLED is false after it until the host arms the capture again (R32; log entry 10). -/
def applyReset (s : State) : State := { s with status := 0, count := 0, armed := false, elapsed := 0 }

/-- Runs `f` with the configuration. A machine whose configuration is not fixed, or is ill-formed, is refused
(R116, U14; R37, U13). -/
def configured (s : State) (f : Config → Answer) : Answer :=
  match s.config with
  | none => .refused .unconfigured
  | some c => if configOk c then f c else .refused .illFormedConfiguration

end Sys2Proof.Machine
end

