-- ==== Sys2Proof/Machine/Codec.lean ====
section
/-! DEFINITION. The DC sample codec: PACK_COMPLEX, PACK_REAL and UNPACK_REAL (40_codec.md R61 to R63). -/

namespace Sys2Proof.Machine

/-- The output of PACK_COMPLEX: real part high, imaginary part low (R61, R70). -/
def packComplexOut (a b : List Int) : List Element :=
  List.zipWith (fun re im => .dcWord (joinHalves (portSample re) (portSample im))) a b

/-- The output of PACK_REAL: of each pair, the odd-index sample high, the even-index sample low (R62). -/
def packRealOut (a : List Int) : List Element :=
  match a with
  | s0 :: s1 :: rest => .dcWord (joinHalves (portSample s1) (portSample s0)) :: packRealOut rest
  | _ => []

/-- The output of UNPACK_REAL: low half, then high half (R63). -/
def unpackRealOut (a : List Int) : List Element :=
  a.flatMap (fun v => [.sample (lo16 (portWord v)), .sample (hi16 (portWord v))])

/-- PACK_COMPLEX (R61). -/
def execPackComplex (a b : List Int) (s : State) : Answer :=
  configured s fun _ =>
    if a.length ≠ b.length then .next (raiseError opPackComplex .invalidArgument s)
    else .next (finish opPackComplex .none false 0 a.length (packComplexOut a b) [] s)

/-- PACK_REAL (R62; an odd length is an error, 90_conflicts.md C2). -/
def execPackReal (a : List Int) (s : State) : Answer :=
  configured s fun _ =>
    if a.length % 2 ≠ 0 then .next (raiseError opPackReal .invalidArgument s)
    else .next (finish opPackReal .none false 0 (a.length / 2) (packRealOut a) [] s)

/-- UNPACK_REAL (R63). -/
def execUnpackReal (a : List Int) (s : State) : Answer :=
  configured s fun _ => .next (finish opUnpackReal .none false 0 (2 * a.length) (unpackRealOut a) [] s)

end Sys2Proof.Machine
end

