-- ==== Sys2Proof/Machine/Gather.lean ====
section
/-! DEFINITION. The capture demultiplexer: GATHER_REAL and GATHER_IQ (42_gather.md R85 to R93). -/

namespace Sys2Proof.Machine

/-- The range check of a gather (R87): every word from `w` on, `k` of them, lies in the capture region. It stops at
the first word that does not. -/
def wordsInside (c : Config) (w k : Nat) : Bool :=
  match k with
  | 0 => true
  | k' + 1 => decide (capOffset c w + 4 ≤ c.capRegionSize) && wordsInside c (w + 1) k'

/-- The lanes GATHER_REAL keeps of the words from index `w` on: extracted index `2*w + h` with
`index mod 16 <= 7` (R88, R90). -/
def realSamples (w : Nat) (cs : List Word) : List Element :=
  match cs with
  | [] => []
  | c :: rest =>
    (List.range 2).filterMap (fun h =>
      if (2 * w + h) % capLanesPerBlock < realKeep then some (.sample (lane16 c h)) else none) ++
    realSamples (w + 1) rest

/-- The samples of GATHER_IQ: in each block, I from words 0 to 3 and Q from words 4 to 7 (R91, R92). -/
def iqSamples (cs : List Word) : List Element :=
  (List.range (cs.length / capBlock)).flatMap fun b =>
    (List.range capBlock).map fun m =>
      .iq (lane16 (cs.getD (capBlock * b + m / 2) 0) (m % 2)) (lane16 (cs.getD (capBlock * b + 4 + m / 2) 0) (m % 2))

/-- The common part of both gathers: the range check before the first read (R87), the read pairs of the first `words`
words, and the demultiplexing of what they return; `k` words are dropped (R93). -/
def gather (op : BitVec 8) (words k : Nat) (demux : List Word → List Element) (c : Config) (s : State) : Answer :=
  if wordsInside c 0 words = false then .next (raiseError op .rangeViolation s)
  else
    match readPairs c s.source (settled c s) s.capture ((List.range words).map (capOffset c)) s.draws with
    | .error f => .fault f
    | .ok (cs, draw) =>
      .next (finish op .none (decide (k ≠ 0)) k (demux cs).length (demux cs)
        (readEvents ((List.range words).map (capOffset c))) (withDraws draw s))

/-- GATHER_REAL (R88). It reads every word, those it drops as well (R90), and reports no WidthMismatch. -/
def execGatherReal (n : Word) (s : State) : Answer :=
  configured s fun c =>
    if portCount n = 0 then .next (raiseError opGatherReal .invalidArgument s)
    else gather opGatherReal (portCount n) 0 (realSamples 0) c s

/-- GATHER_IQ (R91). It reads whole blocks only (R93). -/
def execGatherIq (n : Word) (s : State) : Answer :=
  configured s fun c =>
    if portCount n = 0 then .next (raiseError opGatherIq .invalidArgument s)
    else gather opGatherIq (capBlock * (portCount n / capBlock)) (portCount n % capBlock) iqSamples c s

end Sys2Proof.Machine
end

