-- ==== Sys2Proof/Machine/Scatter.lean ====
section
/-! DEFINITION. The scatter permuter: SCATTER_BRAM, SCATTER_URAM and SCATTER_DDR4 (41_scatter.md R77 to R80), and the
inverse gather-by-offset (R83). -/

namespace Sys2Proof.Machine

/-- The writes of the two loops of `scatter_t` (R77): periods ascending, slots ascending within a period. -/
def scatterWrites (t : Tech) (a : List Int) : List (Nat × Word) :=
  (List.range (a.length / lanes t)).flatMap fun p =>
    (List.range (lanes t)).map fun s => (slotOffset t p s, portWord (a.getD (p * lanes t + laneOf t s) 0))

/-- `scatter_t(A)` (R77) for a command whose CMD[7:0] is `op`. -/
def scatter (op : BitVec 8) (t : Tech) (a : List Int) (s : State) : Answer :=
  configured s fun c =>
    if t ≠ c.regionTech then .next (raiseError op .invalidArgument s)
    else if a.length = 0 then .next (raiseError op .invalidArgument s)
    else if a.length / lanes t * periodBytes t > c.regionSize then .next (raiseError op .rangeViolation s)
    else
      match memWrites c (scatterWrites t a) s.playback with
      | .error f => .fault f
      | .ok m =>
        .next (finish op .none (decide (a.length % lanes t ≠ 0)) (a.length % lanes t) (a.length / lanes t * lanes t) []
          (writeEvents (scatterWrites t a)) (withPlayback m s))

/-- SCATTER_BRAM (R78). -/
def execScatterBram (a : List Int) (s : State) : Answer := scatter opScatterBram .bram a s

/-- SCATTER_URAM (R79). -/
def execScatterUram (a : List Int) (s : State) : Answer := scatter opScatterUram .uram a s

/-- SCATTER_DDR4 (R80). -/
def execScatterDdr4 (a : List Int) (s : State) : Answer := scatter opScatterDdr4 .ddr4 a s

/-- `gbo_t(M)` (R83): the word of logical lane `j mod L` of period `j / L`, for each of the first `periods * L` lanes.
A function a host or a model may apply to memory; the block has no command for it. -/
def gatherByOffset (t : Tech) (order : ByteOrder) (m : Memory) (periods : Nat) : List (Option Word) :=
  (List.range periods).flatMap fun p =>
    (List.range (lanes t)).map fun i => readWord order (slotOffset t p (laneOf t i)) m

end Sys2Proof.Machine
end

