-- ==== Sys2Proof/Machine/Dispatch.lean ====
section
/-! DEFINITION. One arm per command (30_encoding.md R51, R55). -/

namespace Sys2Proof.Machine

def exec (i : Instr) (s : State) : Host.Outcome State Fault Refusal :=
  match i with
  | .packComplex a b => Sys2Proof.Machine.execPackComplex a b s
  | .packReal a => Sys2Proof.Machine.execPackReal a s
  | .unpackReal a => Sys2Proof.Machine.execUnpackReal a s
  | .scatterBram a => Sys2Proof.Machine.execScatterBram a s
  | .scatterUram a => Sys2Proof.Machine.execScatterUram a s
  | .scatterDdr4 a => Sys2Proof.Machine.execScatterDdr4 a s
  | .gatherReal n => Sys2Proof.Machine.execGatherReal n s
  | .gatherIq n => Sys2Proof.Machine.execGatherIq n s

end Sys2Proof.Machine
end

