-- ==== Sys2Proof/Machine/Interface.lean ====
section
/-! DEFINITION. What each input does: commands (30_encoding.md R48, R55), the host's registers (10_state.md R25), boot
and reset (70_reset_and_hazards.md R113 to R116), the capture side (10_state.md R31), other agents on the regions
(20_memory.md R44, R46; 70_reset_and_hazards.md R117), and how a command is placed for the next step. -/

namespace Sys2Proof.Machine

/-! ### Commands -/

/-- One command (R48): decoded (R55), then run. A descriptor that decode turns away raises InvalidArgument with its
own CMD[7:0] in LAST_OP (R23, R57). -/
def runCommand (d : Descriptor) (s : State) : Answer :=
  configured s fun c =>
    match decode c.maxStreamLen d with
    | .error _ => .next (raiseError (cmdOp d.cmd) .invalidArgument s)
    | .ok i => exec i s

/-! ### Configuration, reset and the host's registers -/

/-- The integration fixes the configuration (R116). An ill-formed one is refused (U13), a second one too (R17). -/
def onConfigure (c : Config) (s : State) : Answer :=
  match s.config with
  | some _ => .refused .alreadyConfigured
  | none => if configOk c then .next { s with config := some c } else .refused .illFormedConfiguration

/-- Reset with no command in flight (R115). -/
def onReset (s : State) : Answer := .next (applyReset s)

/-- The host reads STATUS (R25). -/
def onReadStatus (s : State) : Answer := .next (deliver (.statusRead s.status) s)

/-- The host reads COUNT (R25). -/
def onReadCount (s : State) : Answer := .next (deliver (.countRead s.count) s)

/-- The host writes STATUS: the write has no effect (R25). -/
def onWriteStatus (_ : Word) (s : State) : Answer := .next s

/-- The host writes COUNT: the write has no effect (R25). -/
def onWriteCount (_ : Word) (s : State) : Answer := .next s

/-! ### The capture side -/

/-- The capture-arm command: the settle delay begins (R31, R118). -/
def onArmCapture (s : State) : Answer := .next { s with armed := true, elapsed := 0 }

/-- Time passes (R31, R109). -/
def onElapse (time : Nat) (s : State) : Answer := .next { s with elapsed := s.elapsed + time }

/-- Whether the capture region would change before a gather ends (R31, R118). -/
def onCaptureBusy (busy : Bool) (s : State) : Answer := .next { s with captureBusy := busy }

/-- The capture hardware writes a word of the capture region (R31); a bad offset is refused (U15). R31 does not say from
when on "CM does not change until the gather ends" counts: here from the gather's own step, so a write before it, the settle
delay over or not, leaves SETTLED as it is; `captureBusy` reports a change during the gather (DESIGN CHOICE, log entry 8). -/
def onCaptureWrite (off : Nat) (value : Word) (s : State) : Answer :=
  configured s fun c =>
    if wordInside c.capRegionSize off then .next (withCapture (writeWord c.mmioByteOrder off value s.capture) s)
    else .refused (.agentAccess off)

/-- Another agent reads the capture region once: an unconstrained value (R117); a bad offset is refused (U15). -/
def onReadCapture (off : Nat) (s : State) : Answer :=
  configured s fun c =>
    match memReadFirst c s.source off s.draws with
    | .error _ => .refused (.agentAccess off)
    | .ok (v, draw) => .next (deliver (.captureRead off v) (withDraws draw s))

/-- Another agent reads the capture region twice and keeps the second value (R41, R117). -/
def onReadCapturePair (off : Nat) (s : State) : Answer :=
  configured s fun c =>
    match readPair c s.source (settled c s) s.capture off s.draws with
    | .error _ => .refused (.agentAccess off)
    | .ok (v, draw) => .next (deliver (.captureRead off v) (withDraws draw s))

/-! ### Other agents on the playback region -/

/-- Another agent reads the playback region between commands (R30, R44). A word that holds no value is refused (U3),
a bad offset too (U15). -/
def onReadPlayback (off : Nat) (s : State) : Answer :=
  configured s fun c =>
    if wordInside c.regionSize off then
      match readWord c.mmioByteOrder off s.playback with
      | some v => .next (deliver (.playbackRead off v) s)
      | none => .refused (.unwrittenPlayback off)
    else .refused (.agentAccess off)

/-- Another agent writes a word of the playback region between commands (R46, R110); a bad offset is refused (U15). -/
def onWritePlayback (off : Nat) (value : Word) (s : State) : Answer :=
  configured s fun c =>
    if wordInside c.regionSize off then .next (withPlayback (writeWord c.mmioByteOrder off value s.playback) s)
    else .refused (.agentAccess off)

/-- The playback writes among some events. -/
def eventWrites (es : List Event) : List (Nat × Word) :=
  es.filterMap fun e =>
    match e with
    | .write off v => some (off, v)
    | .read _ => none

/-- The offsets of the capture reads among some events. -/
def eventReads (es : List Event) : List Nat :=
  es.filterMap fun e =>
    match e with
    | .write _ _ => none
    | .read off => some off

/-- The response a state delivered last, where the last delivery is one. -/
def lastResponse (s : State) : Option Response :=
  match s.outbox.getLast? with
  | some (.response r) => some r
  | some (.statusRead _) => none
  | some (.countRead _) => none
  | some (.playbackRead _ _) => none
  | some (.captureRead _ _) => none
  | none => none

/-- The events of the command whose response was delivered last. -/
def lastEvents (s : State) : List Event :=
  match lastResponse s with
  | some r => r.events
  | none => []

/-- The playback writes of the command whose response was delivered last. -/
def lastWrites (s : State) : List (Nat × Word) := eventWrites (lastEvents s)

/-- Performs those of the writes whose offset the free choice picks (R114). -/
def someWrites (order : ByteOrder) (source draw : Nat) (ws : List (Nat × Word)) (m : Memory) : Memory :=
  match ws with
  | [] => m
  | (off, v) :: rest =>
    someWrites order source draw rest (if Config.freeChoice source draw off then writeWord order off v m else m)

/-- Performs another agent's writes over those of a command: at an offset that both wrote, the free choice says whose
word stays (R46); at any other offset the agent's word lands. -/
def racingWrites (order : ByteOrder) (source draw : Nat) (own : List Nat) (ws : List (Nat × Word)) (m : Memory) : Memory :=
  match ws with
  | [] => m
  | (off, v) :: rest =>
    racingWrites order source draw own rest
      (if off ∈ own ∧ Config.freeChoice source draw off = false then m else writeWord order off v m)

/-- Reset is asserted while a command is in flight (R114): no response; each offset the command would have written
holds its old word or the new one, by a free choice per offset; then reset (R115). R114 leaves open whether the reads of an
abandoned GATHER were issued: reads are kept only in a response, so none is recorded and no choice is made (DESIGN CHOICE,
log entry 12). -/
def onResetDuring (d : Descriptor) (s : State) : Answer :=
  configured s fun c =>
    match runCommand d s with
    | .next s' =>
      .next (applyReset (withDraws (s'.draws + 1)
        (withPlayback (someWrites c.mmioByteOrder s.source s.draws (lastWrites s') s.playback) s)))
    | .fault f => .fault f
    | .refused r => .refused r

/-- What another agent reads at these offsets while a command is in flight (R44): each time the old word or the new one,
by a free choice. An old word that holds no value, of a word that the command writes, reads as a free value; between
commands such a read is refused (DESIGN CHOICE, log entry 12). -/
def observations (order : ByteOrder) (old new : Memory) (source draw : Nat) (offs : List Nat) : List Delivery :=
  match offs with
  | [] => []
  | off :: rest =>
    let seen := if Config.freeChoice source draw off then readWord order off new else readWord order off old
    .playbackRead off (seen.getD (Config.freeWord source draw)) :: observations order old new source (draw + 1) rest

/-- Another agent reads playback words while a command is in flight (R44, R120); then the command ends. A word that
holds no value before the command nor after it is refused (U3), a bad offset too (U15). -/
def onReadsDuring (d : Descriptor) (offs : List Nat) (s : State) : Answer :=
  configured s fun c =>
    match offs.find? (fun off => !decide (wordInside c.regionSize off)) with
    | some off => .refused (.agentAccess off)
    | none =>
      match runCommand d s with
      | .next s' =>
        match offs.find? (fun off => (readWord c.mmioByteOrder off s'.playback).isNone) with
        | some off => .refused (.unwrittenPlayback off)
        | none =>
          runCommand d (deliverAll (observations c.mmioByteOrder s.playback s'.playback s.source s.draws offs)
            (withDraws (s.draws + offs.length) s))
      | .fault f => .fault f
      | .refused r => .refused r

/-- Another agent's writes overlap a command on the playback region (R46): for each offset both wrote, the final word
is either writer's. A bad offset of the agent is refused (U15). -/
def onWritesDuring (d : Descriptor) (ws : List (Nat × Word)) (s : State) : Answer :=
  configured s fun c =>
    match ws.find? (fun w => !decide (wordInside c.regionSize w.1)) with
    | some w => .refused (.agentAccess w.1)
    | none =>
      match runCommand d s with
      | .next s' =>
        .next (withDraws (s'.draws + 1) (withPlayback
          (racingWrites c.mmioByteOrder s'.source s'.draws ((lastWrites s').map Prod.fst) ws s'.playback) s'))
      | .fault f => .fault f
      | .refused r => .refused r

/-- Another agent reads the playback region while two passes overlap on it: an unconstrained value (R46). A bad offset is
refused (U15). -/
def onReadInOverlap (off : Nat) (s : State) : Answer :=
  configured s fun c =>
    if wordInside c.regionSize off then
      .next (deliver (.playbackRead off (Config.freeWord s.source s.draws)) (withDraws (s.draws + 1) s))
    else .refused (.agentAccess off)

/-! ### One input, and placing a command -/

/-- What one input does. -/
def onInput (x : Input) (s : State) : Answer :=
  match x with
  | .configure c => onConfigure c s
  | .reset => onReset s
  | .command d => runCommand d s
  | .readStatus => onReadStatus s
  | .readCount => onReadCount s
  | .writeStatus v => onWriteStatus v s
  | .writeCount v => onWriteCount v s
  | .armCapture => onArmCapture s
  | .elapse t => onElapse t s
  | .captureBusy b => onCaptureBusy b s
  | .captureWrite off v => onCaptureWrite off v s
  | .readPlayback off => onReadPlayback off s
  | .writePlayback off v => onWritePlayback off v s
  | .readCapture off => onReadCapture off s
  | .readCapturePair off => onReadCapturePair off s
  | .resetDuring d => onResetDuring d s
  | .readsDuring d offs => onReadsDuring d offs s
  | .writesDuring d ws => onWritesDuring d ws s
  | .readInOverlap off => onReadInOverlap off s

/-- A configuration for `withFetchWord` to fix where none is fixed (DESIGN CHOICE, log entry 2): the values R7 names as
defaults, and for the parameters R7 leaves OPEN the smallest well-formed ones. State.reset does not hold it. -/
def bringUpConfig : Config :=
  { regionTech := .bram, regionSize := 0, regionBase := 0, capRegionSize := 0, capRegionBase := 0,
    capAddr := defaultCapAddr, maxStreamLen := defaultMaxStreamLen, settleDelay := 0, numInstances := 1,
    mmioByteOrder := .little }

/-- The descriptor of the instruction whose table bits are `w`. -/
def tableDescriptor (nbits w : Nat) : Option Descriptor :=
  match parseImage (tableImage nbits w) with
  | .ok d => some d
  | .error _ => none

/-- The state in which that descriptor is the next input, in a machine whose configuration is fixed. -/
def placeTableWord (s : State) (nbits w : Nat) : State :=
  match tableDescriptor nbits w with
  | some d => { s with config := some (s.config.getD bringUpConfig), inbox := .command d :: s.inbox }
  | none => s

end Sys2Proof.Machine
end

