-- ==== Sys2Proof/Machine/Step.lean ====
section
/-! DEFINITION. One step of the machine: the next input, taken whole (00_scope.md R5, 10_state.md R16). -/

namespace Sys2Proof.Machine

/-- The block takes the next input and runs it to its end; with none it stays idle, STATUS and COUNT held (R16, R112). -/
def step (s : State) : Host.Outcome State Fault Refusal :=
  match s.inbox with
  | [] => .next s
  | x :: rest => onInput x { s with inbox := rest }

/-- The state with an instruction placed so that the next step runs it (log entry 2). -/
def State.withFetchWord (s : State) (nbits w : Nat) : State := placeTableWord s nbits w

end Sys2Proof.Machine
end

