-- ==== Sys2Proof/Machine/Assembler.lean ====
section
/-! DEFINITION. The textual syntax of a command (30_encoding.md R59), read as a list of characters. The block never
sees it: it is how a program is written down (R60). Log entry 21 lists what R59 leaves open. -/

namespace Sys2Proof.Machine

/-- A token of a line: a punctuation character, or a word of other characters. -/
inductive Token where
  | punct (c : Char)
  | text (cs : List Char)
  deriving DecidableEq, Repr

/-- Why a line is no command. -/
inductive AsmError where
  | unknownMnemonic
  | badOperands
  | unboundName
  | numberOutOfRange
  deriving DecidableEq, Repr

/-- Host streams bound outside the program, by the name after `@` (R59). -/
abbrev Bindings := List (List Char × List Int)

/-- A line without its comment: `;` starts one (R59). -/
def stripComment (line : List Char) : List Char := line.takeWhile (fun c => c != ';')

/-- The characters that separate tokens and mean nothing. -/
def blankChar (c : Char) : Bool := c == ' ' || c == '\t' || c == '\r' || c == '\n'

/-- The characters that are tokens by themselves. -/
def punctChar (c : Char) : Bool := c == ',' || c == '[' || c == ']'

/-- A pending word as a token, if it has any character. -/
def flushToken (word : List Char) : List Token := if word.isEmpty then [] else [.text word]

/-- The tokens of a line; `word` holds the characters of the word being read. R59 writes a blank after each mnemonic and does
not say whether it must stand there: a bracket ends the word before it, so `PACK_REAL[1, 2]` is read as `PACK_REAL [1, 2]`
(DESIGN CHOICE, log entry 21). -/
def tokens (word line : List Char) : List Token :=
  match line with
  | [] => flushToken word
  | c :: rest =>
    if blankChar c then flushToken word ++ tokens [] rest
    else if punctChar c then flushToken word ++ .punct c :: tokens [] rest
    else tokens (word ++ [c]) rest

/-- The value of a decimal digit. -/
def decDigit (c : Char) : Option Nat :=
  if 48 ≤ c.toNat ∧ c.toNat ≤ 57 then some (c.toNat - 48) else none

/-- The value of a hexadecimal digit, in either case. -/
def hexDigit (c : Char) : Option Nat :=
  if 48 ≤ c.toNat ∧ c.toNat ≤ 57 then some (c.toNat - 48)
  else if 65 ≤ c.toNat ∧ c.toNat ≤ 70 then some (c.toNat - 55)
  else if 97 ≤ c.toNat ∧ c.toNat ≤ 102 then some (c.toNat - 87)
  else none

/-- The number a list of digits spells in a base, after `acc`. -/
def digitsFrom (base : Nat) (digit : Char → Option Nat) (acc : Nat) (cs : List Char) : Option Nat :=
  match cs with
  | [] => some acc
  | c :: rest =>
    match digit c with
    | some d => digitsFrom base digit (acc * base + d) rest
    | none => none

/-- A number of at least one digit. -/
def digits (base : Nat) (digit : Char → Option Nat) (cs : List Char) : Option Nat :=
  if cs.isEmpty then none else digitsFrom base digit 0 cs

/-- A non-negative number: decimal, or hexadecimal after `0x` (R59). -/
def parseNat (cs : List Char) : Option Nat :=
  match cs with
  | '0' :: 'x' :: rest => digits 16 hexDigit rest
  | _ => digits 10 decDigit cs

/-- An element: decimal with an optional minus sign, or hexadecimal read as non-negative (R59). -/
def parseInt (cs : List Char) : Option Int :=
  match cs with
  | '-' :: rest => (digits 10 decDigit rest).map (fun n => -(Int.ofNat n))
  | _ => (parseNat cs).map Int.ofNat

/-- A `nat` or `word` operand: in [0, 2^32) (R59). -/
def parseWord (cs : List Char) : Except AsmError Word :=
  match parseNat cs with
  | none => .error .badOperands
  | some n => if n < 2 ^ 32 then .ok (BitVec.ofNat 32 n) else .error .numberOutOfRange

/-- The elements of a list after its first bracket, up to the closing one, and the tokens after it. -/
def parseElements (ts : List Token) : Except AsmError (List Int × List Token) :=
  match ts with
  | .text cs :: .punct ']' :: rest =>
    match parseInt cs with
    | some v => .ok ([v], rest)
    | none => .error .badOperands
  | .text cs :: .punct ',' :: rest =>
    match parseInt cs, parseElements rest with
    | some v, .ok (vs, after) => .ok (v :: vs, after)
    | some _, .error e => .error e
    | none, _ => .error .badOperands
  | _ => .error .badOperands

/-- The stream bound to a name: of several bindings of one name the first (DESIGN CHOICE, log entry 21). -/
def lookupStream (env : Bindings) (name : List Char) : Except AsmError (List Int) :=
  match env with
  | [] => .error .unboundName
  | (n, xs) :: rest => if n = name then .ok xs else lookupStream rest name

/-- A list operand, `[e0, e1, ...]` or `@name` (R59), and the tokens after it. R59 does not say which characters a name
may have: it is the rest of the token, which may be empty (DESIGN CHOICE, log entry 21). -/
def parseList (env : Bindings) (ts : List Token) : Except AsmError (List Int × List Token) :=
  match ts with
  | .punct '[' :: .punct ']' :: rest => .ok ([], rest)
  | .punct '[' :: rest => parseElements rest
  | .text ('@' :: name) :: rest =>
    match lookupStream env name with
    | .ok xs => .ok (xs, rest)
    | .error e => .error e
  | _ => .error .badOperands

/-- A line that holds one list operand. -/
def parseOneList (env : Bindings) (ts : List Token) : Except AsmError (List Int) :=
  match parseList env ts with
  | .ok (xs, []) => .ok xs
  | .ok (_, _ :: _) => .error .badOperands
  | .error e => .error e

/-- A line that holds two list operands. -/
def parseTwoLists (env : Bindings) (ts : List Token) : Except AsmError (List Int × List Int) :=
  match parseList env ts with
  | .ok (xs, .punct ',' :: rest) =>
    match parseOneList env rest with
    | .ok ys => .ok (xs, ys)
    | .error e => .error e
  | .ok _ => .error .badOperands
  | .error e => .error e

/-- The commands that take one list operand (R59). -/
def oneListMnemonics : List (List Char × (List Int → Instr)) :=
  [("PACK_REAL".toList, Instr.packReal), ("UNPACK_REAL".toList, Instr.unpackReal),
   ("SCATTER_BRAM".toList, Instr.scatterBram), ("SCATTER_URAM".toList, Instr.scatterUram),
   ("SCATTER_DDR4".toList, Instr.scatterDdr4)]

/-- The commands that take a word count (R59). -/
def countMnemonics : List (List Char × (Word → Instr)) :=
  [("GATHER_REAL".toList, Instr.gatherReal), ("GATHER_IQ".toList, Instr.gatherIq)]

/-- The raw form `.cmd <word>, <word>, <list>, <list>` (R59): any descriptor, the illegal ones as well. -/
def assembleRaw (env : Bindings) (ts : List Token) : Except AsmError Descriptor :=
  match ts with
  | .text cmd :: .punct ',' :: .text arg0 :: .punct ',' :: rest =>
    match parseWord cmd, parseWord arg0, parseTwoLists env rest with
    | .ok w, .ok n, .ok (a, b) => .ok { cmd := w, arg0 := n, a := a, b := b }
    | .error e, _, _ => .error e
    | .ok _, .error e, _ => .error e
    | .ok _, .ok _, .error e => .error e
  | _ => .error .badOperands

/-- A mnemonic with its operands, as the command it stands for (R59). -/
def assembleMnemonic (env : Bindings) (name : List Char) (ts : List Token) : Except AsmError Instr :=
  if name = "PACK_COMPLEX".toList then
    match parseTwoLists env ts with
    | .ok (a, b) => .ok (.packComplex a b)
    | .error e => .error e
  else
    match oneListMnemonics.find? (fun m => m.1 == name), countMnemonics.find? (fun m => m.1 == name) with
    | some m, _ =>
      match parseOneList env ts with
      | .ok a => .ok (m.2 a)
      | .error e => .error e
    | none, some m =>
      match ts with
      | [.text cs] =>
        match parseWord cs with
        | .ok n => .ok (m.2 n)
        | .error e => .error e
      | _ => .error .badOperands
    | none, none => .error .unknownMnemonic

/-- One line of a program: no command on a blank or comment line, else one descriptor (R59). -/
def assembleLine (env : Bindings) (line : List Char) : Except AsmError (Option Descriptor) :=
  match tokens [] (stripComment line) with
  | [] => .ok none
  | .text name :: rest =>
    if name = ".cmd".toList then
      match assembleRaw env rest with
      | .ok d => .ok (some d)
      | .error e => .error e
    else
      match assembleMnemonic env name rest with
      | .ok i => .ok (some (encode i))
      | .error e => .error e
  | .punct _ :: _ => .error .unknownMnemonic

end Sys2Proof.Machine
end

