-- ==== Sys2Proof/Machine/System.lean ====
section
/-! DEFINITION. Several block instances (60_exceptions.md R111): each is an agent of its own and steps in any
interleaving with the others; instances bound to overlapping regions share the words of the overlap, and race on them when
their passes overlap in time (20_memory.md R46). Log entry 19. -/

namespace Sys2Proof.Machine

/-- The instances of a system. Each holds its own STATUS and COUNT, and its own view of its two regions. -/
abbrev System := List State

/-! ### Shared regions -/

/-- The view of a region at `base'`, of `size'` bytes, after taking over each byte of a region at `base`, of `size` bytes,
that lies at an address of both. -/
def mirrorBytes (base size base' size' : Nat) (src dst : Memory) : Memory :=
  match src with
  | [] => dst
  | (a, b) :: rest =>
    mirrorBytes base size base' size' rest
      (if a < size ∧ base' ≤ base + a ∧ base + a < base' + size' then writeByte (base + a - base') b dst else dst)

/-- Instance `t` after taking over the bytes of `s` at the addresses where their regions overlap: playback region with
playback region, capture region with capture region. The parts of SETTLED stay each instance's own: the spec does not say
whose SETTLED a capture-arm command changes where two instances share a capture region (DESIGN CHOICE, log entries 8 and
19). -/
def shareRegions (s t : State) : State :=
  match s.config, t.config with
  | some c, some c' =>
    withCapture (mirrorBytes c.capRegionBase c.capRegionSize c'.capRegionBase c'.capRegionSize s.capture t.capture)
      (withPlayback (mirrorBytes c.regionBase c.regionSize c'.regionBase c'.regionSize s.playback t.playback) t)
  | none, _ => t
  | some _, none => t

/-- An instance that has just been bound to its regions takes over what the others know of them. -/
def adoptRegions (sys : System) (s : State) : State :=
  match sys with
  | [] => s
  | t :: rest => adoptRegions rest (shareRegions t s)

/-- Instance `k` is now `s`, and every other instance sees its bytes. -/
def publish (k : Nat) (s : State) (sys : System) : System := (sys.map (shareRegions s)).set k s

/-! ### One instance at a time -/

/-- Instance `k` takes one step and draws its free values from a stream of its own (log entry 6); a system without that
instance does not change. -/
def systemStep (k : Nat) (sys : System) : Host.Outcome System Fault Refusal :=
  match sys[k]? with
  | none => .next sys
  | some s =>
    match step { s with source := k } with
    | .next s' => .next (publish k (if s.config = none then adoptRegions sys s' else s') sys)
    | .fault f => .fault f
    | .refused r => .refused r

/-- Instance `j` takes one step, then instance `k`. -/
def inSequence (j k : Nat) (sys : System) : Host.Outcome System Fault Refusal :=
  match systemStep j sys with
  | .next sys' => systemStep k sys'
  | .fault f => .fault f
  | .refused r => .refused r

/-! ### Two passes at once -/

/-- The command an instance takes next. -/
def nextCommand (s : State) : Option Descriptor :=
  match s.inbox with
  | .command d :: _ => some d
  | _ => none

/-- The offsets of the capture reads that the next step of instance `k` issues. A command that fails (R104), a GATHER_IQ of
no whole block and a command that is no GATHER issue none: they are no pass on the capture region. -/
def passReads (k : Nat) (s : State) : List Nat :=
  match step { s with source := k } with
  | .next s' => eventReads (lastEvents s')
  | .fault _ => []
  | .refused _ => []

/-- The capture region of `s` as its pass reads it while a pass of `t` with these capture reads overlaps it (R46). Where one
of them reads a word of the region of `s`, the bytes at the addresses of both regions have no value, so that a read there is
unconstrained; a read at any other address, and every read where `t` has no pass on the region, is as R41 gives it. -/
def contendedCapture (reads : List Nat) (s t : State) : Memory :=
  match s.config, t.config with
  | some c, some c' =>
    if reads.any (fun off => decide (c.capRegionBase < c'.capRegionBase + off + 4 ∧
        c'.capRegionBase + off < c.capRegionBase + c.capRegionSize)) then
      s.capture.filter fun x => !decide (c'.capRegionBase ≤ c.capRegionBase + x.1 ∧
        c.capRegionBase + x.1 < c'.capRegionBase + c'.capRegionSize)
    else s.capture
  | none, _ => s.capture
  | some _, none => s.capture

/-- Instance `k` runs its next command while a pass of `t` with these capture reads overlaps it. -/
def runPass (k : Nat) (reads : List Nat) (t s : State) : Answer :=
  match step { s with source := k, capture := contendedCapture reads s t } with
  | .next s' => .next { s' with capture := s.capture }
  | .fault f => .fault f
  | .refused r => .refused r

/-- What is in the playback region of `s` when its pass has overlapped that of `t`, both run to their ends: the words of
`t` land, and for each word of `s` a free choice says whether it landed after them (R46). -/
def contendedPlayback (s t : State) : State :=
  match s.config, t.config with
  | some c, some c' =>
    withDraws (s.draws + 1) (withPlayback (someWrites c.mmioByteOrder s.source s.draws (lastWrites s)
      (mirrorBytes c'.regionBase c'.regionSize c.regionBase c.regionSize
        (allWrites c'.mmioByteOrder (lastWrites t) []) s.playback)) s)
  | none, _ => s
  | some _, none => s

/-- Instances `j` and `k` each take one step, and where both are commands these overlap in time (R46). Anything else, and
one instance with itself, is a sequence: one instance runs one command at a time. -/
def overlapStep (j k : Nat) (sys : System) : Host.Outcome System Fault Refusal :=
  match sys[j]?, sys[k]? with
  | some s, some t =>
    match nextCommand s, nextCommand t with
    | some _, some _ =>
      if j = k then inSequence j k sys
      else
        match runPass j (passReads k t) t s, runPass k (passReads j s) s t with
        | .next s', .next t' => .next (publish j (contendedPlayback s' t') (publish k t' sys))
        | .next _, .fault f => .fault f
        | .next _, .refused r => .refused r
        | .fault f, _ => .fault f
        | .refused r, _ => .refused r
    | _, _ => inSequence j k sys
  | _, _ => inSequence j k sys

end Sys2Proof.Machine
end

