-- ==== Sys2Proof/Safety.lean ====
section
/-! DEFINITION. What claims about the machine are made of: the machine's invariant, a machine ready for commands, and
the states a command may leave. -/

namespace Sys2Proof.Machine

/-- A machine whose configuration is fixed and well formed (R116). -/
def Ready (s : State) (c : Config) : Prop := s.config = some c ∧ configOk c

/-- The state after a command that wrote these values to STATUS and COUNT, sent this response and changed nothing else
(R27, R105). -/
def ended (s : State) (status count : Word) (out : List Element) (events : List Event) : State :=
  { s with status := status, count := count,
           outbox := s.outbox ++ [.response { status := status, count := count, out := out, events := events }] }

/-- A value STATUS may hold (R18 to R24): reserved bits 0, ERR never 3, WM exactly when something was dropped, neither
after a fatal error, and 0 altogether while DONE is 0. -/
abbrev statusLegal (st : Word) : Prop :=
  statusReserved st = 0 ∧ statusErr st ≠ 3#2 ∧ (statusWm st = true ↔ statusDropped st ≠ 0) ∧
    (statusErr st ≠ 0 → statusWm st = false) ∧ (statusDone st = false → st = 0)

/-- Every listed byte lies in a region of this size (R30, R31). -/
abbrev memoryInside (size : Nat) (m : Memory) : Prop := ∀ x ∈ m, x.1 < size

/-- A region holds whole 32-bit words (R30, R31, R36): with a byte, the other three bytes of its word hold values. -/
def wholeWords (m : Memory) : Prop :=
  ∀ a, (readByte a m).isSome → ∀ i < 4, (readByte (a / 4 * 4 + i) m).isSome

/-- The invariant of the machine. -/
structure Inv (s : State) : Prop where
  statusLegal : statusLegal s.status
  /-- COUNT is 0 before the first command and after a fatal error (R26, R32). -/
  countZero : statusDone s.status = false ∨ statusErr s.status ≠ 0 → s.count = 0
  playbackForm : Memory.wf s.playback
  captureForm : Memory.wf s.capture
  playbackWords : wholeWords s.playback
  captureWords : wholeWords s.capture
  /-- A fixed configuration is well formed, and each region holds bytes of its own only (R30, R31, R37). -/
  configured : ∀ c, s.config = some c →
    configOk c ∧ memoryInside c.regionSize s.playback ∧ memoryInside c.capRegionSize s.capture
  /-- Nothing is in a region before its size is fixed (R116). -/
  unconfigured : s.config = none → s.playback = [] ∧ s.capture = []

/-- Two instances whose playback regions share no address and whose capture regions share none. -/
def distinctRegions (s t : State) : Prop :=
  ∀ c c', s.config = some c → t.config = some c' →
    (∀ x < c.regionSize, ∀ y < c'.regionSize, c.regionBase + x ≠ c'.regionBase + y) ∧
    (∀ x < c.capRegionSize, ∀ y < c'.capRegionSize, c.capRegionBase + x ≠ c'.capRegionBase + y)

/-- Two instances see the same byte at each address that lies in the playback, or in the capture, regions of both. -/
def seeAlike (s t : State) : Prop :=
  ∀ c c', s.config = some c → t.config = some c' →
    (∀ x y, x < c.regionSize → y < c'.regionSize → c.regionBase + x = c'.regionBase + y →
      readByte x s.playback = readByte y t.playback) ∧
    (∀ x y, x < c.capRegionSize → y < c'.capRegionSize → c.capRegionBase + x = c'.capRegionBase + y →
      readByte x s.capture = readByte y t.capture)

/-- The invariant of a system: every instance's regions are in canonical form, empty before they are bound, and any two
instances see alike what their regions share. -/
structure SystemInv (sys : System) : Prop where
  formed : ∀ s ∈ sys, s.playback.wf ∧ s.capture.wf ∧ (s.config = none → s.playback = [] ∧ s.capture = [])
  alike : ∀ (j k : Nat) (s t : State), j ≠ k → sys[j]? = some s → sys[k]? = some t → seeAlike s t

/-- The number of output elements of a response in the units of COUNT (R26): the writes of a command that emits
nothing, the elements of one that emits. -/
def outputUnits (r : Response) : Nat := r.out.length + (eventWrites r.events).length

/-- The STATUS value whose LAST_OP is `op` and whose bits 15:0 are `low` (R18). -/
def statusValue (op : BitVec 8) (low : Word) : Word := (op.setWidth 32 <<< 16) ||| low

/-- Bits 15:0 of STATUS after a success that dropped `k` elements: DONE, and for `k` not 0 also WM and DROPPED = `k` (R18, R27). -/
def successLow (k : Nat) : Word := if k = 0 then 1#32 else 9#32 ||| (BitVec.ofNat 32 k <<< 8)

/-- The I part of an IQ element, as a sample (R92, R96). -/
def iPart (e : Element) : Element :=
  match e with
  | .iq i _ => .sample i
  | .sample x => .sample x
  | .dcWord w => .dcWord w

/-- The DC words of an output stream as the host integers of a later command's stream (R52, R59, R60). -/
def wordStream (out : List Element) : List Int :=
  out.filterMap fun e =>
    match e with
    | .dcWord w => some (Int.ofNat w.toNat)
    | .sample _ => none
    | .iq _ _ => none

/-- The integer views of the samples of an output stream (R65). -/
def sampleStream (out : List Element) : List Int :=
  out.filterMap fun e =>
    match e with
    | .dcWord _ => none
    | .sample x => some (sampleValue x)
    | .iq _ _ => none

/-- What no command changes: the capture region, the configuration, the parts of SETTLED, the inputs not yet taken and the
source of free values (R17, R31). -/
def environmentKept (s t : State) : Prop :=
  t.capture = s.capture ∧ t.config = s.config ∧ t.armed = s.armed ∧ t.elapsed = s.elapsed ∧
    t.captureBusy = s.captureBusy ∧ t.inbox = s.inbox ∧ t.source = s.source

/-- The rule of one SCATTER command (R77 to R80): `cmd` its command word (ARG0 and B are 0 and empty), `tech` its technology, `L` the lanes of a
period, `lane` the logical lane of a slot. In this order: a region of another technology or an empty stream raises
InvalidArgument; whole periods past the region raise RangeViolation; else the words of all whole periods are written,
in increasing offset order, and the rest is dropped. -/
def ScatterRule (mk : List Int → Instr) (cmd : Word) (op : BitVec 8) (tech : Tech) (L : Nat) (lane : Nat → Nat) : Prop :=
  ∀ (s : State) (c : Config) (a : List Int), Ready s c →
    encode (mk a) = { cmd := cmd, arg0 := 0#32, a := a, b := [] } ∧ opcodeOf (mk a) = op ∧
    (c.regionTech ≠ tech ∨ a.length = 0 → exec (mk a) s = .next (ended s (statusValue op 3#32) 0#32 [] [])) ∧
    (c.regionTech = tech → a.length ≠ 0 → c.regionSize < a.length / L * (4 * L) →
      exec (mk a) s = .next (ended s (statusValue op 5#32) 0#32 [] [])) ∧
    (c.regionTech = tech → a.length ≠ 0 → a.length / L * (4 * L) ≤ c.regionSize →
      ∃ m, exec (mk a) s =
          .next (ended { s with playback := m } (statusValue op (successLow (a.length % L)))
            (BitVec.ofNat 32 (a.length / L * L)) []
            ((List.range (a.length / L * L)).map fun j =>
              .write (4 * j) (BitVec.ofInt 32 (a.getD (j / L * L + lane (j % L)) 0)))) ∧
        (∀ j < a.length / L * L,
          readWord c.mmioByteOrder (4 * j) m = some (BitVec.ofInt 32 (a.getD (j / L * L + lane (j % L)) 0))) ∧
        ∀ x, a.length / L * (4 * L) ≤ x → readByte x m = readByte x s.playback)

end Sys2Proof.Machine
end

