-- ==== Sys2Proof/Certificates/Slice0/Obligations.lean ====
section
/-! DEFINITION. The statements about the machine, for the provers; OBLIGATIONS.json lists them with the rules they
formalise. -/

open Sys2Proof Sys2Proof.Machine

/-! ### Encoding -/

/-- R51, R54, R55: decoding the descriptor of a well-formed command gives the command back, every operand included. -/
def Obligations.DecodeEncodeRoundTrip : Prop :=
  ∀ (maxLen : Nat) (i : Instr), i.WellFormed maxLen → decode maxLen (encode i) = .ok i

/-- R54, R55: a descriptor that decodes is the descriptor of the command it decodes to, so each command has one. -/
def Obligations.DecodeAcceptsOnlyEncodings : Prop :=
  ∀ (maxLen : Nat) (d : Descriptor) (i : Instr), decode maxLen d = .ok i → d = encode i ∧ i.WellFormed maxLen

/-- R55: every descriptor either dispatches to the one command its opcode names, or raises InvalidArgument with its raw
CMD[7:0] in LAST_OP and changes nothing else. -/
def Obligations.DescriptorDispatchesOrRaises : Prop :=
  ∀ (s : State) (c : Config) (d : Descriptor), Ready s c →
    let op := d.cmd.extractLsb' 0 8
    let gathers : List (BitVec 8) := [0x20#8, 0x21#8]
    let legal : List (BitVec 8) := [0x01#8, 0x02#8, 0x03#8, 0x10#8, 0x11#8, 0x12#8, 0x20#8, 0x21#8]
    if d.cmd.extractLsb' 8 24 ≠ 0 ∨ op ∉ legal ∨ (op ∉ gathers ∧ d.arg0 ≠ 0) ∨ (op ∈ gathers ∧ d.a.length ≠ 0) ∨
        (op ≠ 0x01#8 ∧ d.b.length ≠ 0) ∨ c.maxStreamLen < d.a.length ∨ c.maxStreamLen < d.b.length then
      runCommand d s = .next (ended s (statusValue op 3#32) 0#32 [] [])
    else ∃ i, decode c.maxStreamLen d = .ok i ∧ opcodeOf i = op ∧ encode i = d ∧ runCommand d s = exec i s

/-- R51: the eight words of the opcode map, each with an empty rest of the descriptor, decode to their commands, and
words next to them do not decode. -/
def Obligations.OpcodeTableWordsDecode : Prop :=
  decodeTableWord 32 0b00000000000000000000000000000001 = some (.packComplex [] []) ∧
  decodeTableWord 32 0b00000000000000000000000000000010 = some (.packReal []) ∧
  decodeTableWord 32 0b00000000000000000000000000000011 = some (.unpackReal []) ∧
  decodeTableWord 32 0b00000000000000000000000000010000 = some (.scatterBram []) ∧
  decodeTableWord 32 0b00000000000000000000000000010001 = some (.scatterUram []) ∧
  decodeTableWord 32 0b00000000000000000000000000010010 = some (.scatterDdr4 []) ∧
  decodeTableWord 32 0b00000000000000000000000000100000 = some (.gatherReal 0) ∧
  decodeTableWord 32 0b00000000000000000000000000100001 = some (.gatherIq 0) ∧
  decodeTableWord 32 0b00000000000000000000000000000000 = none ∧
  decodeTableWord 32 0b00000000000000000000000000000100 = none ∧
  decodeTableWord 32 0b00000000000000000000000100000001 = none

/-- R52, R58: the image of a well-formed command, read back and decoded, is a command with the same effect on every
state: the image keeps every value the ports take. -/
def Obligations.ImageKeepsPortValues : Prop :=
  ∀ (maxLen : Nat) (i : Instr), maxLen < 2 ^ 32 → i.WellFormed maxLen →
    ∃ i', decodeImage maxLen (imageOf (encode i)) = .ok i' ∧ opcodeOf i' = opcodeOf i ∧ ∀ s, exec i' s = exec i s

/-- R59: a mnemonic line assembles to the descriptor with its command word, and the raw form places its operands as
given. -/
def Obligations.AssemblesMnemonicLines : Prop :=
  assembleLine [] "PACK_COMPLEX [1, -1], [2, 0x0]   ; text".toList =
    .ok (some { cmd := 0x00000001#32, arg0 := 0, a := [1, -1], b := [2, 0] }) ∧
  assembleLine [("w".toList, [7, 8])] "SCATTER_BRAM @w".toList =
    .ok (some { cmd := 0x00000010#32, arg0 := 0, a := [7, 8], b := [] }) ∧
  assembleLine [] "GATHER_IQ 0x20".toList = .ok (some { cmd := 0x00000021#32, arg0 := 32#32, a := [], b := [] }) ∧
  assembleLine [] ".cmd 0x101, 5, [], [3]".toList =
    .ok (some { cmd := 0x00000101#32, arg0 := 5#32, a := [], b := [3] })

/-! ### Reset, boot and the machine as a whole -/

/-- R32: right after reset STATUS and COUNT are 0, SETTLED does not hold whatever the configuration, and neither region
holds a word with a known value. The model's representation of "unspecified" is log entry 4. -/
def Obligations.ResetLeavesNothingKnown : Prop :=
  State.reset.status = 0#32 ∧ State.reset.count = 0#32 ∧ (∀ c, settled c State.reset = false) ∧
    (∀ order off, readWord order off State.reset.playback = none ∧ readWord order off State.reset.capture = none)

/-- R31, R118: after the capture-arm command and a time, and while the capture region is quiet, SETTLED holds exactly when
that time reaches the settle delay; arming again, reset and a busy capture region make it false (for a delay that is not 0). How SETTLED is kept is the model's
choice (log entries 8 and 10). -/
def Obligations.SettledAfterArmAndDelay : Prop :=
  ∀ (s : State) (c : Config) (time : Nat) (rest : List Input), s.config = some c → s.captureBusy = false →
    s.inbox = .armCapture :: .elapse time :: rest →
    ∃ t u, step s = .next t ∧ step t = .next u ∧ u.inbox = rest ∧ (settled c u = true ↔ c.settleDelay ≤ time) ∧
      settled c (applyReset u) = false ∧ settled c { u with captureBusy := true } = false ∧
      (c.settleDelay ≠ 0 → ∀ v, onArmCapture u = .next v → settled c v = false)

/-- R115: the reset input sets STATUS and COUNT to 0, issues no access, changes neither region and leaves the
configuration. -/
def Obligations.ResetInputRestoresRegisters : Prop :=
  ∀ (s : State) (rest : List Input), s.inbox = .reset :: rest →
    ∃ t, step s = .next t ∧ t.status = 0x00000000#32 ∧ t.count = 0x00000000#32 ∧ t.playback = s.playback ∧
      t.capture = s.capture ∧ t.config = s.config ∧ t.outbox = s.outbox ∧ t.inbox = rest

/-- R25: a host write to STATUS or COUNT has no effect, and a host read delivers the register and changes nothing else. -/
def Obligations.HostRegisterAccess : Prop :=
  ∀ (s : State) (rest : List Input) (v : Word),
    (s.inbox = .writeStatus v :: rest → step s = .next { s with inbox := rest }) ∧
    (s.inbox = .writeCount v :: rest → step s = .next { s with inbox := rest }) ∧
    (s.inbox = .readStatus :: rest →
      step s = .next { s with inbox := rest, outbox := s.outbox ++ [.statusRead s.status] }) ∧
    (s.inbox = .readCount :: rest →
      step s = .next { s with inbox := rest, outbox := s.outbox ++ [.countRead s.count] })

/-- R25: only the end of a command and reset change STATUS and COUNT. -/
def Obligations.OnlyCommandsAndResetChangeStatus : Prop :=
  ∀ (s t : State), step s = .next t → t.status ≠ s.status ∨ t.count ≠ s.count →
    ∃ rest d offs ws, s.inbox = .command d :: rest ∨ s.inbox = .reset :: rest ∨ s.inbox = .resetDuring d :: rest ∨
      s.inbox = .readsDuring d offs :: rest ∨ s.inbox = .writesDuring d ws :: rest

/-- R25: a command's result does not depend on the STATUS and COUNT it finds. -/
def Obligations.CommandIgnoresEarlierStatus : Prop :=
  ∀ (s : State) (d : Descriptor) (status count : Word),
    runCommand d { s with status := status, count := count } = runCommand d s

/-- R16, R112: with no input the block stays as it is. -/
def Obligations.IdleStepHoldsState : Prop :=
  ∀ s : State, s.inbox = [] → step s = .next s

/-- R55, R5: when the next input is a descriptor that decodes to a command, the step is exec of that command on the state
without that input; a descriptor that does not decode ends with InvalidArgument. -/
def Obligations.StepRunsDecodedCommand : Prop :=
  ∀ (s : State) (c : Config) (d : Descriptor) (rest : List Input), Ready s c → s.inbox = .command d :: rest →
    (∀ i, decode c.maxStreamLen d = .ok i → step s = exec i { s with inbox := rest }) ∧
    (∀ e, decode c.maxStreamLen d = .error e →
      step s = .next (raiseError (cmdOp d.cmd) .invalidArgument { s with inbox := rest }))

/-- How a program comes to run (log entry 2): an instruction placed by withFetchWord is the one the next step runs. -/
def Obligations.PlacedInstructionRunsNext : Prop :=
  ∀ (s : State) (c : Config) (nbits w : Nat) (i : Instr), Ready s c → c.maxStreamLen = 2 ^ 31 - 1 →
    decodeTableWord nbits w = some i → step (s.withFetchWord nbits w) = exec i s

/-- R116, R37 (U13, U14): a command sent before the configuration is fixed, or to an ill-formed one, is refused. -/
def Obligations.CommandNeedsConfiguration : Prop :=
  ∀ (s : State) (d : Descriptor) (i : Instr),
    (s.config = none → runCommand d s = .refused .unconfigured ∧ exec i s = .refused .unconfigured) ∧
    (∀ c, s.config = some c → ¬ configOk c →
      runCommand d s = .refused .illFormedConfiguration ∧ exec i s = .refused .illFormedConfiguration)

/-- R116, step 1, and R17 (U13, log entry 15): the configure input fixes exactly its configuration in a machine that has
none and changes nothing else; an ill-formed configuration and a second one are refused. -/
def Obligations.ConfigureFixesConfiguration : Prop :=
  ∀ (s : State) (c : Config) (rest : List Input), s.inbox = .configure c :: rest →
    (s.config = none → configOk c → step s = .next { s with inbox := rest, config := some c }) ∧
    (s.config = none → ¬ configOk c → step s = .refused .illFormedConfiguration) ∧
    (∀ c', s.config = some c' → step s = .refused .alreadyConfigured)

/-- R17: once fixed, the configuration is unchanged by every step. -/
def Obligations.ConfigurationNeverChanges : Prop :=
  ∀ (s t : State) (c : Config), s.config = some c → step s = .next t → t.config = some c

/-- R34, R111: no command sees a base address or the number of instances: a run under other ones ends in the same way. -/
def Obligations.BaseAddressesInvisible : Prop :=
  ∀ (s : State) (c : Config) (d : Descriptor) (base capBase n : Nat), Ready s c →
    ∃ t, runCommand d s = .next t ∧
      runCommand d { s with config := some { c with regionBase := base, capRegionBase := capBase, numInstances := n } } =
        .next { t with config := some { c with regionBase := base, capRegionBase := capBase, numInstances := n } }

/-- R111, on distinct regions: two bound instances whose regions share no address do not interfere: a step of one leaves
the other as it was, and the two steps commute, whatever other instances share with either. How a system holds regions is
the model's choice (log entry 19). -/
def Obligations.InstancesDoNotInterfere : Prop :=
  ∀ (sys sys1 sys2 : System) (j k : Nat) (s t : State), SystemInv sys → j ≠ k → sys[j]? = some s → sys[k]? = some t →
    s.config ≠ none → t.config ≠ none → distinctRegions s t →
    systemStep j sys = .next sys1 → systemStep k sys = .next sys2 →
    sys1[k]? = sys[k]? ∧ ∃ both, systemStep k sys1 = .next both ∧ systemStep j sys2 = .next both

/-- R111, R46 (log entry 19): a step of an instance, and two overlapping passes, keep what overlapping regions share alike
in every instance. -/
def Obligations.SystemKeepsSharedRegionsAlike : Prop :=
  ∀ (sys sys' : System) (j k : Nat), SystemInv sys →
    (systemStep k sys = .next sys' → SystemInv sys') ∧ (overlapStep j k sys = .next sys' → SystemInv sys')

/-- R46, R111 (log entry 19): where the commands of two instances overlap in time, both end with the STATUS and COUNT of the
steps they take alone, and each word that either wrote reads as its own value or, only where the other wrote at the same
address, as the other's. Against a command that issues no capture read, a failed or empty gather among them, the response
too is the one of the step taken alone (R104, R41). That no word tears is decision D27 (U16, log entry 13). The bases of the two playback regions differ by whole words. -/
def Obligations.OverlappingPassesLeaveEitherWord : Prop :=
  ∀ (sys : System) (j k : Nat) (s t : State) (c c' : Config) (d e : Descriptor) (restS restT : List Input),
    SystemInv sys → j ≠ k → sys[j]? = some s → sys[k]? = some t → Ready s c → Ready t c' →
    s.inbox = .command d :: restS → t.inbox = .command e :: restT → c.regionBase % 4 = c'.regionBase % 4 →
    ∃ done done' sys' s' t', step { s with source := j } = .next done ∧ step { t with source := k } = .next done' ∧
      overlapStep j k sys = .next sys' ∧ sys'[j]? = some s' ∧ sys'[k]? = some t' ∧
      s'.status = done.status ∧ s'.count = done.count ∧ t'.status = done'.status ∧ t'.count = done'.count ∧
      (passReads k t = [] → s'.outbox = done.outbox) ∧ (passReads j s = [] → t'.outbox = done'.outbox) ∧
      (∀ w ∈ lastWrites done, readWord c.mmioByteOrder w.1 s'.playback = some w.2 ∨
        ∃ w' ∈ lastWrites done', c.regionBase + w.1 = c'.regionBase + w'.1 ∧
          readWord c'.mmioByteOrder w'.1 t'.playback = some w'.2) ∧
      (∀ w' ∈ lastWrites done', readWord c'.mmioByteOrder w'.1 t'.playback = some w'.2 ∨
        ∃ w ∈ lastWrites done, c.regionBase + w.1 = c'.regionBase + w'.1 ∧
          readWord c.mmioByteOrder w.1 s'.playback = some w.2)

/-- The invariant holds right after reset. -/
def Obligations.InvariantHoldsAtReset : Prop := Inv State.reset

/-- R18 to R24, R26, R30, R31, R37: every step keeps the invariant: STATUS stays a legal value, COUNT stays 0 after a
fatal error, each region keeps its canonical form, holds whole words and stays inside its size. -/
def Obligations.StepKeepsInvariant : Prop :=
  ∀ s t : State, Inv s → step s = .next t → Inv t

/-- R30, R33: of the commands only the SCATTER commands change the playback region. That no command changes the capture
region either, its reads included, is the model's choice (log entry 11; R42 and U21 take no position). -/
def Obligations.OnlyScattersWriteMemory : Prop :=
  ∀ (s t : State) (d : Descriptor), runCommand d s = .next t →
    t.capture = s.capture ∧
      (t.playback ≠ s.playback →
        cmdOp d.cmd = 0x10#8 ∨ cmdOp d.cmd = 0x11#8 ∨ cmdOp d.cmd = 0x12#8)

/-! ### How a command ends -/

/-- R23: LAST_OP is CMD[7:0] of the command, copied raw, also where those bits name no opcode and the command raises
InvalidArgument. -/
def Obligations.LastOpIsRawCommandByte : Prop :=
  ∀ (s : State) (c : Config) (d : Descriptor), Ready s c →
    ∃ t, runCommand d s = .next t ∧ t.status.extractLsb' 16 8 = d.cmd.extractLsb' 0 8 ∧
      (d.cmd.extractLsb' 0 8 ∉ legalOpcodes → t.status.extractLsb' 1 2 = 1#2)

/-- R19 to R24, R27: every command ends with DONE = 1, ERR not 3, WM exactly when DROPPED is not 0, no WM, no DROPPED and
COUNT 0 after a fatal error, the reserved bits 0, and one response that carries STATUS and COUNT. -/
def Obligations.CommandEndsWithLegalStatus : Prop :=
  ∀ (s t : State) (d : Descriptor), runCommand d s = .next t →
    t.status.getLsbD 0 = true ∧ t.status.extractLsb' 1 2 ≠ 3#2 ∧
      (t.status.getLsbD 3 = true ↔ t.status.extractLsb' 8 5 ≠ 0#5) ∧
      (t.status.extractLsb' 1 2 ≠ 0#2 → t.status.getLsbD 3 = false ∧ t.count = 0#32) ∧
      t.status.extractLsb' 4 4 = 0#4 ∧ t.status.extractLsb' 13 3 = 0#3 ∧ t.status.extractLsb' 24 8 = 0#8 ∧
      ∃ r, t.outbox = s.outbox ++ [.response r] ∧ r.status = t.status ∧ r.count = t.count

/-- R104, R105: a command that ends with a fatal error changes STATUS and COUNT only, and its response carries neither
output nor events. -/
def Obligations.FatalErrorChangesOnlyStatusAndCount : Prop :=
  ∀ (s t : State) (d : Descriptor), runCommand d s = .next t → t.status.extractLsb' 1 2 ≠ 0#2 →
    (t.status = statusValue (cmdOp d.cmd) 3#32 ∨ t.status = statusValue (cmdOp d.cmd) 5#32) ∧
      t = ended s t.status 0#32 [] []

/-- R36, R37, R7: in a machine whose configuration is fixed, every descriptor whatever completes, without a fault or a
refusal, and every access of its response is at a multiple of 4, inside its region, below 2^32. -/
def Obligations.EveryDescriptorCompletesInsideRegions : Prop :=
  ∀ (s : State) (c : Config) (d : Descriptor), Ready s c →
    ∃ t r, runCommand d s = .next t ∧ t.outbox = s.outbox ++ [.response r] ∧
      (∀ off v, .write off v ∈ r.events → off % 4 = 0 ∧ off + 4 ≤ c.regionSize ∧ off < 2 ^ 32) ∧
      (∀ off, .read off ∈ r.events → off % 4 = 0 ∧ off + 4 ≤ c.capRegionSize ∧ off < 2 ^ 32)

/-- R26: COUNT is the number of output elements: the elements emitted, or the writes of a SCATTER. With the default
`CAP_ADDR` and a stream limit of at most 2^31 - 1 it fits (NOTES.md says where it does not). -/
def Obligations.CountIsNumberOfOutputs : Prop :=
  ∀ (s t : State) (c : Config) (d : Descriptor), Ready s c → c.maxStreamLen ≤ 2 ^ 31 - 1 → c.capAddr = defaultCapAddr →
    runCommand d s = .next t →
      ∃ r, t.outbox = s.outbox ++ [.response r] ∧ t.count.toNat = outputUnits r

/-! ### The codec -/

/-- R61: PACK_COMPLEX. -/
def Obligations.PackComplexResult : Prop :=
  ∀ (s : State) (c : Config) (a b : List Int), Ready s c →
    encode (.packComplex a b) = { cmd := 0x00000001#32, arg0 := 0#32, a := a, b := b } ∧
    (a.length ≠ b.length → exec (.packComplex a b) s = .next (ended s 0x00010003#32 0#32 [] [])) ∧
    (a.length = b.length →
      exec (.packComplex a b) s = .next (ended s 0x00010001#32 (BitVec.ofNat 32 a.length)
        ((List.range a.length).map fun i => .dcWord (BitVec.ofInt 16 (a.getD i 0) ++ BitVec.ofInt 16 (b.getD i 0))) []))

/-- R62: PACK_REAL. -/
def Obligations.PackRealResult : Prop :=
  ∀ (s : State) (c : Config) (a : List Int), Ready s c →
    encode (.packReal a) = { cmd := 0x00000002#32, arg0 := 0#32, a := a, b := [] } ∧
    (a.length % 2 ≠ 0 → exec (.packReal a) s = .next (ended s 0x00020003#32 0#32 [] [])) ∧
    (a.length % 2 = 0 →
      exec (.packReal a) s = .next (ended s 0x00020001#32 (BitVec.ofNat 32 (a.length / 2))
        ((List.range (a.length / 2)).map fun j =>
          .dcWord (BitVec.ofInt 16 (a.getD (2 * j + 1) 0) ++ BitVec.ofInt 16 (a.getD (2 * j) 0))) []))

/-- R63: UNPACK_REAL. -/
def Obligations.UnpackRealResult : Prop :=
  ∀ (s : State) (c : Config) (a : List Int), Ready s c →
    encode (.unpackReal a) = { cmd := 0x00000003#32, arg0 := 0#32, a := a, b := [] } ∧
      exec (.unpackReal a) s = .next (ended s 0x00030001#32 (BitVec.ofNat 32 (2 * a.length))
        ((List.range (2 * a.length)).map fun j =>
          .sample (if j % 2 = 0 then (BitVec.ofInt 32 (a.getD (j / 2) 0)).extractLsb' 0 16
            else (BitVec.ofInt 32 (a.getD (j / 2) 0)).extractLsb' 16 16)) [])

/-- R64: packing truncates and never saturates: values that differ by multiples of 65536 pack alike. -/
def Obligations.PackingTruncates : Prop :=
  ∀ (s : State) (a b m n : List Int), a.length = m.length → b.length = n.length →
    exec (.packReal (List.zipWith (fun v k => v + 65536 * k) a m)) s = exec (.packReal a) s ∧
    exec (.packComplex (List.zipWith (fun v k => v + 65536 * k) a m) (List.zipWith (fun v k => v + 65536 * k) b n)) s =
      exec (.packComplex a b) s

/-- R52: a DcWord stream's values that differ by multiples of 2^32 are the same words to every command that reads one. -/
def Obligations.WordTwinsAreOneWord : Prop :=
  ∀ (s : State) (a m : List Int), a.length = m.length →
    let a' := List.zipWith (fun v k => v + 4294967296 * k) a m
    exec (.unpackReal a') s = exec (.unpackReal a) s ∧ exec (.scatterBram a') s = exec (.scatterBram a) s ∧
      exec (.scatterUram a') s = exec (.scatterUram a) s ∧ exec (.scatterDdr4 a') s = exec (.scatterDdr4 a) s

/-- R67: PACK_REAL and then UNPACK_REAL on its output give an even-length sequence back: as integer views, the values
themselves in [-2^15, 2^15), their truncations outside. -/
def Obligations.RealSamplesRoundTrip : Prop :=
  ∀ (s : State) (c : Config) (x : List Int), Ready s c → x.length % 2 = 0 →
    ∃ t r u q, exec (.packReal x) s = .next t ∧ lastResponse t = some r ∧
      exec (.unpackReal (wordStream r.out)) t = .next u ∧ lastResponse u = some q ∧
      sampleStream q.out = x.map (fun v => (BitVec.ofInt 16 v).toInt) ∧
      ((∀ v ∈ x, -32768 ≤ v ∧ v < 32768) → sampleStream q.out = x)

/-- R68: the halves of PACK_COMPLEX's words are the real and imaginary parts again, and UNPACK_REAL on its output gives
for each word the imaginary part, then the real part. -/
def Obligations.ComplexSamplesRoundTrip : Prop :=
  ∀ (s : State) (c : Config) (re im : List Int), Ready s c → re.length = im.length →
    (∀ v ∈ re, -32768 ≤ v ∧ v < 32768) → (∀ v ∈ im, -32768 ≤ v ∧ v < 32768) →
    ∃ t r u q, exec (.packComplex re im) s = .next t ∧ lastResponse t = some r ∧ r.out.length = re.length ∧
      (∀ i < re.length, ∃ w, r.out[i]? = some (.dcWord w) ∧ re[i]? = some (w.extractLsb' 16 16).toInt ∧
        im[i]? = some (w.extractLsb' 0 16).toInt) ∧
      exec (.unpackReal (wordStream r.out)) t = .next u ∧ lastResponse u = some q ∧
      (∀ i < re.length, (sampleStream q.out)[2 * i]? = im[i]? ∧ (sampleStream q.out)[2 * i + 1]? = re[i]?)

/-- R69: the response of a codec command depends on its descriptor alone: in any two machines whose configurations are
fixed it is the same, and it lists no access. -/
def Obligations.CodecResponseDependsOnDescriptorOnly : Prop :=
  ∀ (s s' : State) (c c' : Config) (i : Instr), Ready s c → Ready s' c' →
    (∃ a b, i = .packComplex a b) ∨ (∃ a, i = .packReal a) ∨ (∃ a, i = .unpackReal a) →
    ∃ t t' r, exec i s = .next t ∧ exec i s' = .next t' ∧ t.outbox = s.outbox ++ [.response r] ∧
      t'.outbox = s'.outbox ++ [.response r] ∧ r.events = []

/-- The frame of PACK_COMPLEX, PACK_REAL and UNPACK_REAL (R33): every byte of both regions, the configuration, the parts
of SETTLED, the inputs and the draw index stay; one response is added. -/
def Obligations.CodecFrame : Prop :=
  ∀ (s t : State) (a b : List Int),
    exec (.packComplex a b) s = .next t ∨ exec (.packReal a) s = .next t ∨ exec (.unpackReal a) s = .next t →
    environmentKept s t ∧ t.draws = s.draws ∧ (∀ x, readByte x t.playback = readByte x s.playback) ∧
      (∀ x, readByte x t.capture = readByte x s.capture) ∧ ∃ r, t.outbox = s.outbox ++ [.response r]

/-! ### The scatter permuter -/

/-- R78: SCATTER_BRAM. The increasing lane order inside an 8-lane group is decision D13 (U17, log entry 17). -/
def Obligations.ScatterBramResult : Prop :=
  ScatterRule .scatterBram 0x00000010#32 0x10#8 .bram 32 (fun s => 8 * (3 - s / 8) + s % 8)

/-- R79: SCATTER_URAM. The increasing lane order inside an 8-lane group is decision D13 (U17, log entry 17). -/
def Obligations.ScatterUramResult : Prop :=
  ScatterRule .scatterUram 0x00000011#32 0x11#8 .uram 32 (fun s => 8 * (3 - s / 8) + s % 8)

/-- R80: SCATTER_DDR4. -/
def Obligations.ScatterDdr4Result : Prop :=
  ScatterRule .scatterDdr4 0x00000012#32 0x12#8 .ddr4 16 (fun s => (s + 8) % 16)

/-- R73, R75, R76: the lane tables of the three technologies, with the byte offset of each slot. The increasing lane order
inside an 8-lane group is the spec's own reading, decision D13 (U17, log entry 17). -/
def Obligations.LaneTables : Prop :=
  (∀ q < 4, ∀ r < 8, laneOf .bram (8 * q + r) = 8 * (3 - q) + r ∧ laneOf .uram (8 * q + r) = 8 * (3 - q) + r) ∧
  (∀ s < 8, laneOf .ddr4 s = 8 + s) ∧ (∀ s < 8, laneOf .ddr4 (8 + s) = s) ∧
  lanes .bram = 32 ∧ lanes .uram = 32 ∧ lanes .ddr4 = 16 ∧
  periodBytes .bram = 128 ∧ periodBytes .uram = 128 ∧ periodBytes .ddr4 = 64 ∧
  ∀ t, ∀ s < 32, slotOffset t 0 s = 4 * s

/-- R82: each lane permutation is its own inverse on the lanes of a period. -/
def Obligations.LanePermutationInvolution : Prop :=
  ∀ t : Tech, ∀ s < lanes t, laneOf t s < lanes t ∧ laneOf t (laneOf t s) = s

/-- R81: the offsets a SCATTER of P whole periods writes are exactly 4*m for m below P times the lanes, each once. -/
def Obligations.ScatterOffsetsTile : Prop :=
  ∀ (t : Tech) (a : List Int),
    ((scatterWrites t a).map Prod.fst).Nodup ∧
      ∀ off, off ∈ (scatterWrites t a).map Prod.fst ↔ ∃ m < a.length / lanes t * lanes t, off = 4 * m

/-- R83: gather-by-offset after a successful SCATTER gives back the words of all whole periods, in order. -/
def Obligations.GatherByOffsetRestores : Prop :=
  ∀ (s : State) (c : Config) (i : Instr) (t : Tech) (a : List Int), Ready s c → c.regionTech = t → a.length ≠ 0 →
    (t = .bram ∧ i = .scatterBram a) ∨ (t = .uram ∧ i = .scatterUram a) ∨ (t = .ddr4 ∧ i = .scatterDdr4 a) →
    a.length / lanes t * periodBytes t ≤ c.regionSize →
    ∃ u, exec i s = .next u ∧
      gatherByOffset t c.mmioByteOrder u.playback (a.length / lanes t) =
        (a.take (a.length / lanes t * lanes t)).map fun v => some (BitVec.ofInt 32 v)

/-- R84, R40: issuing a SCATTER's (offset, value) pairs in any order leaves the same playback region. -/
def Obligations.WriteOrderIsIrrelevant : Prop :=
  ∀ (c : Config) (t : Tech) (a : List Int) (m : Memory) (ws : List (Nat × Word)), m.wf →
    a.length / lanes t * periodBytes t ≤ c.regionSize → ws.Perm (scatterWrites t a) →
    ∃ m', memWrites c (scatterWrites t a) m = .ok m' ∧ memWrites c ws m = .ok m'

/-- R40: a write sets the word at its offset, in either byte order, and no other byte; writing the same value again
changes nothing; two writes at distinct offsets give the same region in either order. -/
def Obligations.WriteSetsOneWord : Prop :=
  ∀ (c : Config) (off : Nat) (v : Word) (m : Memory), m.wf → wordInside c.regionSize off →
    ∃ m', memWrite c off v m = .ok m' ∧ readWord c.mmioByteOrder off m' = some v ∧
      (∀ x, x < off ∨ off + 4 ≤ x → readByte x m' = readByte x m) ∧ memWrite c off v m' = .ok m' ∧
      ∀ off' v' m1, wordInside c.regionSize off' → off' ≠ off → memWrite c off' v' m = .ok m1 →
        ∃ m2, memWrite c off' v' m' = .ok m2 ∧ memWrite c off v m1 = .ok m2

/-- The frame of the SCATTER commands: every byte outside the words of the whole periods of the command's technology,
the capture region, the configuration, the parts of SETTLED, the inputs and the draw index stay; one response is added. -/
def Obligations.ScatterFrame : Prop :=
  ∀ (s u : State) (t : Tech) (a : List Int),
    (t = .bram ∧ exec (.scatterBram a) s = .next u) ∨ (t = .uram ∧ exec (.scatterUram a) s = .next u) ∨
      (t = .ddr4 ∧ exec (.scatterDdr4 a) s = .next u) →
    environmentKept s u ∧ u.draws = s.draws ∧ (∀ x, readByte x u.capture = readByte x s.capture) ∧
      (∀ x, (∀ p < a.length / lanes t, ∀ k < lanes t, x < slotOffset t p k ∨ slotOffset t p k + 4 ≤ x) →
        readByte x u.playback = readByte x s.playback) ∧ ∃ r, u.outbox = s.outbox ++ [.response r]

/-! ### The capture demultiplexer -/

/-- R88, R89, R90: GATHER_REAL. Each sample's word is the capture word if SETTLED holds and the word holds a value; else
it is unconstrained. For n that is no multiple of 8 the lanes kept are decision D18, and the reads of the dropped words
decision D39 (U18, log entry 17); that the capture region stays as it is, is the model's choice (log entry 11). -/
def Obligations.GatherRealResult : Prop :=
  ∀ (s : State) (c : Config) (n : Word), Ready s c →
    encode (.gatherReal n) = { cmd := 0x00000020#32, arg0 := n, a := [], b := [] } ∧
    (n.toNat = 0 → exec (.gatherReal n) s = .next (ended s 0x00200003#32 0#32 [] [])) ∧
    (n.toNat ≠ 0 → (∃ w < n.toNat, c.capRegionSize < capOffset c w + 4) →
      exec (.gatherReal n) s = .next (ended s 0x00200005#32 0#32 [] [])) ∧
    (n.toNat ≠ 0 → (∀ w < n.toNat, capOffset c w + 4 ≤ c.capRegionSize) →
      ∃ (d : Nat) (out : List Element),
        exec (.gatherReal n) s = .next (ended { s with draws := d } 0x00200001#32 (BitVec.ofNat 32 out.length) out
          ((List.range n.toNat).flatMap fun w => [.read (capOffset c w), .read (capOffset c w)])) ∧
        out.length = 8 * (n.toNat / 8) + min (2 * (n.toNat % 8)) 8 ∧
        (∀ i < out.length, ∃ x, out[i]? = some (.sample x)) ∧
        (settled c s = true → ∀ i < out.length, ∀ v,
          readWord c.mmioByteOrder (capOffset c (8 * (i / 8) + i % 8 / 2)) s.capture = some v →
          out[i]? = some (.sample (if i % 2 = 0 then v.extractLsb' 0 16 else v.extractLsb' 16 16))))

/-- R91, R92, R93: GATHER_IQ. For n that is no multiple of 8 the whole-block rule is decision D19 (U18, log entry 17); that
the capture region stays as it is, is the model's choice (log entry 11). -/
def Obligations.GatherIqResult : Prop :=
  ∀ (s : State) (c : Config) (n : Word), Ready s c →
    encode (.gatherIq n) = { cmd := 0x00000021#32, arg0 := n, a := [], b := [] } ∧
    (n.toNat = 0 → exec (.gatherIq n) s = .next (ended s 0x00210003#32 0#32 [] [])) ∧
    (n.toNat ≠ 0 → (∃ w < 8 * (n.toNat / 8), c.capRegionSize < capOffset c w + 4) →
      exec (.gatherIq n) s = .next (ended s 0x00210005#32 0#32 [] [])) ∧
    (n.toNat ≠ 0 → (∀ w < 8 * (n.toNat / 8), capOffset c w + 4 ≤ c.capRegionSize) →
      ∃ (d : Nat) (out : List Element),
        exec (.gatherIq n) s = .next (ended { s with draws := d } (statusValue 0x21#8 (successLow (n.toNat % 8)))
          (BitVec.ofNat 32 (8 * (n.toNat / 8))) out
          ((List.range (8 * (n.toNat / 8))).flatMap fun w => [.read (capOffset c w), .read (capOffset c w)])) ∧
        out.length = 8 * (n.toNat / 8) ∧ (∀ i < out.length, ∃ x y, out[i]? = some (.iq x y)) ∧
        (settled c s = true → ∀ i < out.length, ∀ v v',
          readWord c.mmioByteOrder (capOffset c (8 * (i / 8) + i % 8 / 2)) s.capture = some v →
          readWord c.mmioByteOrder (capOffset c (8 * (i / 8) + 4 + i % 8 / 2)) s.capture = some v' →
          out[i]? = some (.iq (if i % 2 = 0 then v.extractLsb' 0 16 else v.extractLsb' 16 16)
            (if i % 2 = 0 then v'.extractLsb' 0 16 else v'.extractLsb' 16 16))))

/-- R41, R85: a read pair at an offset that exists discards its first read, a free value, and returns its second: the
capture word if SETTLED holds, else the next free value. A settled read of a word that holds no value is a free value too,
which is the model's choice (log entry 5). -/
def Obligations.ReadPairKeepsSecondRead : Prop :=
  ∀ (c : Config) (source : Nat) (cm : Memory) (off draw : Nat), wordInside c.capRegionSize off →
    (∀ v, readWord c.mmioByteOrder off cm = some v → readPair c source true cm off draw = .ok (v, draw + 1)) ∧
    (readWord c.mmioByteOrder off cm = none →
      readPair c source true cm off draw = .ok (Config.freeWord source (draw + 1), draw + 2)) ∧
    readPair c source false cm off draw = .ok (Config.freeWord source (draw + 1), draw + 2)

/-- R97: whether SETTLED holds, and what the capture region holds, changes neither STATUS, COUNT, the events nor the length
of the output of a gather. -/
def Obligations.UnsettledGatherHasSameShape : Prop :=
  ∀ (s s' : State) (c : Config) (i : Instr) (n : Word), Ready s c → Ready s' c → i = .gatherReal n ∨ i = .gatherIq n →
    ∃ t t' r r', exec i s = .next t ∧ exec i s' = .next t' ∧ lastResponse t = some r ∧ lastResponse t' = some r' ∧
      t.status = t'.status ∧ t.count = t'.count ∧ r.events = r'.events ∧ r.out.length = r'.out.length

/-- R97, R118: while SETTLED does not hold, no command's response tells anything about the capture region. Two choices of the
model stand in the words used: both runs draw the same free values (log entry 6), and a read leaves the capture region as it
is (log entry 11). -/
def Obligations.UnsettledGatherIndependentOfCapture : Prop :=
  ∀ (s : State) (c : Config) (i : Instr) (cm : Memory), Ready s c → settled c s = false →
    ∃ t, exec i s = .next t ∧ exec i { s with capture := cm } = .next { t with capture := cm }

/-- R96: for the whole blocks of n words, GATHER_REAL's samples are the I parts of GATHER_IQ's, in order, given the same
capture words: both commands run from one state. In unsettled states it holds because both then draw the same free values
(log entry 6). That the pairs of n words are those of the whole blocks alone, where n is no multiple of 8, is decision D19 (U18,
log entry 17). -/
def Obligations.RealSamplesAreIParts : Prop :=
  ∀ (s : State) (c : Config) (n : Word), Ready s c → (∀ w < n.toNat, capOffset c w + 4 ≤ c.capRegionSize) →
    ∃ t u r q, exec (.gatherReal n) s = .next t ∧ exec (.gatherIq n) s = .next u ∧ lastResponse t = some r ∧
      lastResponse u = some q ∧ r.out.take (8 * (n.toNat / 8)) = q.out.map iPart

/-- The frame of the GATHER commands: every byte of both regions, the configuration, the parts of SETTLED and the inputs
stay; one response is added. That a read leaves the capture region as it is, is the model's choice (log entry 11). -/
def Obligations.GatherFrame : Prop :=
  ∀ (s t : State) (n : Word), exec (.gatherReal n) s = .next t ∨ exec (.gatherIq n) s = .next t →
    environmentKept s t ∧ (∀ x, readByte x t.playback = readByte x s.playback) ∧
      (∀ x, readByte x t.capture = readByte x s.capture) ∧ ∃ r, t.outbox = s.outbox ++ [.response r]

/-! ### Other agents -/

/-- R30, R31, R41, R44, R46, R117 (log entries 4, 5, 8, 11 and 12): between commands, a write of the capture hardware or of another
agent sets the word at its offset and no other byte; a playback read delivers the word; a single capture read and a read
where passes overlap deliver a free value; a pair of capture reads delivers the word if SETTLED holds and the word holds a
value, else a free value. That a capture read leaves the capture region as it is, is the model's choice (log entry 11; R42 and
U21 take no position). That a write of the capture hardware before a gather leaves the parts of SETTLED as they are is its choice
too (log entry 8; R31 gives no start of the quiet time). An unwritten playback word (U3) and an access that does not exist (U15) are refused. -/
def Obligations.AgentAccessesBetweenCommands : Prop :=
  ∀ (s : State) (c : Config) (rest : List Input) (off : Nat) (v : Word), Ready s c →
    (s.inbox = .captureWrite off v :: rest →
      if wordInside c.capRegionSize off then
        ∃ m, step s = .next { s with inbox := rest, capture := m } ∧ readWord c.mmioByteOrder off m = some v ∧
          ∀ x, x < off ∨ off + 4 ≤ x → readByte x m = readByte x s.capture
      else step s = .refused (.agentAccess off)) ∧
    (s.inbox = .writePlayback off v :: rest →
      if wordInside c.regionSize off then
        ∃ m, step s = .next { s with inbox := rest, playback := m } ∧ readWord c.mmioByteOrder off m = some v ∧
          ∀ x, x < off ∨ off + 4 ≤ x → readByte x m = readByte x s.playback
      else step s = .refused (.agentAccess off)) ∧
    (s.inbox = .readPlayback off :: rest →
      if wordInside c.regionSize off then
        (∀ w, readWord c.mmioByteOrder off s.playback = some w →
          step s = .next { s with inbox := rest, outbox := s.outbox ++ [.playbackRead off w] }) ∧
        (readWord c.mmioByteOrder off s.playback = none → step s = .refused (.unwrittenPlayback off))
      else step s = .refused (.agentAccess off)) ∧
    (s.inbox = .readInOverlap off :: rest →
      if wordInside c.regionSize off then
        step s = .next { s with inbox := rest, draws := s.draws + 1,
                                outbox := s.outbox ++ [.playbackRead off (Config.freeWord s.source s.draws)] }
      else step s = .refused (.agentAccess off)) ∧
    (s.inbox = .readCapture off :: rest →
      if wordInside c.capRegionSize off then
        step s = .next { s with inbox := rest, draws := s.draws + 1,
                                outbox := s.outbox ++ [.captureRead off (Config.freeWord s.source s.draws)] }
      else step s = .refused (.agentAccess off)) ∧
    (s.inbox = .readCapturePair off :: rest →
      if wordInside c.capRegionSize off then
        (∀ w, settled c s = true → readWord c.mmioByteOrder off s.capture = some w →
          step s = .next { s with inbox := rest, draws := s.draws + 1, outbox := s.outbox ++ [.captureRead off w] }) ∧
        (settled c s = false ∨ readWord c.mmioByteOrder off s.capture = none →
          step s = .next { s with inbox := rest, draws := s.draws + 2,
                                  outbox := s.outbox ++ [.captureRead off (Config.freeWord s.source (s.draws + 1))] })
      else step s = .refused (.agentAccess off))

/-- R114, R115: reset during a command: no response, STATUS and COUNT 0, and each word of the playback region that the
command would have written is the whole old word or the whole new one; every other byte is unchanged. That no word tears is
decision D27 (U16, log entry 13). The input that stands for it is the model's (log entry 12). That the capture region stays as it is, where the reads of an abandoned GATHER may have been
issued, is the model's choice too (log entry 11; R42 and U21 take no position). -/
def Obligations.ResetDuringCommandLeavesOldOrNew : Prop :=
  ∀ (s : State) (c : Config) (d : Descriptor), Ready s c →
    ∃ done t, runCommand d s = .next done ∧ onResetDuring d s = .next t ∧ t.status = 0#32 ∧ t.count = 0#32 ∧
      t.outbox = s.outbox ∧ t.config = s.config ∧ t.capture = s.capture ∧
      ∀ off, off % 4 = 0 →
        (∀ i < 4, readByte (off + i) t.playback = readByte (off + i) s.playback) ∨
        (∀ i < 4, readByte (off + i) t.playback = readByte (off + i) done.playback)

/-- R44, R39: an agent that reads playback words while a command is in flight sees each time the whole old word or the whole
new one; a word that held no value before the command and that the command writes reads as the new word or as a free value.
Then the command ends as it does without the reads, its free values drawn from later on. An offset that is no word of the
region, and a word that holds no value even after the command, are refused (U15, U3). That no word tears is decision D27
(U16, log entry 13); the input that stands for the reads, and the free value, are the model's (log entry 12), the refusal of a
word without a value too (log entry 4). -/
def Obligations.ReadsDuringCommandSeeOldOrNew : Prop :=
  ∀ (s : State) (c : Config) (d : Descriptor) (offs : List Nat), Ready s c →
    ∃ (done after : State) (r : Response), runCommand d s = .next done ∧
      runCommand d { s with draws := s.draws + offs.length } = .next after ∧ after.outbox = s.outbox ++ [.response r] ∧
      after.playback = done.playback ∧ after.status = done.status ∧ after.count = done.count ∧
      r.events = lastEvents done ∧
      (cmdOp d.cmd ∉ gatherOpcodes → after = { done with draws := s.draws + offs.length }) ∧
      ((∃ off ∈ offs, ¬ wordInside c.regionSize off) →
        ∃ off ∈ offs, ¬ wordInside c.regionSize off ∧ onReadsDuring d offs s = .refused (.agentAccess off)) ∧
      ((∀ off ∈ offs, wordInside c.regionSize off) →
        (∃ off ∈ offs, readWord c.mmioByteOrder off done.playback = none) →
        ∃ off ∈ offs, readWord c.mmioByteOrder off done.playback = none ∧
          readWord c.mmioByteOrder off s.playback = none ∧ onReadsDuring d offs s = .refused (.unwrittenPlayback off)) ∧
      ((∀ off ∈ offs, wordInside c.regionSize off ∧ readWord c.mmioByteOrder off done.playback ≠ none) →
        ∃ seen : List Delivery,
          onReadsDuring d offs s = .next { after with outbox := s.outbox ++ seen ++ [.response r] } ∧
          seen.length = offs.length ∧
          ∀ (i off : Nat), offs[i]? = some off → ∃ v, seen[i]? = some (Delivery.playbackRead off v) ∧
            (readWord c.mmioByteOrder off s.playback = some v ∨ readWord c.mmioByteOrder off done.playback = some v ∨
              (readWord c.mmioByteOrder off s.playback = none ∧ v = Config.freeWord s.source (s.draws + i))))

/-- R46: where another agent's writes overlap a command's, the final word at an offset both wrote is either writer's; an
offset only the agent wrote holds its word; every other byte is as the command leaves it. That no word tears is decision D27
(U16, log entry 13). The input that stands for it is the model's (log entry 12). -/
def Obligations.RacingWritesLeaveEitherWord : Prop :=
  ∀ (s : State) (c : Config) (d : Descriptor) (ws : List (Nat × Word)), Ready s c →
    (∀ w ∈ ws, wordInside c.regionSize w.1) → (ws.map Prod.fst).Nodup →
    ∃ done t, runCommand d s = .next done ∧ onWritesDuring d ws s = .next t ∧ t.status = done.status ∧
      t.count = done.count ∧ t.outbox = done.outbox ∧
      (∀ w ∈ ws, readWord c.mmioByteOrder w.1 t.playback = some w.2 ∨
        (w.1 ∈ (lastWrites done).map Prod.fst ∧
          readWord c.mmioByteOrder w.1 t.playback = readWord c.mmioByteOrder w.1 done.playback)) ∧
      ∀ x, (∀ w ∈ ws, x < w.1 ∨ w.1 + 4 ≤ x) → readByte x t.playback = readByte x done.playback
end

