-- ==== Sys2Proof/Laws/State.lean ====
section
/-! SUPPORT. One lemma per field per update of State, true by rfl. -/

namespace Sys2Proof.Machine

/-! deliver -/

@[simp] theorem deliver_status (x : Delivery) (s : State) : (deliver x s).status = s.status := rfl
@[simp] theorem deliver_count (x : Delivery) (s : State) : (deliver x s).count = s.count := rfl
@[simp] theorem deliver_playback (x : Delivery) (s : State) : (deliver x s).playback = s.playback := rfl
@[simp] theorem deliver_capture (x : Delivery) (s : State) : (deliver x s).capture = s.capture := rfl
@[simp] theorem deliver_config (x : Delivery) (s : State) : (deliver x s).config = s.config := rfl
@[simp] theorem deliver_armed (x : Delivery) (s : State) : (deliver x s).armed = s.armed := rfl
@[simp] theorem deliver_elapsed (x : Delivery) (s : State) : (deliver x s).elapsed = s.elapsed := rfl
@[simp] theorem deliver_captureBusy (x : Delivery) (s : State) : (deliver x s).captureBusy = s.captureBusy := rfl
@[simp] theorem deliver_inbox (x : Delivery) (s : State) : (deliver x s).inbox = s.inbox := rfl
@[simp] theorem deliver_outbox (x : Delivery) (s : State) : (deliver x s).outbox = s.outbox ++ [x] := rfl
@[simp] theorem deliver_source (x : Delivery) (s : State) : (deliver x s).source = s.source := rfl
@[simp] theorem deliver_draws (x : Delivery) (s : State) : (deliver x s).draws = s.draws := rfl

/-! deliverAll -/

@[simp] theorem deliverAll_status (xs : List Delivery) (s : State) : (deliverAll xs s).status = s.status := rfl
@[simp] theorem deliverAll_count (xs : List Delivery) (s : State) : (deliverAll xs s).count = s.count := rfl
@[simp] theorem deliverAll_playback (xs : List Delivery) (s : State) : (deliverAll xs s).playback = s.playback := rfl
@[simp] theorem deliverAll_capture (xs : List Delivery) (s : State) : (deliverAll xs s).capture = s.capture := rfl
@[simp] theorem deliverAll_config (xs : List Delivery) (s : State) : (deliverAll xs s).config = s.config := rfl
@[simp] theorem deliverAll_armed (xs : List Delivery) (s : State) : (deliverAll xs s).armed = s.armed := rfl
@[simp] theorem deliverAll_elapsed (xs : List Delivery) (s : State) : (deliverAll xs s).elapsed = s.elapsed := rfl
@[simp] theorem deliverAll_captureBusy (xs : List Delivery) (s : State) : (deliverAll xs s).captureBusy = s.captureBusy := rfl
@[simp] theorem deliverAll_inbox (xs : List Delivery) (s : State) : (deliverAll xs s).inbox = s.inbox := rfl
@[simp] theorem deliverAll_outbox (xs : List Delivery) (s : State) : (deliverAll xs s).outbox = s.outbox ++ xs := rfl
@[simp] theorem deliverAll_source (xs : List Delivery) (s : State) : (deliverAll xs s).source = s.source := rfl
@[simp] theorem deliverAll_draws (xs : List Delivery) (s : State) : (deliverAll xs s).draws = s.draws := rfl

/-! withPlayback -/

@[simp] theorem withPlayback_status (m : Memory) (s : State) : (withPlayback m s).status = s.status := rfl
@[simp] theorem withPlayback_count (m : Memory) (s : State) : (withPlayback m s).count = s.count := rfl
@[simp] theorem withPlayback_playback (m : Memory) (s : State) : (withPlayback m s).playback = m := rfl
@[simp] theorem withPlayback_capture (m : Memory) (s : State) : (withPlayback m s).capture = s.capture := rfl
@[simp] theorem withPlayback_config (m : Memory) (s : State) : (withPlayback m s).config = s.config := rfl
@[simp] theorem withPlayback_armed (m : Memory) (s : State) : (withPlayback m s).armed = s.armed := rfl
@[simp] theorem withPlayback_elapsed (m : Memory) (s : State) : (withPlayback m s).elapsed = s.elapsed := rfl
@[simp] theorem withPlayback_captureBusy (m : Memory) (s : State) : (withPlayback m s).captureBusy = s.captureBusy := rfl
@[simp] theorem withPlayback_inbox (m : Memory) (s : State) : (withPlayback m s).inbox = s.inbox := rfl
@[simp] theorem withPlayback_outbox (m : Memory) (s : State) : (withPlayback m s).outbox = s.outbox := rfl
@[simp] theorem withPlayback_source (m : Memory) (s : State) : (withPlayback m s).source = s.source := rfl
@[simp] theorem withPlayback_draws (m : Memory) (s : State) : (withPlayback m s).draws = s.draws := rfl

/-! withCapture -/

@[simp] theorem withCapture_status (m : Memory) (s : State) : (withCapture m s).status = s.status := rfl
@[simp] theorem withCapture_count (m : Memory) (s : State) : (withCapture m s).count = s.count := rfl
@[simp] theorem withCapture_playback (m : Memory) (s : State) : (withCapture m s).playback = s.playback := rfl
@[simp] theorem withCapture_capture (m : Memory) (s : State) : (withCapture m s).capture = m := rfl
@[simp] theorem withCapture_config (m : Memory) (s : State) : (withCapture m s).config = s.config := rfl
@[simp] theorem withCapture_armed (m : Memory) (s : State) : (withCapture m s).armed = s.armed := rfl
@[simp] theorem withCapture_elapsed (m : Memory) (s : State) : (withCapture m s).elapsed = s.elapsed := rfl
@[simp] theorem withCapture_captureBusy (m : Memory) (s : State) : (withCapture m s).captureBusy = s.captureBusy := rfl
@[simp] theorem withCapture_inbox (m : Memory) (s : State) : (withCapture m s).inbox = s.inbox := rfl
@[simp] theorem withCapture_outbox (m : Memory) (s : State) : (withCapture m s).outbox = s.outbox := rfl
@[simp] theorem withCapture_source (m : Memory) (s : State) : (withCapture m s).source = s.source := rfl
@[simp] theorem withCapture_draws (m : Memory) (s : State) : (withCapture m s).draws = s.draws := rfl

/-! withDraws -/

@[simp] theorem withDraws_status (n : Nat) (s : State) : (withDraws n s).status = s.status := rfl
@[simp] theorem withDraws_count (n : Nat) (s : State) : (withDraws n s).count = s.count := rfl
@[simp] theorem withDraws_playback (n : Nat) (s : State) : (withDraws n s).playback = s.playback := rfl
@[simp] theorem withDraws_capture (n : Nat) (s : State) : (withDraws n s).capture = s.capture := rfl
@[simp] theorem withDraws_config (n : Nat) (s : State) : (withDraws n s).config = s.config := rfl
@[simp] theorem withDraws_armed (n : Nat) (s : State) : (withDraws n s).armed = s.armed := rfl
@[simp] theorem withDraws_elapsed (n : Nat) (s : State) : (withDraws n s).elapsed = s.elapsed := rfl
@[simp] theorem withDraws_captureBusy (n : Nat) (s : State) : (withDraws n s).captureBusy = s.captureBusy := rfl
@[simp] theorem withDraws_inbox (n : Nat) (s : State) : (withDraws n s).inbox = s.inbox := rfl
@[simp] theorem withDraws_outbox (n : Nat) (s : State) : (withDraws n s).outbox = s.outbox := rfl
@[simp] theorem withDraws_source (n : Nat) (s : State) : (withDraws n s).source = s.source := rfl
@[simp] theorem withDraws_draws (n : Nat) (s : State) : (withDraws n s).draws = n := rfl

/-! applyReset -/

@[simp] theorem applyReset_status (s : State) : (applyReset s).status = 0 := rfl
@[simp] theorem applyReset_count (s : State) : (applyReset s).count = 0 := rfl
@[simp] theorem applyReset_playback (s : State) : (applyReset s).playback = s.playback := rfl
@[simp] theorem applyReset_capture (s : State) : (applyReset s).capture = s.capture := rfl
@[simp] theorem applyReset_config (s : State) : (applyReset s).config = s.config := rfl
@[simp] theorem applyReset_armed (s : State) : (applyReset s).armed = false := rfl
@[simp] theorem applyReset_elapsed (s : State) : (applyReset s).elapsed = 0 := rfl
@[simp] theorem applyReset_captureBusy (s : State) : (applyReset s).captureBusy = s.captureBusy := rfl
@[simp] theorem applyReset_inbox (s : State) : (applyReset s).inbox = s.inbox := rfl
@[simp] theorem applyReset_outbox (s : State) : (applyReset s).outbox = s.outbox := rfl
@[simp] theorem applyReset_source (s : State) : (applyReset s).source = s.source := rfl
@[simp] theorem applyReset_draws (s : State) : (applyReset s).draws = s.draws := rfl

/-! finish -/

@[simp] theorem finish_status (op : BitVec 8) (e : ErrorKind) (wm : Bool) (k n : Nat) (out : List Element) (ev : List Event) (s : State) :
    (finish op e wm k n out ev s).status = endStatus op e wm k := rfl
@[simp] theorem finish_count (op : BitVec 8) (e : ErrorKind) (wm : Bool) (k n : Nat) (out : List Element) (ev : List Event) (s : State) :
    (finish op e wm k n out ev s).count = endCount e n := rfl
@[simp] theorem finish_playback (op : BitVec 8) (e : ErrorKind) (wm : Bool) (k n : Nat) (out : List Element) (ev : List Event) (s : State) :
    (finish op e wm k n out ev s).playback = s.playback := rfl
@[simp] theorem finish_capture (op : BitVec 8) (e : ErrorKind) (wm : Bool) (k n : Nat) (out : List Element) (ev : List Event) (s : State) :
    (finish op e wm k n out ev s).capture = s.capture := rfl
@[simp] theorem finish_config (op : BitVec 8) (e : ErrorKind) (wm : Bool) (k n : Nat) (out : List Element) (ev : List Event) (s : State) :
    (finish op e wm k n out ev s).config = s.config := rfl
@[simp] theorem finish_armed (op : BitVec 8) (e : ErrorKind) (wm : Bool) (k n : Nat) (out : List Element) (ev : List Event) (s : State) :
    (finish op e wm k n out ev s).armed = s.armed := rfl
@[simp] theorem finish_elapsed (op : BitVec 8) (e : ErrorKind) (wm : Bool) (k n : Nat) (out : List Element) (ev : List Event) (s : State) :
    (finish op e wm k n out ev s).elapsed = s.elapsed := rfl
@[simp] theorem finish_captureBusy (op : BitVec 8) (e : ErrorKind) (wm : Bool) (k n : Nat) (out : List Element) (ev : List Event) (s : State) :
    (finish op e wm k n out ev s).captureBusy = s.captureBusy := rfl
@[simp] theorem finish_inbox (op : BitVec 8) (e : ErrorKind) (wm : Bool) (k n : Nat) (out : List Element) (ev : List Event) (s : State) :
    (finish op e wm k n out ev s).inbox = s.inbox := rfl
@[simp] theorem finish_outbox (op : BitVec 8) (e : ErrorKind) (wm : Bool) (k n : Nat) (out : List Element) (ev : List Event) (s : State) :
    (finish op e wm k n out ev s).outbox = s.outbox ++ [.response { status := endStatus op e wm k, count := endCount e n, out := if e = .none then out else [], events := ev }] := rfl
@[simp] theorem finish_source (op : BitVec 8) (e : ErrorKind) (wm : Bool) (k n : Nat) (out : List Element) (ev : List Event) (s : State) :
    (finish op e wm k n out ev s).source = s.source := rfl
@[simp] theorem finish_draws (op : BitVec 8) (e : ErrorKind) (wm : Bool) (k n : Nat) (out : List Element) (ev : List Event) (s : State) :
    (finish op e wm k n out ev s).draws = s.draws := rfl

/-! The response a command delivers -/

@[simp] theorem lastResponse_finish (op : BitVec 8) (e : ErrorKind) (wm : Bool) (k n : Nat) (out : List Element)
    (ev : List Event) (s : State) : lastResponse (finish op e wm k n out ev s) =
      some { status := endStatus op e wm k, count := endCount e n, out := if e = .none then out else [], events := ev } := by
  simp [lastResponse]

@[simp] theorem lastEvents_finish (op : BitVec 8) (e : ErrorKind) (wm : Bool) (k n : Nat) (out : List Element)
    (ev : List Event) (s : State) : lastEvents (finish op e wm k n out ev s) = ev := by
  simp [lastEvents]

@[simp] theorem lastResponse_ended (s : State) (status count : Word) (out : List Element) (ev : List Event) :
    lastResponse (ended s status count out ev) =
      some { status := status, count := count, out := out, events := ev } := by
  simp [lastResponse, ended]

end Sys2Proof.Machine
end

