-- ==== Sys2Proof/Laws/Memory.lean ====
section
/-! SUPPORT. What the operations over a region do: reading after writing, untouched bytes, the canonical form. -/

namespace Sys2Proof.Machine

/-! ### Bytes -/

theorem readByte_writeByte_same (a : Nat) (b : Byte) (m : Memory) : readByte a (writeByte a b m) = some b := by
  induction m with
  | nil => simp [writeByte, readByte]
  | cons x rest ih =>
    obtain ⟨k, v⟩ := x
    unfold writeByte
    split
    · simp [readByte]
    · split
      · simp [readByte]
      · rename_i h
        simp [readByte, h, ih]

theorem readByte_writeByte_other {a a' : Nat} (h : a' ≠ a) (b : Byte) (m : Memory) :
    readByte a' (writeByte a b m) = readByte a' m := by
  induction m with
  | nil => simp [writeByte, readByte, h]
  | cons x rest ih =>
    obtain ⟨k, v⟩ := x
    unfold writeByte
    split
    · simp [readByte, h]
    · split
      · rename_i hk; subst hk; simp [readByte, h]
      · simp [readByte, ih]

theorem mem_writeByte {a : Nat} {b : Byte} {m : Memory} {x : Host.Cell} (h : x ∈ writeByte a b m) :
    x = (a, b) ∨ x ∈ m := by
  induction m with
  | nil => simpa [writeByte] using h
  | cons y rest ih =>
    obtain ⟨k, v⟩ := y
    unfold writeByte at h
    split at h
    · simpa using h
    · split at h
      · simp only [List.mem_cons] at h ⊢; tauto
      · simp only [List.mem_cons] at h ⊢
        rcases h with h | h
        · exact .inr (.inl h)
        · rcases ih h with h | h
          · exact .inl h
          · exact .inr (.inr h)

theorem writeByte_wf (a : Nat) (b : Byte) {m : Memory} (h : m.wf) : (writeByte a b m).wf := by
  induction m with
  | nil => simp [writeByte, Memory.wf]
  | cons y rest ih =>
    obtain ⟨k, v⟩ := y
    have hr := List.pairwise_cons.1 h
    unfold writeByte
    split
    · rename_i hlt
      refine List.pairwise_cons.2 ⟨?_, h⟩
      intro x hx
      rcases List.mem_cons.1 hx with rfl | hx
      · exact hlt
      · exact lt_trans hlt (hr.1 x hx)
    · split
      · rename_i heq; subst heq
        exact List.pairwise_cons.2 ⟨fun x hx => hr.1 x hx, hr.2⟩
      · refine List.pairwise_cons.2 ⟨?_, ih hr.2⟩
        intro x hx
        rcases mem_writeByte hx with rfl | hx
        · show k < a; omega
        · exact hr.1 x hx

theorem readByte_isSome_iff (a : Nat) (m : Memory) : (readByte a m).isSome ↔ ∃ b, (a, b) ∈ m := by
  induction m with
  | nil => simp [readByte]
  | cons y rest ih =>
    obtain ⟨k, v⟩ := y
    unfold readByte
    split
    · rename_i h; subst h; simp
    · rename_i h; simp [ih, h]

/-- Canonical regions that read alike are the same data. -/
theorem memory_ext {m m' : Memory} (h : m.wf) (h' : m'.wf) (hr : ∀ a, readByte a m = readByte a m') : m = m' := by
  have below : ∀ {k : Nat} {m : Memory}, (∀ x ∈ m, k < x.1) → ∀ a ≤ k, readByte a m = none := by
    intro k m hm a ha
    rw [← Option.not_isSome_iff_eq_none, readByte_isSome_iff]
    rintro ⟨b, hb⟩
    have := hm _ hb
    simp only at this
    omega
  induction m generalizing m' with
  | nil =>
    cases m' with
    | nil => rfl
    | cons y rest => have := hr y.1; simp [readByte] at this
  | cons x rest ih =>
    cases m' with
    | nil => have := hr x.1; simp [readByte] at this
    | cons y rest' =>
      obtain ⟨k, v⟩ := x
      obtain ⟨k', v'⟩ := y
      have hx := List.pairwise_cons.1 h
      have hy := List.pairwise_cons.1 h'
      have hk : k = k' := by
        rcases lt_trichotomy k k' with hlt | heq | hlt
        · have := hr k
          simp only [readByte, if_true, if_neg (Nat.ne_of_lt hlt)] at this
          rw [below hy.1 k hlt.le] at this
          simp at this
        · exact heq
        · have := hr k'
          simp only [readByte, if_true, if_neg (Nat.ne_of_lt hlt)] at this
          rw [below hx.1 k' hlt.le] at this
          simp at this
      subst hk
      have hv : v = v' := by have := hr k; simpa [readByte] using this
      subst hv
      rw [ih hx.2 hy.2]
      intro a
      by_cases ha : a = k
      · subst ha
        rw [below hx.1 a le_rfl, below hy.1 a le_rfl]
      · have := hr a
        simpa [readByte, ha] using this

/-! ### Words -/

theorem readByte_writeWord_other (order : ByteOrder) {a off : Nat} (h : a < off ∨ off + 4 ≤ a) (v : Word) (m : Memory) :
    readByte a (writeWord order off v m) = readByte a m := by
  unfold writeWord
  rw [readByte_writeByte_other (by omega), readByte_writeByte_other (by omega), readByte_writeByte_other (by omega),
    readByte_writeByte_other (by omega)]

theorem readByte_writeWord_same (order : ByteOrder) (off : Nat) {i : Nat} (h : i < 4) (v : Word) (m : Memory) :
    readByte (off + i) (writeWord order off v m) = some (wordByte order v i) := by
  unfold writeWord
  obtain rfl | rfl | rfl | rfl : i = 0 ∨ i = 1 ∨ i = 2 ∨ i = 3 := by omega
  · rw [readByte_writeByte_other (by omega), readByte_writeByte_other (by omega), readByte_writeByte_other (by omega),
      Nat.add_zero, readByte_writeByte_same]
  · rw [readByte_writeByte_other (by omega), readByte_writeByte_other (by omega), readByte_writeByte_same]
  · rw [readByte_writeByte_other (by omega), readByte_writeByte_same]
  · rw [readByte_writeByte_same]

theorem wordOfBytes_wordByte (order : ByteOrder) (v : Word) :
    wordOfBytes order (wordByte order v 0) (wordByte order v 1) (wordByte order v 2) (wordByte order v 3) = v := by
  cases order <;>
  · apply BitVec.eq_of_getLsbD_eq
    intro i hi
    simp only [wordOfBytes, wordByte, BitVec.getLsbD_append, BitVec.getLsbD_extractLsb']
    rcases lt_or_ge i 8 with h0 | h0
    · simp [h0]
    · rcases lt_or_ge i 16 with h1 | h1
      · simp [Nat.not_lt.2 h0, show i - 8 < 8 by omega]; congr 1; omega
      · rcases lt_or_ge i 24 with h2 | h2
        · simp [Nat.not_lt.2 h0, show ¬ i - 8 < 8 by omega, show i - 8 - 8 < 8 by omega]; congr 1; omega
        · simp [Nat.not_lt.2 h0, show ¬ i - 8 < 8 by omega, show ¬ i - 8 - 8 < 8 by omega, show i - 8 - 8 - 8 < 8 by omega]
          congr 1; omega

theorem readWord_writeWord_same (order : ByteOrder) (off : Nat) (v : Word) (m : Memory) :
    readWord order off (writeWord order off v m) = some v := by
  have h0 := readByte_writeWord_same order off (i := 0) (by omega) v m
  rw [Nat.add_zero] at h0
  simp only [readWord, h0, readByte_writeWord_same order off (i := 1) (by omega) v m,
    readByte_writeWord_same order off (i := 2) (by omega) v m, readByte_writeWord_same order off (i := 3) (by omega) v m,
    wordOfBytes_wordByte]

theorem readWord_congr (order : ByteOrder) {off : Nat} {m m' : Memory}
    (h : ∀ i < 4, readByte (off + i) m = readByte (off + i) m') : readWord order off m = readWord order off m' := by
  have h0 := h 0 (by omega)
  rw [Nat.add_zero] at h0
  simp only [readWord, h0, h 1 (by omega), h 2 (by omega), h 3 (by omega)]

theorem readWord_writeWord_other (order order' : ByteOrder) {a off : Nat} (h : a + 4 ≤ off ∨ off + 4 ≤ a) (v : Word)
    (m : Memory) : readWord order a (writeWord order' off v m) = readWord order a m :=
  readWord_congr order fun i hi => readByte_writeWord_other order' (by omega) v m

theorem writeWord_wf (order : ByteOrder) (off : Nat) (v : Word) {m : Memory} (h : m.wf) :
    (writeWord order off v m).wf :=
  writeByte_wf _ _ (writeByte_wf _ _ (writeByte_wf _ _ (writeByte_wf _ _ h)))

theorem mem_writeWord {order : ByteOrder} {off : Nat} {v : Word} {m : Memory} {x : Host.Cell}
    (h : x ∈ writeWord order off v m) : (off ≤ x.1 ∧ x.1 < off + 4) ∨ x ∈ m := by
  unfold writeWord at h
  rcases mem_writeByte h with rfl | h
  · simp
  · rcases mem_writeByte h with rfl | h
    · simp
    · rcases mem_writeByte h with rfl | h
      · simp
      · rcases mem_writeByte h with rfl | h
        · simp
        · exact .inr h

/-- A word write keeps a region inside its size. -/
theorem writeWord_inside {order : ByteOrder} {off size : Nat} {v : Word} {m : Memory} (hoff : wordInside size off)
    (h : memoryInside size m) : memoryInside size (writeWord order off v m) := by
  intro x hx
  have h2 := hoff.2
  rcases mem_writeWord hx with hx | hx
  · omega
  · exact h x hx

/-- A word write at a multiple of 4 keeps a region made of whole words. -/
theorem writeWord_whole {order : ByteOrder} {off : Nat} {v : Word} {m : Memory} (hoff : off % 4 = 0)
    (h : wholeWords m) : wholeWords (writeWord order off v m) := by
  intro a ha i hi
  by_cases hin : off ≤ a ∧ a < off + 4
  · rw [show a / 4 * 4 + i = off + i by omega, readByte_writeWord_same order off hi]
    rfl
  · rw [readByte_writeWord_other order (by omega)] at ha
    rw [readByte_writeWord_other order (by omega)]
    exact h a ha i hi

/-! ### The writes of a command -/

/-- Writes inside the region are all performed. -/
theorem memWrites_ok {c : Config} {ws : List (Nat × Word)} (h : ∀ w ∈ ws, wordInside c.regionSize w.1) (m : Memory) :
    memWrites c ws m = .ok (allWrites c.mmioByteOrder ws m) := by
  induction ws generalizing m with
  | nil => rfl
  | cons w rest ih =>
    obtain ⟨off, v⟩ := w
    have hw : wordInside c.regionSize off := h (off, v) (by simp)
    simp only [memWrites, memWrite, if_pos hw, allWrites]
    exact ih (fun w hw => h w (by simp [hw])) _

/-- Writes that were performed were inside the region. -/
theorem memWrites_inside {c : Config} {ws : List (Nat × Word)} {m m' : Memory} (h : memWrites c ws m = .ok m') :
    ∀ w ∈ ws, wordInside c.regionSize w.1 := by
  induction ws generalizing m with
  | nil => simp
  | cons w rest ih =>
    obtain ⟨off, v⟩ := w
    unfold memWrites memWrite at h
    by_cases hw : wordInside c.regionSize off
    · simp only [if_pos hw] at h
      intro w' hw'
      rcases List.mem_cons.1 hw' with rfl | hw'
      · exact hw
      · exact ih h w' hw'
    · simp [if_neg hw] at h

theorem memWrites_eq {c : Config} {ws : List (Nat × Word)} {m m' : Memory} (h : memWrites c ws m = .ok m') :
    m' = allWrites c.mmioByteOrder ws m := by
  rw [memWrites_ok (memWrites_inside h)] at h
  exact (Except.ok.inj h).symm

theorem allWrites_wf {order : ByteOrder} {ws : List (Nat × Word)} {m : Memory} (h : m.wf) :
    (allWrites order ws m).wf := by
  induction ws generalizing m with
  | nil => exact h
  | cons w rest ih => exact ih (writeWord_wf _ _ _ h)

theorem allWrites_inside {order : ByteOrder} {size : Nat} {ws : List (Nat × Word)} {m : Memory}
    (hws : ∀ w ∈ ws, wordInside size w.1) (h : memoryInside size m) : memoryInside size (allWrites order ws m) := by
  induction ws generalizing m with
  | nil => exact h
  | cons w rest ih =>
    exact ih (fun w hw => hws w (by simp [hw])) (writeWord_inside (hws w (by simp)) h)

theorem allWrites_whole {order : ByteOrder} {ws : List (Nat × Word)} {m : Memory} (hws : ∀ w ∈ ws, w.1 % 4 = 0)
    (h : wholeWords m) : wholeWords (allWrites order ws m) := by
  induction ws generalizing m with
  | nil => exact h
  | cons w rest ih => exact ih (fun w hw => hws w (by simp [hw])) (writeWord_whole (hws w (by simp)) h)

/-- A byte outside every written word is unchanged. -/
theorem readByte_allWrites_other {order : ByteOrder} {ws : List (Nat × Word)} {a : Nat}
    (h : ∀ w ∈ ws, a < w.1 ∨ w.1 + 4 ≤ a) (m : Memory) : readByte a (allWrites order ws m) = readByte a m := by
  induction ws generalizing m with
  | nil => rfl
  | cons w rest ih =>
    rw [show allWrites order (w :: rest) m = allWrites order rest (writeWord order w.1 w.2 m) from rfl,
      ih (fun w hw => h w (by simp [hw])), readByte_writeWord_other order (h w (by simp))]

/-- No two of the writes touch a common byte. -/
abbrev disjointWrites (ws : List (Nat × Word)) : Prop := ws.Pairwise (fun x y => x.1 + 4 ≤ y.1 ∨ y.1 + 4 ≤ x.1)

/-- Of disjoint writes each lands: its bytes read as the bytes of its word. -/
theorem readByte_allWrites_mem {order : ByteOrder} {ws : List (Nat × Word)} (h : disjointWrites ws) {w : Nat × Word}
    (hw : w ∈ ws) {i : Nat} (hi : i < 4) (m : Memory) :
    readByte (w.1 + i) (allWrites order ws m) = some (wordByte order w.2 i) := by
  induction ws generalizing m with
  | nil => simp at hw
  | cons x rest ih =>
    have hp := List.pairwise_cons.1 h
    rw [show allWrites order (x :: rest) m = allWrites order rest (writeWord order x.1 x.2 m) from rfl]
    rcases List.mem_cons.1 hw with rfl | hw
    · rw [readByte_allWrites_other (fun y hy => by have := hp.1 y hy; omega), readByte_writeWord_same order _ hi]
    · exact ih hp.2 hw _

theorem readWord_allWrites_mem {order : ByteOrder} {ws : List (Nat × Word)} (h : disjointWrites ws) {w : Nat × Word}
    (hw : w ∈ ws) (m : Memory) : readWord order w.1 (allWrites order ws m) = some w.2 := by
  rw [← readWord_writeWord_same order w.1 w.2 m]
  exact readWord_congr order fun i hi => by
    rw [readByte_allWrites_mem h hw hi, readByte_writeWord_same order _ hi]

end Sys2Proof.Machine
end

