-- ==== Sys2Proof/Laws/Layout.lean ====
section
/-! SUPPORT. The layouts of the technologies and the writes of a scatter (41_scatter.md R72 to R82). -/

namespace Sys2Proof.Machine

theorem lanes_eq (t : Tech) : lanes t = match t with | .bram => 32 | .uram => 32 | .ddr4 => 16 := by
  cases t <;> rfl

theorem lanes_pos (t : Tech) : 0 < lanes t := by cases t <;> decide

theorem lanes_le (t : Tech) : lanes t ≤ 32 := by cases t <;> decide

theorem periodBytes_eq (t : Tech) : periodBytes t = 4 * lanes t := rfl

/-- A slot's lane is a lane of the period (R72). -/
theorem laneOf_lt (t : Tech) {s : Nat} (h : s < lanes t) : laneOf t s < lanes t := by
  cases t <;> simp only [laneOf, ngroups, lanes, wideBits, laneBits, groupLanes] at h ⊢ <;> omega

/-- A layout applied twice is the identity (R82). -/
theorem laneOf_laneOf (t : Tech) {s : Nat} (h : s < lanes t) : laneOf t (laneOf t s) = s := by
  cases t <;> simp only [laneOf, ngroups, lanes, wideBits, laneBits, groupLanes] at h ⊢ <;> omega

/-- Two nested ascending loops are one loop over the product. -/
theorem range_flatMap_map {α : Type} (n k : Nat) (f : Nat → Nat → α) :
    ((List.range n).flatMap fun p => (List.range k).map fun s => f p s) =
      (List.range (n * k)).map fun j => f (j / k) (j % k) := by
  induction n with
  | zero => simp
  | succ n ih =>
    rw [List.range_succ, List.flatMap_append, ih, Nat.succ_mul, List.range_add, List.map_append]
    congr 1
    simp only [List.flatMap_cons, List.flatMap_nil, List.append_nil, List.map_map]
    apply List.map_congr_left
    intro s hs
    have hs := List.mem_range.1 hs
    simp only [Function.comp]
    have hk : 0 < k := by omega
    rw [Nat.mul_comm n k, Nat.mul_add_div hk, Nat.div_eq_of_lt hs, Nat.mul_add_mod, Nat.mod_eq_of_lt hs, Nat.add_zero]

/-- The word a scatter puts at word index `j` of the playback region (R77). -/
def scatterValue (t : Tech) (a : List Int) (j : Nat) : Word :=
  portWord (a.getD (j / lanes t * lanes t + laneOf t (j % lanes t)) 0)

/-- The writes of a scatter in one loop: word index `j` is at offset `4*j` (R74, R81). -/
theorem scatterWrites_eq (t : Tech) (a : List Int) :
    scatterWrites t a = (List.range (a.length / lanes t * lanes t)).map fun j => (4 * j, scatterValue t a j) := by
  unfold scatterWrites
  rw [range_flatMap_map]
  apply List.map_congr_left
  intro j _
  simp only [scatterValue, slotOffset, periodBytes, Prod.mk.injEq, and_true]
  have := Nat.div_add_mod j (lanes t)
  rw [Nat.mul_comm (j / lanes t), Nat.mul_assoc, ← Nat.mul_add, this]

theorem scatterWrites_length (t : Tech) (a : List Int) :
    (scatterWrites t a).length = a.length / lanes t * lanes t := by
  simp [scatterWrites_eq]

/-- The writes of a scatter that fits lie inside the region (R37). -/
theorem scatterWrites_inside {t : Tech} {a : List Int} {size : Nat}
    (h : a.length / lanes t * periodBytes t ≤ size) : ∀ w ∈ scatterWrites t a, wordInside size w.1 := by
  intro w hw
  rw [scatterWrites_eq] at hw
  obtain ⟨j, hj, rfl⟩ := List.mem_map.1 hw
  have hj := List.mem_range.1 hj
  rw [periodBytes_eq, ← Nat.mul_assoc, Nat.mul_comm _ 4, Nat.mul_assoc] at h
  refine ⟨?_, ?_⟩ <;> simp only <;> omega

/-- The writes of a scatter are disjoint: each offset is written once (R81). -/
theorem scatterWrites_disjoint (t : Tech) (a : List Int) : disjointWrites (scatterWrites t a) := by
  rw [scatterWrites_eq]
  refine List.Pairwise.map _ (fun x y (h : x < y) => ?_) List.pairwise_lt_range
  left
  show 4 * x + 4 ≤ 4 * y
  omega

theorem eventWrites_writeEvents (ws : List (Nat × Word)) : eventWrites (writeEvents ws) = ws := by
  induction ws with
  | nil => rfl
  | cons w rest ih =>
    have : eventWrites (writeEvents (w :: rest)) = w :: eventWrites (writeEvents rest) := rfl
    rw [this, ih]

theorem eventWrites_readEvents (offs : List Nat) : eventWrites (readEvents offs) = [] := by
  induction offs with
  | nil => rfl
  | cons off rest ih =>
    have : eventWrites (readEvents (off :: rest)) = eventWrites (readEvents rest) := rfl
    rw [this, ih]

end Sys2Proof.Machine
end

