-- ==== Sys2Proof/Laws/Capture.lean ====
section
/-! SUPPORT. Capture addressing, read pairs and the demultiplexers (42_gather.md R85 to R93). -/

namespace Sys2Proof.Machine

/-- Every capture offset of a well-formed configuration is a multiple of 4 (R37, R87). -/
theorem capOffset_aligned {c : Config} (h : configOk c) (w : Nat) : capOffset c w % 4 = 0 := by
  obtain ⟨-, -, hex, hb, hs⟩ := h
  unfold capOffset
  split
  · rename_i off ho
    exact hex off (List.mem_of_getElem? ho)
  · rw [Nat.add_mod, Nat.mul_mod, hb, hs]
    simp

/-- The range check of a gather says that every word it would read lies in the region (R87). -/
theorem wordsInside_iff (c : Config) (w k : Nat) :
    wordsInside c w k = true ↔ ∀ i < k, capOffset c (w + i) + 4 ≤ c.capRegionSize := by
  induction k generalizing w with
  | zero => simp [wordsInside]
  | succ k ih =>
    simp only [wordsInside, Bool.and_eq_true, decide_eq_true_eq, ih]
    constructor
    · rintro ⟨h0, h⟩ i hi
      rcases i with _ | i
      · simpa using h0
      · rw [show w + (i + 1) = w + 1 + i by omega]; exact h i (by omega)
    · intro h
      refine ⟨by simpa using h 0 (by omega), fun i hi => ?_⟩
      rw [show w + 1 + i = w + (i + 1) by omega]
      exact h (i + 1) (by omega)

/-- The offsets of the words a gather reads. -/
abbrev capOffsets (c : Config) (words : Nat) : List Nat := (List.range words).map (capOffset c)

theorem capOffsets_inside {c : Config} (hc : configOk c) {words : Nat} (h : wordsInside c 0 words = true) :
    ∀ off ∈ capOffsets c words, wordInside c.capRegionSize off := by
  intro off hoff
  obtain ⟨w, hw, rfl⟩ := List.mem_map.1 hoff
  have := (wordsInside_iff c 0 words).1 h w (List.mem_range.1 hw)
  rw [Nat.zero_add] at this
  exact ⟨capOffset_aligned hc w, this⟩

/-- A read pair at an offset that exists answers a value, and moves the draw index forward. -/
theorem readPair_ok {c : Config} {off : Nat} (h : wordInside c.capRegionSize off) (src : Nat) (st : Bool)
    (cm : Memory) (d : Nat) :
    ∃ v d', readPair c src st cm off d = .ok (v, d') ∧ d < d' ∧
      (st = true → ∀ w, readWord c.mmioByteOrder off cm = some w → v = w) := by
  simp only [readPair, memReadFirst, memReadSecond, if_pos h]
  cases st <;> cases hw : readWord c.mmioByteOrder off cm <;> simp

/-- Read pairs at offsets that exist answer one value each. -/
theorem readPairs_ok {c : Config} {offs : List Nat} (h : ∀ off ∈ offs, wordInside c.capRegionSize off) (src : Nat) (st : Bool)
    (cm : Memory) (d : Nat) :
    ∃ (vs : List Word) (d' : Nat), readPairs c src st cm offs d = .ok (vs, d') ∧ vs.length = offs.length ∧ d ≤ d' ∧
      (st = true → ∀ (i : Nat) (w : Word), (∃ off : Nat, offs[i]? = some off ∧ readWord c.mmioByteOrder off cm = some w) → vs[i]? = some w) := by
  induction offs generalizing d with
  | nil => exact ⟨[], d, rfl, rfl, le_rfl, by simp⟩
  | cons off rest ih =>
    obtain ⟨v, d1, h1, hd1, hv⟩ := readPair_ok (h off (by simp)) src st cm d
    obtain ⟨vs, d2, h2, hl, hd2, hvs⟩ := ih (fun o ho => h o (by simp [ho])) d1
    refine ⟨v :: vs, d2, by simp [readPairs, h1, h2], by simp [hl], by omega, ?_⟩
    rintro hst i w ⟨o, ho, hw⟩
    rcases i with _ | i
    · simp only [List.getElem?_cons_zero, Option.some.injEq] at ho
      subst ho
      simp [hv hst w hw]
    · simp only [List.getElem?_cons_succ] at ho ⊢
      exact hvs hst i w ⟨o, ho, hw⟩

/-- The lanes GATHER_REAL keeps of one word (R90): both lanes of words 0 to 3 of a block, none of words 4 to 7. -/
theorem realSamples_cons (w : Nat) (c : Word) (cs : List Word) :
    realSamples w (c :: cs) =
      (if w % 8 < 4 then [.sample (lo16 c), .sample (hi16 c)] else []) ++ realSamples (w + 1) cs := by
  have h2 : List.range 2 = [0, 1] := rfl
  simp only [realSamples, h2, List.filterMap_cons, List.filterMap_nil]
  by_cases h : w % 8 < 4
  · rw [if_pos (show (2 * w + 0) % capLanesPerBlock < realKeep by unfold capLanesPerBlock realKeep; omega),
      if_pos (show (2 * w + 1) % capLanesPerBlock < realKeep by unfold capLanesPerBlock realKeep; omega), if_pos h]
    rfl
  · rw [if_neg (show ¬ (2 * w + 0) % capLanesPerBlock < realKeep by unfold capLanesPerBlock realKeep; omega),
      if_neg (show ¬ (2 * w + 1) % capLanesPerBlock < realKeep by unfold capLanesPerBlock realKeep; omega), if_neg h]

/-- The samples GATHER_REAL has emitted before word `w` (R89). -/
def realCount (w : Nat) : Nat := 8 * (w / 8) + min (2 * (w % 8)) 8

theorem realSamples_length (w : Nat) (cs : List Word) :
    realCount w + (realSamples w cs).length = realCount (w + cs.length) := by
  induction cs generalizing w with
  | nil => simp [realSamples]
  | cons c cs ih =>
    have := ih (w + 1)
    rw [realSamples_cons, List.length_append, List.length_cons, show w + (cs.length + 1) = w + 1 + cs.length by omega,
      ← this]
    have hc : realCount (w + 1) = realCount w + if w % 8 < 4 then 2 else 0 := by
      unfold realCount; split <;> omega
    rw [hc]
    split <;> simp only [List.length_cons, List.length_nil] <;> omega

theorem iqSamples_eq (cs : List Word) :
    iqSamples cs = (List.range (cs.length / 8 * 8)).map fun j =>
      .iq (lane16 (cs.getD (8 * (j / 8) + j % 8 / 2) 0) (j % 8 % 2))
        (lane16 (cs.getD (8 * (j / 8) + 4 + j % 8 / 2) 0) (j % 8 % 2)) :=
  range_flatMap_map _ _ _

theorem iqSamples_length (cs : List Word) : (iqSamples cs).length = cs.length / 8 * 8 := by
  simp [iqSamples_eq]

end Sys2Proof.Machine
end

