-- ==== Sys2Proof/Laws/Status.lean ====
section
/-! SUPPORT. The fields of a STATUS value that a command wrote (10_state.md R18 to R24). -/

namespace Sys2Proof.Machine

variable (done wm : Bool) (err : BitVec 2) (dropped : BitVec 5) (lastOp : BitVec 8)

/-- Bit `i` of a STATUS value, by field (R18). -/
theorem getLsbD_statusWord (i : Nat) : (statusWord done wm err dropped lastOp).getLsbD i =
    if i < 1 then (BitVec.ofBool done).getLsbD i
    else if i - 1 < 2 then err.getLsbD (i - 1)
    else if i - 1 - 2 < 1 then (BitVec.ofBool wm).getLsbD (i - 1 - 2)
    else if i - 1 - 2 - 1 < 4 then false
    else if i - 1 - 2 - 1 - 4 < 5 then dropped.getLsbD (i - 1 - 2 - 1 - 4)
    else if i - 1 - 2 - 1 - 4 - 5 < 3 then false
    else if i - 1 - 2 - 1 - 4 - 5 - 3 < 8 then lastOp.getLsbD (i - 1 - 2 - 1 - 4 - 5 - 3)
    else false := by
  simp only [statusWord, BitVec.getLsbD_append, BitVec.getLsbD_zero]

@[simp] theorem statusDone_statusWord : statusDone (statusWord done wm err dropped lastOp) = done := by
  simp only [statusDone, getLsbD_statusWord]
  cases done <;> rfl

@[simp] theorem statusWm_statusWord : statusWm (statusWord done wm err dropped lastOp) = wm := by
  simp only [statusWm, getLsbD_statusWord]
  cases wm <;> rfl

@[simp] theorem statusErr_statusWord : statusErr (statusWord done wm err dropped lastOp) = err := by
  apply BitVec.eq_of_getLsbD_eq
  intro i hi
  simp only [statusErr, BitVec.getLsbD_extractLsb', getLsbD_statusWord]
  interval_cases i <;> rfl

@[simp] theorem statusDropped_statusWord : statusDropped (statusWord done wm err dropped lastOp) = dropped := by
  apply BitVec.eq_of_getLsbD_eq
  intro i hi
  simp only [statusDropped, BitVec.getLsbD_extractLsb', getLsbD_statusWord]
  interval_cases i <;> rfl

@[simp] theorem statusLastOp_statusWord : statusLastOp (statusWord done wm err dropped lastOp) = lastOp := by
  apply BitVec.eq_of_getLsbD_eq
  intro i hi
  simp only [statusLastOp, BitVec.getLsbD_extractLsb', getLsbD_statusWord]
  interval_cases i <;> rfl

@[simp] theorem statusReserved_statusWord : statusReserved (statusWord done wm err dropped lastOp) = 0 := by
  apply BitVec.eq_of_getLsbD_eq
  intro i hi
  simp only [statusReserved, BitVec.getLsbD_and, getLsbD_statusWord]
  interval_cases i <;> simp

/-- STATUS after a command without a fatal error (R27). -/
theorem endStatus_none (op : BitVec 8) (wm : Bool) (k : Nat) :
    endStatus op .none wm k = statusWord true wm 0#2 (BitVec.ofNat 5 k) op := rfl

/-- STATUS after a fatal error (R27). -/
theorem endStatus_error (op : BitVec 8) {e : ErrorKind} (he : e ≠ .none) (wm : Bool) (k : Nat) :
    endStatus op e wm k = statusWord true false (errorCode e) 0#5 op := by
  cases e
  · exact absurd rfl he
  · rfl
  · rfl

theorem errorCode_ne_zero {e : ErrorKind} (he : e ≠ .none) : errorCode e ≠ 0#2 := by
  cases e
  · exact absurd rfl he
  · decide
  · decide

theorem errorCode_ne_three (e : ErrorKind) : errorCode e ≠ 3#2 := by cases e <;> decide

theorem endCount_error {e : ErrorKind} (he : e ≠ .none) (n : Nat) : endCount e n = 0#32 := by
  cases e
  · exact absurd rfl he
  · rfl
  · rfl

/-- The STATUS a command ends with is a legal value (R18 to R24), where fewer than 32 elements were dropped and WM
says whether any was. -/
theorem statusLegal_endStatus (op : BitVec 8) (e : ErrorKind) {k : Nat} (hk : k < 32) :
    statusLegal (endStatus op e (decide (k ≠ 0)) k) := by
  by_cases he : e = .none
  · subst he
    rw [endStatus_none]
    refine ⟨by simp, by simp, ?_, by simp, by simp⟩
    simp only [statusWm_statusWord, statusDropped_statusWord, decide_eq_true_eq]
    rw [not_iff_not, ← BitVec.toNat_inj]
    simp [Nat.mod_eq_of_lt hk]
  · rw [endStatus_error op he]
    refine ⟨by simp, by simpa using errorCode_ne_three e, by simp, by simp, by simp⟩

/-- A STATUS value by its low half (R18), after a fatal error. -/
theorem endStatus_invalidArgument (op : BitVec 8) : endStatus op .invalidArgument false 0 = statusValue op 3#32 := by
  apply BitVec.eq_of_getLsbD_eq
  intro i hi
  simp only [endStatus, getLsbD_statusWord, statusValue, BitVec.getLsbD_or, BitVec.getLsbD_shiftLeft,
    BitVec.getLsbD_setWidth]
  interval_cases i <;> simp [errorCode]

theorem endStatus_rangeViolation (op : BitVec 8) : endStatus op .rangeViolation false 0 = statusValue op 5#32 := by
  apply BitVec.eq_of_getLsbD_eq
  intro i hi
  simp only [endStatus, getLsbD_statusWord, statusValue, BitVec.getLsbD_or, BitVec.getLsbD_shiftLeft,
    BitVec.getLsbD_setWidth]
  interval_cases i <;> simp [errorCode]

/-- A STATUS value by its low half (R18), after a success that dropped `k` elements. -/
theorem endStatus_success (op : BitVec 8) {k : Nat} (hk : k < 32) :
    endStatus op .none (decide (k ≠ 0)) k = statusValue op (successLow k) := by
  apply BitVec.eq_of_getLsbD_eq
  intro i hi
  by_cases h0 : k = 0
  · subst h0
    simp only [endStatus, getLsbD_statusWord, statusValue, BitVec.getLsbD_or, BitVec.getLsbD_shiftLeft,
      BitVec.getLsbD_setWidth, successLow]
    interval_cases i <;> simp [errorCode]
  · have hb : ∀ j, 5 ≤ j → k.testBit j = false := fun j hj =>
      Nat.testBit_lt_two_pow (lt_of_lt_of_le hk (Nat.pow_le_pow_right (n := 2) (by decide) hj))
    simp only [endStatus, getLsbD_statusWord, statusValue, BitVec.getLsbD_or, BitVec.getLsbD_shiftLeft,
      BitVec.getLsbD_setWidth, successLow, if_neg h0, BitVec.getLsbD_ofNat]
    interval_cases i <;> simp +decide [errorCode, h0, hb]

/-- A command that raises an error, as a state that changed nothing else (R104). -/
theorem raiseError_invalidArgument (op : BitVec 8) (s : State) :
    raiseError op .invalidArgument s = ended s (statusValue op 3#32) 0#32 [] [] := by
  simp [raiseError, finish, ended, endStatus_invalidArgument, endCount]

theorem raiseError_rangeViolation (op : BitVec 8) (s : State) :
    raiseError op .rangeViolation s = ended s (statusValue op 5#32) 0#32 [] [] := by
  simp [raiseError, finish, ended, endStatus_rangeViolation, endCount]

/-- A command that succeeds, as a state that changed nothing else (R27). -/
theorem finish_success (op : BitVec 8) {k : Nat} (hk : k < 32) (n : Nat) (out : List Element) (ev : List Event)
    (s : State) : finish op .none (decide (k ≠ 0)) k n out ev s =
      ended s (statusValue op (successLow k)) (BitVec.ofNat 32 n) out ev := by
  simp only [finish, ended, endStatus_success op hk, endCount, if_true]

end Sys2Proof.Machine
end

