-- ==== Sys2Proof/Laws/Commands.lean ====
section
/-! SUPPORT. Everything a command can do, said once: how `exec` and `runCommand` end (10_state.md R27, 60_exceptions.md
R104). -/

namespace Sys2Proof.Machine

/-- An MMIO access that exists (R30, R31, R36). -/
def eventInside (c : Config) (e : Event) : Prop :=
  match e with
  | .write off _ => wordInside c.regionSize off
  | .read off => wordInside c.capRegionSize off

/-- How a command with CMD[7:0] `op` ends: with a fatal error, or with an output stream, its accesses performed and at
most 31 elements dropped. -/
inductive CommandEnd (c : Config) (s : State) (op : BitVec 8) : State → Prop where
  | failed (e : ErrorKind) (he : e ≠ .none) : CommandEnd c s op (raiseError op e s)
  | done (k n : Nat) (out : List Element) (ev : List Event) (m : Memory) (d : Nat) (hk : k < 32)
      (hn : n = out.length + (eventWrites ev).length) (hw : memWrites c (eventWrites ev) s.playback = .ok m)
      (hev : ∀ x ∈ ev, eventInside c x) (hd : s.draws ≤ d) :
      CommandEnd c s op (finish op .none (decide (k ≠ 0)) k n out ev (withDraws d (withPlayback m s)))

theorem configured_ready {s : State} {c : Config} (h : Ready s c) (f : Config → Answer) : configured s f = f c := by
  simp only [configured, h.1, if_pos h.2]

theorem configured_next {s t : State} {f : Config → Answer} (h : configured s f = .next t) :
    ∃ c, Ready s c ∧ f c = .next t := by
  unfold configured at h
  split at h
  · simp at h
  · rename_i c hc
    split at h
    · rename_i hok
      exact ⟨c, ⟨hc, hok⟩, h⟩
    · simp at h

variable {c : Config} {s : State}

theorem codec_end (op : BitVec 8) (out : List Element) {n : Nat} (hn : n = out.length) :
    CommandEnd c s op (finish op .none false 0 n out [] s) :=
  .done 0 n out [] s.playback s.draws (by decide) (by simp [hn, eventWrites]) rfl (by simp) le_rfl

theorem packRealOut_length (a : List Int) : (packRealOut a).length = a.length / 2 := by
  induction a using packRealOut.induct with
  | case1 s0 s1 rest ih => simp only [packRealOut, List.length_cons, ih]; omega
  | case2 a h =>
    match a, h with
    | [], _ => simp [packRealOut]
    | [_], _ => simp [packRealOut]
    | x :: y :: r, h => exact absurd rfl (h x y r)

theorem packComplexOut_length {a b : List Int} (h : a.length = b.length) : (packComplexOut a b).length = a.length := by
  simp [packComplexOut, h]

theorem unpackRealOut_length (a : List Int) : (unpackRealOut a).length = 2 * a.length := by
  induction a with
  | nil => rfl
  | cons v rest ih => simp only [unpackRealOut, List.flatMap_cons, List.length_append, List.length_cons, List.length_nil] at *; omega

theorem scatter_end (hr : Ready s c) (op : BitVec 8) (t : Tech) (a : List Int) :
    ∃ u, scatter op t a s = .next u ∧ CommandEnd c s op u := by
  unfold scatter
  rw [configured_ready hr]
  split
  · exact ⟨_, rfl, .failed _ (by decide)⟩
  · split
    · exact ⟨_, rfl, .failed _ (by decide)⟩
    · split
      · exact ⟨_, rfl, .failed _ (by decide)⟩
      · rename_i hfit
        have hin := scatterWrites_inside (t := t) (a := a) (Nat.le_of_not_lt hfit)
        rw [memWrites_ok hin]
        refine ⟨_, rfl, .done (d := s.draws) _ _ _ _ _ ?_ ?_ ?_ ?_ le_rfl⟩
        · exact lt_of_lt_of_le (Nat.mod_lt _ (lanes_pos t)) (lanes_le t)
        · rw [eventWrites_writeEvents, scatterWrites_length]; simp
        · rw [eventWrites_writeEvents, memWrites_ok hin]
        · intro x hx
          obtain ⟨w, hw, rfl⟩ := List.mem_map.1 hx
          exact hin w hw

theorem readEvents_inside {offs : List Nat} (h : ∀ off ∈ offs, wordInside c.capRegionSize off) :
    ∀ x ∈ readEvents offs, eventInside c x := by
  intro x hx
  obtain ⟨off, hoff, hx⟩ := List.mem_flatMap.1 hx
  have : x = .read off := by simpa using hx
  subst this
  exact h off hoff

theorem gather_end (hr : Ready s c) (op : BitVec 8) (words : Nat) {k : Nat} (hk : k < 32) (demux : List Word → List Element) :
    ∃ u, gather op words k demux c s = .next u ∧ CommandEnd c s op u := by
  unfold gather
  split
  · exact ⟨_, rfl, .failed _ (by decide)⟩
  · rename_i h
    have hin := capOffsets_inside hr.2 (by simpa using h : wordsInside c 0 words = true)
    obtain ⟨cs, d, hcs, -, hd, -⟩ := readPairs_ok hin s.source (settled c s) s.capture s.draws
    rw [hcs]
    refine ⟨_, rfl, .done k _ _ _ s.playback d hk ?_ ?_ (readEvents_inside hin) hd⟩
    · rw [eventWrites_readEvents]; rfl
    · rw [eventWrites_readEvents]; rfl

/-- In a machine whose configuration is fixed, every command completes, in one of the ways of `CommandEnd`. -/
theorem exec_end (hr : Ready s c) (i : Instr) : ∃ t, exec i s = .next t ∧ CommandEnd c s (opcodeOf i) t := by
  cases i with
  | packComplex a b =>
    simp only [exec, execPackComplex, configured_ready hr, opcodeOf]
    split
    · exact ⟨_, rfl, .failed _ (by decide)⟩
    · rename_i h
      exact ⟨_, rfl, codec_end _ _ (packComplexOut_length (not_not.1 h)).symm⟩
  | packReal a =>
    simp only [exec, execPackReal, configured_ready hr, opcodeOf]
    split
    · exact ⟨_, rfl, .failed _ (by decide)⟩
    · exact ⟨_, rfl, codec_end _ _ (packRealOut_length a).symm⟩
  | unpackReal a =>
    simp only [exec, execUnpackReal, configured_ready hr, opcodeOf]
    exact ⟨_, rfl, codec_end _ _ (unpackRealOut_length a).symm⟩
  | scatterBram a => exact scatter_end hr _ _ a
  | scatterUram a => exact scatter_end hr _ _ a
  | scatterDdr4 a => exact scatter_end hr _ _ a
  | gatherReal n =>
    simp only [exec, execGatherReal, configured_ready hr, opcodeOf]
    split
    · exact ⟨_, rfl, .failed _ (by decide)⟩
    · exact gather_end hr _ _ (by decide) _
  | gatherIq n =>
    simp only [exec, execGatherIq, configured_ready hr, opcodeOf]
    split
    · exact ⟨_, rfl, .failed _ (by decide)⟩
    · exact gather_end hr _ _ (by simp only [capBlock]; omega) _

/-- A command answers a next state only in a machine whose configuration is fixed (R116). -/
theorem exec_ready {i : Instr} {t : State} (h : exec i s = .next t) : ∃ c, Ready s c := by
  cases i <;> obtain ⟨c, hc, -⟩ := configured_next h <;> exact ⟨c, hc⟩

/-- The opcode of a decoded descriptor is its CMD[7:0] (R51, R55). -/
theorem opcodeOf_decode {maxLen : Nat} {d : Descriptor} {i : Instr} (h : decode maxLen d = .ok i) :
    opcodeOf i = cmdOp d.cmd := by
  unfold decode at h
  split_ifs at h
  unfold dispatchOp at h
  split_ifs at h with h1 h2 h3 h4 h5 h6 h7 h8 <;> cases h <;> simp only [opcodeOf, *]

/-- In a machine whose configuration is fixed, every descriptor completes (R55, R104). -/
theorem runCommand_end (hr : Ready s c) (d : Descriptor) :
    ∃ t, runCommand d s = .next t ∧ CommandEnd c s (cmdOp d.cmd) t := by
  unfold runCommand
  rw [configured_ready hr]
  cases h : decode c.maxStreamLen d with
  | error e => exact ⟨_, rfl, .failed _ (by decide)⟩
  | ok i => rw [← opcodeOf_decode h]; exact exec_end hr i

theorem runCommand_next {d : Descriptor} {t : State} (h : runCommand d s = .next t) :
    ∃ c, Ready s c ∧ CommandEnd c s (cmdOp d.cmd) t := by
  obtain ⟨c, hr, -⟩ := configured_next h
  obtain ⟨t', h', he⟩ := runCommand_end hr d
  rw [h] at h'
  cases h'
  exact ⟨c, hr, he⟩

/-! ### What every end of a command has in common -/

/-- A command leaves the capture region, the configuration, the parts of SETTLED and the inputs. -/
theorem commandEnd_environment {op : BitVec 8} {t : State} (h : CommandEnd c s op t) : environmentKept s t := by
  cases h <;> simp [raiseError, environmentKept]

/-- A command adds one response, which carries STATUS and COUNT. -/
theorem commandEnd_response {op : BitVec 8} {t : State} (h : CommandEnd c s op t) :
    ∃ r, t.outbox = s.outbox ++ [.response r] ∧ r.status = t.status ∧ r.count = t.count := by
  cases h with
  | failed e he => exact ⟨_, rfl, rfl, rfl⟩
  | done k n out ev m d hk hn hw hev hd => exact ⟨_, rfl, rfl, rfl⟩

/-- The playback region after a command is the one before it with the writes of its response performed (R44). -/
theorem commandEnd_writes {op : BitVec 8} {t : State} (h : CommandEnd c s op t) :
    memWrites c (lastWrites t) s.playback = .ok t.playback := by
  cases h with
  | failed e he => simp [lastWrites, raiseError, eventWrites, memWrites]
  | done k n out ev m d hk hn hw hev hd => simpa [lastWrites] using hw

end Sys2Proof.Machine
end

