-- ==== Sys2Proof/Laws/Operands.lean ====
section
/-! SUPPORT. The integer view of a sample (40_codec.md R65). -/

namespace Sys2Proof.Machine

/-- A widened sample stands for the same integer, at every width that holds the pattern (R65). -/
theorem sampleExtended_value {n : Nat} (h : 16 ≤ n) (x : Sample16) : (sampleExtended n x).toInt = sampleValue x :=
  BitVec.toInt_signExtend_of_le h

end Sys2Proof.Machine
end

