-- ==== Sys2Proof/Laws/PerInstr.lean ====
section
/-! SUPPORT. The command word of every command, constructor by constructor (30_encoding.md R50, R51, R54). -/

namespace Sys2Proof.Laws

/-- The command word of an instruction's descriptor has reserved bits 0 and a legal opcode, the instruction's own
(R50, R51); ARG0 is 0 unless the opcode is a gather's, and a gather carries no stream (R54). -/
def CommandWord.Statement (i : Instr) : Prop :=
  cmdRsv (encode i).cmd = 0 ∧ cmdOp (encode i).cmd = opcodeOf i ∧ opcodeOf i ∈ legalOpcodes ∧
    (opcodeOf i ∉ gatherOpcodes → (encode i).arg0 = 0) ∧
    (opcodeOf i ∈ gatherOpcodes → (encode i).a = [] ∧ (encode i).b = [])

theorem CommandWord.packComplex (a b : List Int) : CommandWord.Statement (.packComplex a b) :=
  ⟨(by decide : cmdRsv (cmdWord opPackComplex) = 0), (by decide : cmdOp (cmdWord opPackComplex) = opPackComplex),
    (by decide : opPackComplex ∈ legalOpcodes), fun _ => rfl,
    fun h => absurd h (by decide : opPackComplex ∉ gatherOpcodes)⟩

theorem CommandWord.packReal (a : List Int) : CommandWord.Statement (.packReal a) :=
  ⟨(by decide : cmdRsv (cmdWord opPackReal) = 0), (by decide : cmdOp (cmdWord opPackReal) = opPackReal),
    (by decide : opPackReal ∈ legalOpcodes), fun _ => rfl, fun h => absurd h (by decide : opPackReal ∉ gatherOpcodes)⟩

theorem CommandWord.unpackReal (a : List Int) : CommandWord.Statement (.unpackReal a) :=
  ⟨(by decide : cmdRsv (cmdWord opUnpackReal) = 0), (by decide : cmdOp (cmdWord opUnpackReal) = opUnpackReal),
    (by decide : opUnpackReal ∈ legalOpcodes), fun _ => rfl,
    fun h => absurd h (by decide : opUnpackReal ∉ gatherOpcodes)⟩

theorem CommandWord.scatterBram (a : List Int) : CommandWord.Statement (.scatterBram a) :=
  ⟨(by decide : cmdRsv (cmdWord opScatterBram) = 0), (by decide : cmdOp (cmdWord opScatterBram) = opScatterBram),
    (by decide : opScatterBram ∈ legalOpcodes), fun _ => rfl,
    fun h => absurd h (by decide : opScatterBram ∉ gatherOpcodes)⟩

theorem CommandWord.scatterUram (a : List Int) : CommandWord.Statement (.scatterUram a) :=
  ⟨(by decide : cmdRsv (cmdWord opScatterUram) = 0), (by decide : cmdOp (cmdWord opScatterUram) = opScatterUram),
    (by decide : opScatterUram ∈ legalOpcodes), fun _ => rfl,
    fun h => absurd h (by decide : opScatterUram ∉ gatherOpcodes)⟩

theorem CommandWord.scatterDdr4 (a : List Int) : CommandWord.Statement (.scatterDdr4 a) :=
  ⟨(by decide : cmdRsv (cmdWord opScatterDdr4) = 0), (by decide : cmdOp (cmdWord opScatterDdr4) = opScatterDdr4),
    (by decide : opScatterDdr4 ∈ legalOpcodes), fun _ => rfl,
    fun h => absurd h (by decide : opScatterDdr4 ∉ gatherOpcodes)⟩

theorem CommandWord.gatherReal (n : Word) : CommandWord.Statement (.gatherReal n) :=
  ⟨(by decide : cmdRsv (cmdWord opGatherReal) = 0), (by decide : cmdOp (cmdWord opGatherReal) = opGatherReal),
    (by decide : opGatherReal ∈ legalOpcodes), fun h => absurd (by decide : opGatherReal ∈ gatherOpcodes) h,
    fun _ => ⟨rfl, rfl⟩⟩

theorem CommandWord.gatherIq (n : Word) : CommandWord.Statement (.gatherIq n) :=
  ⟨(by decide : cmdRsv (cmdWord opGatherIq) = 0), (by decide : cmdOp (cmdWord opGatherIq) = opGatherIq),
    (by decide : opGatherIq ∈ legalOpcodes), fun h => absurd (by decide : opGatherIq ∈ gatherOpcodes) h,
    fun _ => ⟨rfl, rfl⟩⟩

end Sys2Proof.Laws
end

