-- ==== Sys2Proof/Laws/System.lean ====
section
/-! SUPPORT. What sharing a region does (60_exceptions.md R111): the bytes an instance takes over, and what it keeps. -/

namespace Sys2Proof.Machine

/-- Everything sharing a region does to a byte: at an address of both regions the other's byte, where it is known, and
elsewhere the byte from before. -/
theorem readByte_mirrorBytes (base size base' size' x : Nat) {src : Memory} (h : src.wf) (dst : Memory) :
    readByte x (mirrorBytes base size base' size' src dst) =
      if x < size' ∧ base ≤ base' + x ∧ base' + x < base + size then
        (readByte (base' + x - base) src).or (readByte x dst)
      else readByte x dst := by
  induction src generalizing dst with
  | nil => simp [mirrorBytes, readByte]
  | cons y rest ih =>
    obtain ⟨a, b⟩ := y
    have hr := List.pairwise_cons.1 h
    have hnone : readByte a rest = none := by
      rw [← Option.not_isSome_iff_eq_none, readByte_isSome_iff]
      rintro ⟨b', hb⟩
      exact absurd (hr.1 (a, b') hb) (lt_irrefl a)
    rw [mirrorBytes, ih hr.2]
    by_cases hin : x < size' ∧ base ≤ base' + x ∧ base' + x < base + size
    · rw [if_pos hin, if_pos hin]
      by_cases hx : base' + x - base = a
      · have hxa : base + a - base' = x := by omega
        rw [if_pos (by omega), hx, hnone, hxa, readByte_writeByte_same]
        simp [readByte]
      · have hkeep : readByte x (if a < size ∧ base' ≤ base + a ∧ base + a < base' + size' then
            writeByte (base + a - base') b dst else dst) = readByte x dst := by
          split
          · exact readByte_writeByte_other (by omega) _ _
          · rfl
        rw [hkeep, readByte, if_neg hx]
    · rw [if_neg hin, if_neg hin]
      split
      · exact readByte_writeByte_other (by omega) _ _
      · rfl

theorem mirrorBytes_wf (base size base' size' : Nat) (src : Memory) {dst : Memory} (h : dst.wf) :
    (mirrorBytes base size base' size' src dst).wf := by
  induction src generalizing dst with
  | nil => exact h
  | cons y rest ih =>
    rw [mirrorBytes]
    apply ih
    split
    · exact writeByte_wf _ _ h
    · exact h

theorem mirrorBytes_inside (base size base' size' : Nat) (src : Memory) {dst : Memory} (h : memoryInside size' dst) :
    memoryInside size' (mirrorBytes base size base' size' src dst) := by
  induction src generalizing dst with
  | nil => exact h
  | cons y rest ih =>
    rw [mirrorBytes]
    apply ih
    split
    · intro x hx
      rcases mem_writeByte hx with rfl | hx
      · simp only; omega
      · exact h x hx
    · exact h

/-- Sharing changes the regions and nothing else. -/
theorem shareRegions_eq (s t : State) :
    shareRegions s t = { t with playback := (shareRegions s t).playback, capture := (shareRegions s t).capture } := by
  unfold shareRegions
  split <;> rfl

/-- Against no capture read a pass reads its capture region as it is. -/
@[simp] theorem contendedCapture_nil (s t : State) : contendedCapture [] s t = s.capture := by
  unfold contendedCapture
  split <;> rfl

/-- A system whose instances are all right after reset. -/
theorem systemInv_reset (n : Nat) : SystemInv (List.replicate n State.reset) := by
  refine ⟨fun s hs => ?_, fun j k s t _ hj _ c c' hc _ => ?_⟩
  · rw [List.eq_of_mem_replicate hs]
    exact ⟨List.Pairwise.nil, List.Pairwise.nil, fun _ => ⟨rfl, rfl⟩⟩
  · rw [List.eq_of_mem_replicate (List.mem_of_getElem? hj)] at hc
    cases hc

end Sys2Proof.Machine
end

