-- ==== Sys2Proof/Tests/Slice0.lean ====
section
/-! SUPPORT. Tests: the spec's vectors (95_test_vectors.md), well-formedness, decoding, and for each statement a state
and operands that meet its hypotheses. -/

namespace Sys2Proof.Tests

open Sys2Proof.Machine

/-! ### Small states -/

/-- A configuration with these region parameters, a stream limit of 64 and a settle delay of 3. -/
def small (tech : Tech) (size capSize : Nat) : Config :=
  { bringUpConfig with regionTech := tech, regionSize := size, capRegionSize := capSize, maxStreamLen := 64,
                       settleDelay := 3, mmioByteOrder := .big }

/-- The machine after reset with this configuration fixed. -/
def machine (c : Config) : State := { State.reset with config := some c }

/-- A machine whose capture has settled and holds these words from offset 0. -/
def captured (c : Config) (ws : List Word) : State :=
  { machine c with armed := true, elapsed := 3,
                   capture := (List.range ws.length).foldl
                     (fun m i => writeWord c.mmioByteOrder (4 * i) (ws.getD i 0) m) [] }

/-- The state an answer leads to. -/
def nextState (x : Answer) : Option State :=
  match x with
  | .next s => some s
  | .fault _ => none
  | .refused _ => none

/-- The refusal an answer gives. -/
def refusalOf (x : Answer) : Option Refusal :=
  match x with
  | .next _ => none
  | .fault _ => none
  | .refused r => some r

/-- The response an answer delivers. -/
def responseOf (x : Answer) : Option Response := (nextState x).bind lastResponse

/-- STATUS and COUNT of the response of an answer. -/
def statusCount (x : Answer) : Option (Word × Word) := (responseOf x).map fun r => (r.status, r.count)

/-- The output stream of the response of an answer. -/
def outOf (x : Answer) : Option (List Element) := (responseOf x).map Response.out

/-- The events of the response of an answer. -/
def eventsOf (x : Answer) : Option (List Event) := (responseOf x).map Response.events

/-- The samples of an output stream as integers. -/
def samplesOf (x : Answer) : Option (List Int) := (outOf x).map sampleStream

/-- The integers from 0 up to but not including `n`. -/
def upTo (n : Nat) : List Int := (List.range n).map Int.ofNat

/-- A descriptor of a command word alone. -/
def bare (cmd : Word) : Descriptor := { cmd := cmd, arg0 := 0, a := [], b := [] }

theorem ready_bram : Ready (machine (small .bram 128 32)) (small .bram 128 32) := ⟨rfl, by decide⟩

theorem ready_uram : Ready (machine (small .uram 128 32)) (small .uram 128 32) := ⟨rfl, by decide⟩

theorem ready_ddr4 : Ready (machine (small .ddr4 64 32)) (small .ddr4 64 32) := ⟨rfl, by decide⟩

/-! ### Well-formedness: one ill-formed term per check, refused -/

theorem test_packComplex_a_too_long : ¬ (Instr.packComplex [1, 2, 3] []).WellFormed 2 := by decide
theorem test_packComplex_b_too_long : ¬ (Instr.packComplex [] [1, 2, 3]).WellFormed 2 := by decide
theorem test_packReal_too_long : ¬ (Instr.packReal [1, 2, 3]).WellFormed 2 := by decide
theorem test_unpackReal_too_long : ¬ (Instr.unpackReal [1, 2, 3]).WellFormed 2 := by decide
theorem test_scatterBram_too_long : ¬ (Instr.scatterBram [1, 2, 3]).WellFormed 2 := by decide
theorem test_scatterUram_too_long : ¬ (Instr.scatterUram [1, 2, 3]).WellFormed 2 := by decide
theorem test_scatterDdr4_too_long : ¬ (Instr.scatterDdr4 [1, 2, 3]).WellFormed 2 := by decide
theorem test_limit_itself_is_well_formed : (Instr.packReal [1, 2]).WellFormed 2 := by decide
theorem test_gather_always_well_formed : (Instr.gatherIq 0xFFFFFFFF#32).WellFormed 0 := by decide

/-! ### Decoding: words written out from R50 and R51 -/

theorem test_decode_packComplex : decode 64 { cmd := 0b00000000000000000000000000000001#32, arg0 := 0, a := [1], b := [2] } =
    .ok (.packComplex [1] [2]) := by decide
theorem test_decode_packReal : decode 64 { cmd := 0b00000000000000000000000000000010#32, arg0 := 0, a := [1, 2], b := [] } =
    .ok (.packReal [1, 2]) := by decide
theorem test_decode_unpackReal : decode 64 { cmd := 0b00000000000000000000000000000011#32, arg0 := 0, a := [-1], b := [] } =
    .ok (.unpackReal [-1]) := by decide
theorem test_decode_scatterBram : decode 64 { cmd := 0b00000000000000000000000000010000#32, arg0 := 0, a := [9], b := [] } =
    .ok (.scatterBram [9]) := by decide
theorem test_decode_scatterUram : decode 64 { cmd := 0b00000000000000000000000000010001#32, arg0 := 0, a := [9], b := [] } =
    .ok (.scatterUram [9]) := by decide
theorem test_decode_scatterDdr4 : decode 64 { cmd := 0b00000000000000000000000000010010#32, arg0 := 0, a := [9], b := [] } =
    .ok (.scatterDdr4 [9]) := by decide
theorem test_decode_gatherReal : decode 64 { cmd := 0b00000000000000000000000000100000#32, arg0 := 0xFFFFFFFF#32, a := [], b := [] } =
    .ok (.gatherReal 0xFFFFFFFF#32) := by decide
theorem test_decode_gatherIq : decode 64 { cmd := 0b00000000000000000000000000100001#32, arg0 := 12#32, a := [], b := [] } =
    .ok (.gatherIq 12#32) := by decide

/-- R55: each check, and the first that fails is the one reported. -/
theorem test_decode_checks :
    decode 2 { cmd := 0x00000104#32, arg0 := 1, a := [1], b := [2] } = .error .reservedBits ∧
    decode 2 { cmd := 0x00000004#32, arg0 := 1, a := [1], b := [2] } = .error .reservedOpcode ∧
    decode 2 { cmd := 0x00000002#32, arg0 := 1, a := [1, 2, 3], b := [2] } = .error .nonzeroArg0 ∧
    decode 2 { cmd := 0x00000020#32, arg0 := 8, a := [1], b := [2] } = .error .streamAInGather ∧
    decode 2 { cmd := 0x00000003#32, arg0 := 0, a := [1, 2, 3], b := [2] } = .error .streamBNotAllowed ∧
    decode 2 { cmd := 0x00000001#32, arg0 := 0, a := [1, 2, 3], b := [] } = .error .streamTooLong ∧
    decode 2 { cmd := 0x00000001#32, arg0 := 0, a := [], b := [1, 2, 3] } = .error .streamTooLong := by decide

/-- 95_test_vectors.md 2.1: STATUS and COUNT of descriptors that decode turns away. -/
theorem test_decode_error_status :
    statusCount (runCommand (bare 0x00000004#32) (machine (small .bram 128 32))) = some (0x00040003#32, 0#32) ∧
    statusCount (runCommand (bare 0x00000000#32) (machine (small .bram 128 32))) = some (0x00000003#32, 0#32) ∧
    statusCount (runCommand (bare 0x000000FF#32) (machine (small .bram 128 32))) = some (0x00FF0003#32, 0#32) ∧
    statusCount (runCommand { cmd := 0x00000101#32, arg0 := 0, a := [1], b := [] } (machine (small .bram 128 32))) =
      some (0x00010003#32, 0#32) := by decide

/-- 95_test_vectors.md program 1: the image of `PACK_REAL [-2, 5, 100, -100]`. -/
theorem test_image_packReal : imageOf (encode (.packReal [-2, 5, 100, -100])) =
    [0x00000002#32, 0x00000000#32, 0x00000004#32, 0x00000000#32, 0x0000FFFE#32, 0x00000005#32, 0x00000064#32,
      0x0000FF9C#32] := by decide

theorem test_image_refused : decodeImage 64 [0x00000002#32, 0#32, 2#32] = .error .imageTooShort ∧
    decodeImage 64 [0x00000002#32, 0#32, 2#32, 0#32, 1#32] = .error .imageLengthMismatch := by decide

theorem test_assembler_refuses :
    assembleLine [] "PACK_REAL [1, 2".toList = .error .badOperands ∧
    assembleLine [] "NOP".toList = .error .unknownMnemonic ∧
    assembleLine [] "PACK_REAL @w".toList = .error .unboundName ∧
    assembleLine [] "GATHER_IQ 4294967296".toList = .error .numberOutOfRange ∧
    assembleLine [] "  ; a comment".toList = .ok none := by decide

/-! ### Instructions: the vectors of 95_test_vectors.md section 2 -/

theorem test_packComplex : outOf (exec (.packComplex [1, -1, 74565] [2, 0, -65537]) (machine (small .bram 128 32))) =
    some [.dcWord 0x00010002#32, .dcWord 0xFFFF0000#32, .dcWord 0x2345FFFF#32] := by decide

theorem test_packComplex_lengths_differ : statusCount (exec (.packComplex [1, 2] [3]) (machine (small .bram 128 32))) =
    some (0x00010003#32, 0#32) := by decide

theorem test_packReal : outOf (exec (.packReal [32767, -32768, 0, 1, -2, 5]) (machine (small .bram 128 32))) =
    some [.dcWord 0x80007FFF#32, .dcWord 0x00010000#32, .dcWord 0x0005FFFE#32] := by decide

theorem test_packReal_odd : statusCount (exec (.packReal [1, 2, 3]) (machine (small .bram 128 32))) =
    some (0x00020003#32, 0#32) := by decide

theorem test_unpackReal : samplesOf (exec (.unpackReal [0x7FFF0001, 0x80000000, -1, 0xFFFF8000]) (machine (small .bram 128 32))) =
    some [1, 32767, 0, -32768, -1, -1, -32768, -1] := by decide

theorem test_unpackReal_count : statusCount (exec (.unpackReal [0x00020001]) (machine (small .bram 128 32))) =
    some (0x00030001#32, 2#32) := by decide

theorem test_scatterBram_33_words : statusCount (exec (.scatterBram (upTo 33)) (machine (small .bram 128 32))) =
    some (0x00100109#32, 32#32) := by decide

theorem test_scatterBram_writes : (eventsOf (exec (.scatterBram (upTo 33)) (machine (small .bram 128 32)))).map
      (fun es => (es.length, es[0]?, es[8]?, es[24]?, es[31]?)) =
    some (32, some (.write 0x00 24#32), some (.write 0x20 16#32), some (.write 0x60 0#32), some (.write 0x7C 7#32)) := by
  decide

theorem test_scatterUram : (eventsOf (exec (.scatterUram (upTo 32)) (machine (small .uram 128 32)))).map
      (fun es => (es[0]?, es[31]?)) = some (some (.write 0x00 24#32), some (.write 0x7C 7#32)) := by decide

theorem test_scatterUram_other_region : statusCount (exec (.scatterUram (upTo 32)) (machine (small .bram 128 32))) =
    some (0x00110003#32, 0#32) := by decide

theorem test_scatterDdr4 : eventsOf (exec (.scatterDdr4 (upTo 17)) (machine (small .ddr4 64 32))) =
    some [.write 0x00 8#32, .write 0x04 9#32, .write 0x08 10#32, .write 0x0C 11#32, .write 0x10 12#32, .write 0x14 13#32,
      .write 0x18 14#32, .write 0x1C 15#32, .write 0x20 0#32, .write 0x24 1#32, .write 0x28 2#32, .write 0x2C 3#32,
      .write 0x30 4#32, .write 0x34 5#32, .write 0x38 6#32, .write 0x3C 7#32] := by decide

theorem test_scatterDdr4_status : statusCount (exec (.scatterDdr4 (upTo 17)) (machine (small .ddr4 64 32))) =
    some (0x00120109#32, 16#32) := by decide

/-- R103: InvalidArgument before RangeViolation before WidthMismatch. -/
theorem test_priority :
    statusCount (exec (.scatterBram (upTo 32)) (machine (small .ddr4 64 32))) = some (0x00100003#32, 0#32) ∧
    statusCount (exec (.scatterBram (upTo 33)) (machine (small .bram 64 32))) = some (0x00100005#32, 0#32) ∧
    statusCount (exec (.scatterBram (upTo 5)) (machine (small .bram 0 32))) = some (0x00100509#32, 0#32) ∧
    statusCount (exec (.gatherIq 12) (machine (small .bram 0 16))) = some (0x00210005#32, 0#32) ∧
    statusCount (exec (.gatherIq 7) (machine (small .bram 0 16))) = some (0x00210709#32, 0#32) := by decide

/-- The capture words of the sign vectors of 95_test_vectors.md 2.6. -/
def signWords : List Word := [0x8000FFFF#32, 0x7FFF0001#32, 0#32, 0#32, 0x12345678#32, 0#32, 0#32, 0xFFFF0000#32]

theorem test_gatherReal : samplesOf (exec (.gatherReal 8) (captured (small .bram 0 32) signWords)) =
    some [-1, -32768, 1, 32767, 0, 0, 0, 0] := by decide

theorem test_gatherReal_five_words : (responseOf (exec (.gatherReal 5) (captured (small .bram 0 32) signWords))).map
      (fun r => (r.status, r.count, r.events)) =
    some (0x00200001#32, 8#32, [.read 0x00, .read 0x00, .read 0x04, .read 0x04, .read 0x08, .read 0x08, .read 0x0C,
      .read 0x0C, .read 0x10, .read 0x10]) := by decide

theorem test_gatherIq : outOf (exec (.gatherIq 12) (captured (small .bram 0 32) signWords)) =
    some [.iq 0xFFFF#16 0x5678#16, .iq 0x8000#16 0x1234#16, .iq 1#16 0#16, .iq 0x7FFF#16 0#16, .iq 0#16 0#16,
      .iq 0#16 0#16, .iq 0#16 0#16, .iq 0#16 0xFFFF#16] := by decide

theorem test_gatherIq_status : statusCount (exec (.gatherIq 12) (captured (small .bram 0 32) signWords)) =
    some (0x00210409#32, 8#32) := by decide

/-- R65: a pattern widened to fewer and to more than 32 bits. -/
theorem test_sampleExtended : sampleExtended 20 0x8000#16 = 0xF8000#20 ∧ sampleExtended 64 0xFFFE#16 = 0xFFFFFFFFFFFFFFFE#64 := by
  decide

/-! ### Other agents and several instances -/

/-- R111: what one instance's region takes, an instance whose region begins 64 bytes higher sees 64 bytes lower. -/
theorem test_shared_word :
    (match systemStep 0 [{ machine { small .bram 128 32 with regionBase := 0 } with inbox := [.writePlayback 68 9#32] },
        machine { small .bram 128 32 with regionBase := 64 }] with
      | .next sys => (sys.map fun s => (readWord .big 68 s.playback, readWord .big 4 s.playback))
      | .fault _ => []
      | .refused _ => []) = [(some 9#32, none), (none, some 9#32)] := by decide

/-- The samples that the first of two instances delivers where their commands overlap; both see one settled capture. -/
def overlapSamples (d e : Descriptor) : Option (List Int) :=
  match overlapStep 0 1 [{ captured (small .bram 0 32) signWords with inbox := [.command d] },
      { captured (small .bram 0 32) signWords with inbox := [.command e] }] with
  | .next sys => sys[0]?.bind fun s => (lastResponse s).map fun r => sampleStream r.out
  | .fault _ => none
  | .refused _ => none

/-- R104, R97: a gather that fails, and a GATHER_IQ of no whole block, is no pass: the other instance's settled reads stand. -/
theorem test_overlap_no_pass :
    overlapSamples (encode (.gatherReal 1#32)) { cmd := 0x00000120#32, arg0 := 4#32, a := [], b := [] } = some [-1, -32768] ∧
    overlapSamples (encode (.gatherReal 1#32)) (encode (.gatherReal 0#32)) = some [-1, -32768] ∧
    overlapSamples (encode (.gatherReal 1#32)) (encode (.gatherIq 7#32)) = some [-1, -32768] := by decide

/-- R46: against a gather of the same words the capture is not seen. -/
theorem test_overlap_pass :
    contendedCapture [4] (captured (small .bram 0 32) signWords) (captured (small .bram 0 32) signWords) = [] := by decide

/-! ### Placing an instruction -/

theorem test_placed_runs_after_reset :
    statusCount (step (State.reset.withFetchWord 32 0x00000001)) = some (0x00010001#32, 0#32) ∧
    statusCount (step (State.reset.withFetchWord 32 0x00000021)) = some (0x00210003#32, 0#32) := by decide

/-! ### Witnesses: for each statement with hypotheses, a state and operands that meet them all -/

/-- The descriptor of a command. -/
def valid : Descriptor := encode (.scatterBram (upTo 32))

/-- A descriptor with a reserved opcode. -/
def invalid : Descriptor := bare 0x000000FF#32

/-- The machine of `small .bram 128 32` with these inputs waiting. -/
def waiting (xs : List Input) : State := { machine (small .bram 128 32) with inbox := xs }

/-- A machine whose playback region of 8 bytes holds 7 at offset 0 and 8 at offset 4. -/
def written : State :=
  { machine (small .bram 128 32) with
    playback := writeWord .big 4 8#32 (writeWord .big 0 7#32 []) }

theorem ready_captured : Ready (captured (small .bram 0 32) signWords) (small .bram 0 32) := ⟨rfl, by decide⟩

theorem ready_written : Ready written (small .bram 128 32) := ⟨rfl, by decide⟩

theorem witness_DecodeEncodeRoundTrip : (Instr.packComplex [1] [2, 3]).WellFormed 2 ∧
    (Instr.gatherReal 0#32).WellFormed 0 := by decide

theorem witness_DecodeAcceptsOnlyEncodings : decode 2 { cmd := 0x00000001#32, arg0 := 0, a := [1, 2], b := [3] } =
    .ok (.packComplex [1, 2] [3]) := by decide

/-- Ready, and each of the seven conditions alone; none of them at the stream limit of 64. -/
theorem witness_DescriptorDispatchesOrRaises : Ready (machine (small .bram 128 32)) (small .bram 128 32) ∧
    cmdRsv 0x00000101#32 ≠ 0 ∧ cmdOp 0x000000FF#32 ∉ legalOpcodes ∧
    decode 64 { cmd := 0x00000002#32, arg0 := 1#32, a := [], b := [] } = .error .nonzeroArg0 ∧
    decode 64 { cmd := 0x00000021#32, arg0 := 1#32, a := [0], b := [] } = .error .streamAInGather ∧
    decode 64 { cmd := 0x00000003#32, arg0 := 0#32, a := [], b := [0] } = .error .streamBNotAllowed ∧
    decode 64 { cmd := 0x00000001#32, arg0 := 0#32, a := upTo 65, b := [] } = .error .streamTooLong ∧
    decode 64 { cmd := 0x00000001#32, arg0 := 0#32, a := [], b := upTo 65 } = .error .streamTooLong ∧
    decode 64 { cmd := 0x00000001#32, arg0 := 0#32, a := upTo 64, b := upTo 64 } =
      .ok (.packComplex (upTo 64) (upTo 64)) := ⟨ready_bram, by decide⟩

theorem witness_ImageKeepsPortValues : (2 ^ 32 - 1 < 2 ^ 32) ∧ (Instr.packReal [-1, 65536]).WellFormed (2 ^ 32 - 1) := by
  decide

theorem witness_SettledAfterArmAndDelay : (waiting [.armCapture, .elapse 3, .readCount]).config = some (small .bram 128 32) ∧
    (waiting [.armCapture, .elapse 3, .readCount]).captureBusy = false ∧ (small .bram 128 32).settleDelay ≠ 0 := by decide

/-- The delay itself settles, one less does not. -/
theorem witness_SettledAfterArmAndDelay_edges :
    settled (small .bram 128 32) { machine (small .bram 128 32) with armed := true, elapsed := 3 } = true ∧
    settled (small .bram 128 32) { machine (small .bram 128 32) with armed := true, elapsed := 2 } = false := by decide

theorem witness_ResetInputRestoresRegisters : (waiting [.reset, .readStatus]).inbox = .reset :: [.readStatus] := by decide

theorem witness_HostRegisterAccess : (waiting [.writeStatus 9#32]).inbox = .writeStatus 9#32 :: [] ∧
    (waiting [.writeCount 9#32]).inbox = .writeCount 9#32 :: [] ∧ (waiting [.readStatus]).inbox = .readStatus :: [] ∧
    (waiting [.readCount]).inbox = .readCount :: [] := by decide

theorem witness_OnlyCommandsAndResetChangeStatus : ∃ t, step (waiting [.command invalid]) = .next t ∧
    t.status ≠ (waiting [.command invalid]).status := ⟨_, rfl, by decide⟩

theorem witness_IdleStepHoldsState : (waiting []).inbox = [] := by decide

/-- A descriptor that decodes and one that does not. -/
theorem witness_StepRunsDecodedCommand : Ready (waiting [.command valid]) (small .bram 128 32) ∧
    (waiting [.command valid]).inbox = .command valid :: [] ∧ decode 64 valid = .ok (.scatterBram (upTo 32)) ∧
    (waiting [.command invalid]).inbox = .command invalid :: [] ∧ decode 64 invalid = .error .reservedOpcode :=
  ⟨⟨rfl, by decide⟩, by decide⟩

theorem witness_PlacedInstructionRunsNext : Ready (machine bringUpConfig) bringUpConfig ∧
    bringUpConfig.maxStreamLen = 2 ^ 31 - 1 ∧ decodeTableWord 32 0x00000010 = some (.scatterBram []) :=
  ⟨⟨rfl, by decide⟩, by decide⟩

/-- No configuration; and one with a region size that is no multiple of 4. -/
theorem witness_CommandNeedsConfiguration : State.reset.config = none ∧
    (machine (small .bram 130 32)).config = some (small .bram 130 32) ∧ ¬ configOk (small .bram 130 32) := by decide

theorem witness_ConfigurationNeverChanges : ∃ t, step (waiting [.reset]) = .next t ∧
    (waiting [.reset]).config = some (small .bram 128 32) := ⟨_, rfl, by decide⟩

theorem witness_BaseAddressesInvisible : Ready (machine (small .bram 128 32)) (small .bram 128 32) := ready_bram

/-- A machine bound to regions at these base addresses, with these inputs waiting. -/
def bound (base capBase : Nat) (xs : List Input) : State :=
  { machine { small .bram 128 32 with regionBase := base, capRegionBase := capBase } with inbox := xs }

/-- Instances that know nothing of their regions yet see them alike. -/
theorem systemInv_bound (b0 c0 b1 c1 : Nat) (xs ys : List Input) : SystemInv [bound b0 c0 xs, bound b1 c1 ys] := by
  refine ⟨fun s hs => ?_, fun j k s t _ hj hk c c' _ _ => ?_⟩
  · simp only [List.mem_cons, List.not_mem_nil, or_false] at hs
    rcases hs with rfl | rfl <;> exact ⟨List.Pairwise.nil, List.Pairwise.nil, fun _ => ⟨rfl, rfl⟩⟩
  · have empty : ∀ {n : Nat} {u : State}, [bound b0 c0 xs, bound b1 c1 ys][n]? = some u → u.playback = [] ∧ u.capture = [] := by
      intro n u hu
      have hm := List.mem_of_getElem? hu
      simp only [List.mem_cons, List.not_mem_nil, or_false] at hm
      rcases hm with rfl | rfl <;> exact ⟨rfl, rfl⟩
    rw [(empty hj).1, (empty hj).2, (empty hk).1, (empty hk).2]
    exact ⟨fun _ _ _ _ _ => rfl, fun _ _ _ _ _ => rfl⟩

/-- Two instances side by side, in adjoining regions. -/
theorem witness_InstancesDoNotInterfere :
    SystemInv [bound 0 0 [.command invalid], bound 128 32 [.reset]] ∧
    distinctRegions (bound 0 0 [.command invalid]) (bound 128 32 [.reset]) ∧
    ∃ x y, systemStep 0 [bound 0 0 [.command invalid], bound 128 32 [.reset]] = .next x ∧
      systemStep 1 [bound 0 0 [.command invalid], bound 128 32 [.reset]] = .next y := by
  refine ⟨systemInv_bound _ _ _ _ _ _, fun c c' hc hc' => ?_, _, _, rfl, rfl⟩
  cases hc
  cases hc'
  refine ⟨fun x hx y _ => ?_, fun x hx y _ => ?_⟩
  · change x < 128 at hx
    change 0 + x ≠ 128 + y
    omega
  · change x < 32 at hx
    change 0 + x ≠ 32 + y
    omega

theorem witness_SystemKeepsSharedRegionsAlike : SystemInv [bound 0 0 [.command valid], bound 64 0 [.command valid]] ∧
    (∃ x, systemStep 1 [bound 0 0 [.command valid], bound 64 0 [.command valid]] = .next x) ∧
    ∃ y, overlapStep 0 1 [bound 0 0 [.command valid], bound 64 0 [.command valid]] = .next y :=
  ⟨systemInv_bound _ _ _ _ _ _, ⟨_, rfl⟩, _, rfl⟩

theorem witness_OverlappingPassesLeaveEitherWord :
    SystemInv [bound 0 0 [.command valid], bound 64 0 [.command valid]] ∧
    Ready (bound 0 0 [.command valid]) { small .bram 128 32 with regionBase := 0, capRegionBase := 0 } ∧
    Ready (bound 64 0 [.command valid]) { small .bram 128 32 with regionBase := 64, capRegionBase := 0 } ∧
    (bound 0 0 [.command valid]).inbox = .command valid :: [] ∧ (0 : Nat) % 4 = 64 % 4 ∧
    passReads 0 (bound 0 0 [.command valid]) = [] ∧ passReads 1 (bound 64 0 [.command valid]) = [] :=
  ⟨systemInv_bound _ _ _ _ _ _, ⟨rfl, by decide⟩, ⟨rfl, by decide⟩, by decide⟩

/-- No configuration yet, with a well-formed and an ill-formed one to fix; and a configuration already fixed. -/
theorem witness_ConfigureFixesConfiguration :
    ({ State.reset with inbox := [.configure (small .bram 128 32)] } : State).config = none ∧
    configOk (small .bram (2 ^ 32) 0) ∧ ¬ configOk (small .bram 126 32) ∧
    (waiting [.configure (small .bram 128 32)]).config = some (small .bram 128 32) := by decide

/-- The last word of each region and the first offset past it, a word that holds a value and one that holds none, and a
settled and an unsettled capture. -/
theorem witness_AgentAccessesBetweenCommands : Ready written (small .bram 128 32) ∧
    wordInside (small .bram 128 32).capRegionSize 28 ∧ ¬ wordInside (small .bram 128 32).capRegionSize 32 ∧
    wordInside (small .bram 128 32).regionSize 124 ∧ ¬ wordInside (small .bram 128 32).regionSize 128 ∧
    ¬ wordInside (small .bram 128 32).regionSize 2 ∧
    readWord .big 4 written.playback = some 8#32 ∧ readWord .big 124 written.playback = none ∧
    settled (small .bram 0 32) (captured (small .bram 0 32) signWords) = true ∧
    readWord .big 28 (captured (small .bram 0 32) signWords).capture = some 0xFFFF0000#32 ∧
    settled (small .bram 128 32) written = false := ⟨ready_written, by decide⟩

/-- A state that no reset gives, with known words in the playback region and a command waiting. -/
theorem witness_StepKeepsInvariant : Inv { written with inbox := [.command invalid] } ∧
    ∃ t, step { written with inbox := [.command invalid] } = .next t := by
  refine ⟨⟨by decide, fun _ => rfl, by decide, by decide, ?_, ?_, ?_, by decide⟩, _, rfl⟩
  · exact writeWord_whole (by decide) (writeWord_whole (by decide) (by simp [wholeWords, readByte]))
  · simp [wholeWords, written, machine, State.reset, readByte]
  · intro c hc
    cases hc
    decide

theorem witness_OnlyScattersWriteMemory : ∃ t, runCommand valid (machine (small .bram 128 32)) = .next t ∧
    t.playback ≠ (machine (small .bram 128 32)).playback := ⟨_, rfl, by decide⟩

/-- An opcode that names a command, and one that names none. -/
theorem witness_LastOpIsRawCommandByte : Ready (machine (small .bram 128 32)) (small .bram 128 32) ∧
    invalid.cmd.extractLsb' 0 8 ∉ legalOpcodes ∧ valid.cmd.extractLsb' 0 8 ∈ legalOpcodes := ⟨ready_bram, by decide⟩

theorem witness_CommandEndsWithLegalStatus : ∃ t, runCommand invalid (machine (small .bram 128 32)) = .next t ∧
    t.status.extractLsb' 1 2 ≠ 0#2 := ⟨_, rfl, by decide⟩

theorem witness_FatalErrorChangesOnlyStatusAndCount : ∃ t, runCommand invalid written = .next t ∧
    t.status.extractLsb' 1 2 ≠ 0#2 := ⟨_, rfl, by decide⟩

theorem witness_EveryDescriptorCompletesInsideRegions : Ready (machine (small .bram 128 32)) (small .bram 128 32) :=
  ready_bram

theorem witness_CountIsNumberOfOutputs : Ready (machine (small .bram 128 32)) (small .bram 128 32) ∧
    (small .bram 128 32).maxStreamLen ≤ 2 ^ 31 - 1 ∧ (small .bram 128 32).capAddr = defaultCapAddr ∧
    ∃ t, runCommand valid (machine (small .bram 128 32)) = .next t := ⟨ready_bram, by decide, by decide, _, rfl⟩

theorem witness_PackComplexResult : Ready (machine (small .bram 128 32)) (small .bram 128 32) ∧
    ([] : List Int).length ≠ [1].length ∧ ([] : List Int).length = ([] : List Int).length ∧ [1].length = [-1].length :=
  ⟨ready_bram, by decide⟩

theorem witness_PackRealResult : Ready (machine (small .bram 128 32)) (small .bram 128 32) ∧
    [(1 : Int)].length % 2 ≠ 0 ∧ ([] : List Int).length % 2 = 0 ∧ [(1 : Int), 2].length % 2 = 0 := ⟨ready_bram, by decide⟩

theorem witness_UnpackRealResult : Ready (machine (small .bram 128 32)) (small .bram 128 32) := ready_bram

theorem witness_PackingTruncates : [(7 : Int), 0].length = [(1 : Int), -1].length ∧ [(5 : Int)].length = [(2 : Int)].length := by
  decide

theorem witness_WordTwinsAreOneWord : [(-1 : Int)].length = [(1 : Int)].length := by decide

/-- Even lengths, with every value in range and with one outside. -/
theorem witness_RealSamplesRoundTrip : Ready (machine (small .bram 128 32)) (small .bram 128 32) ∧
    [(-32768 : Int), 32767].length % 2 = 0 ∧ (∀ v ∈ [(-32768 : Int), 32767], -32768 ≤ v ∧ v < 32768) ∧
    [(32768 : Int), 0].length % 2 = 0 := ⟨ready_bram, by decide⟩

theorem witness_ComplexSamplesRoundTrip : Ready (machine (small .bram 128 32)) (small .bram 128 32) ∧
    [(-32768 : Int)].length = [(32767 : Int)].length ∧ (∀ v ∈ [(-32768 : Int)], -32768 ≤ v ∧ v < 32768) ∧
    (∀ v ∈ [(32767 : Int)], -32768 ≤ v ∧ v < 32768) := ⟨ready_bram, by decide⟩

theorem witness_CodecResponseDependsOnDescriptorOnly : Ready (machine (small .bram 128 32)) (small .bram 128 32) ∧
    Ready (machine (small .ddr4 64 32)) (small .ddr4 64 32) ∧
    ((∃ a b, Instr.packReal [1, 2] = .packComplex a b) ∨ (∃ a, Instr.packReal [1, 2] = .packReal a) ∨
      ∃ a, Instr.packReal [1, 2] = .unpackReal a) := ⟨ready_bram, ready_ddr4, .inr (.inl ⟨_, rfl⟩)⟩

theorem witness_CodecFrame : ∃ x y z, exec (.packComplex [1] [2]) written = .next x ∧
    exec (.packReal [1, 2]) written = .next y ∧ exec (.unpackReal [1]) written = .next z := ⟨_, _, _, rfl, rfl, rfl⟩

/-- Each clause of the three SCATTER rules: another technology, an empty stream, a region one period too small, one
that just holds the periods, and a stream shorter than a period. -/
theorem witness_ScatterBramResult : Ready (machine (small .bram 128 32)) (small .bram 128 32) ∧
    (small .bram 128 32).regionTech ≠ .uram ∧ (upTo 0).length = 0 ∧
    (small .bram 128 32).regionSize < (upTo 64).length / 32 * (4 * 32) ∧
    (upTo 33).length / 32 * (4 * 32) ≤ (small .bram 128 32).regionSize ∧
    (upTo 31).length / 32 * (4 * 32) ≤ (small .bram 128 32).regionSize := ⟨ready_bram, by decide⟩

theorem witness_ScatterUramResult : Ready (machine (small .uram 128 32)) (small .uram 128 32) ∧
    (small .uram 128 32).regionTech ≠ .bram ∧ (upTo 0).length = 0 ∧
    (small .uram 128 32).regionSize < (upTo 64).length / 32 * (4 * 32) ∧
    (upTo 32).length / 32 * (4 * 32) ≤ (small .uram 128 32).regionSize := ⟨ready_uram, by decide⟩

theorem witness_ScatterDdr4Result : Ready (machine (small .ddr4 64 32)) (small .ddr4 64 32) ∧
    (small .ddr4 64 32).regionTech ≠ .bram ∧ (upTo 0).length = 0 ∧
    (small .ddr4 64 32).regionSize < (upTo 32).length / 16 * (4 * 16) ∧
    (upTo 17).length / 16 * (4 * 16) ≤ (small .ddr4 64 32).regionSize := ⟨ready_ddr4, by decide⟩

theorem witness_LanePermutationInvolution : (31 < lanes .bram) ∧ (31 < lanes .uram) ∧ (15 < lanes .ddr4) := by decide

theorem witness_GatherByOffsetRestores : Ready (machine (small .bram 128 32)) (small .bram 128 32) ∧
    (small .bram 128 32).regionTech = .bram ∧ (upTo 33).length ≠ 0 ∧ Tech.bram = .bram ∧
    (upTo 33).length / lanes .bram * periodBytes .bram ≤ (small .bram 128 32).regionSize := ⟨ready_bram, by decide⟩

theorem witness_WriteOrderIsIrrelevant : written.playback.wf ∧
    (upTo 17).length / lanes .ddr4 * periodBytes .ddr4 ≤ (small .ddr4 64 32).regionSize ∧
    (scatterWrites .ddr4 (upTo 17)).reverse.Perm (scatterWrites .ddr4 (upTo 17)) :=
  ⟨by decide, by decide, List.reverse_perm _⟩

/-- The last word of the region and another one. -/
theorem witness_WriteSetsOneWord : written.playback.wf ∧ wordInside (small .bram 128 32).regionSize 124 ∧
    wordInside (small .bram 128 32).regionSize 0 ∧ (0 : Nat) ≠ 124 ∧
    ∃ m, memWrite (small .bram 128 32) 0 5#32 written.playback = .ok m := ⟨by decide, by decide, by decide, by decide, _, rfl⟩

theorem witness_ScatterFrame : ∃ x y z, exec (.scatterBram (upTo 33)) (machine (small .bram 128 32)) = .next x ∧
    exec (.scatterUram (upTo 32)) (machine (small .uram 128 32)) = .next y ∧
    exec (.scatterDdr4 (upTo 16)) (machine (small .ddr4 64 32)) = .next z := ⟨_, _, _, rfl, rfl, rfl⟩

/-- The byte just past the written words of one period. -/
theorem witness_ScatterFrame_outside : ∀ p < (upTo 17).length / lanes .ddr4, ∀ k < lanes .ddr4,
    64 < slotOffset .ddr4 p k ∨ slotOffset .ddr4 p k + 4 ≤ 64 := by decide

/-- Each clause of the two GATHER rules: no word, one word past the region, exactly the region, and a settled machine
whose region holds words. -/
theorem witness_GatherRealResult : Ready (captured (small .bram 0 32) signWords) (small .bram 0 32) ∧
    (0#32 : Word).toNat = 0 ∧ (8#32 : Word).toNat ≠ 0 ∧
    (∃ w < (9#32 : Word).toNat, (small .bram 0 32).capRegionSize < capOffset (small .bram 0 32) w + 4) ∧
    (∀ w < (8#32 : Word).toNat, capOffset (small .bram 0 32) w + 4 ≤ (small .bram 0 32).capRegionSize) ∧
    settled (small .bram 0 32) (captured (small .bram 0 32) signWords) = true ∧
    readWord .big (capOffset (small .bram 0 32) 0) (captured (small .bram 0 32) signWords).capture = some 0x8000FFFF#32 :=
  ⟨ready_captured, by decide, by decide, ⟨8, by decide⟩, by decide⟩

theorem witness_GatherIqResult : Ready (captured (small .bram 0 32) signWords) (small .bram 0 32) ∧
    (0#32 : Word).toNat = 0 ∧ (15#32 : Word).toNat ≠ 0 ∧
    (∃ w < 8 * ((16#32 : Word).toNat / 8), (small .bram 0 32).capRegionSize < capOffset (small .bram 0 32) w + 4) ∧
    (∀ w < 8 * ((15#32 : Word).toNat / 8), capOffset (small .bram 0 32) w + 4 ≤ (small .bram 0 32).capRegionSize) ∧
    settled (small .bram 0 32) (captured (small .bram 0 32) signWords) = true ∧
    readWord .big (capOffset (small .bram 0 32) 7) (captured (small .bram 0 32) signWords).capture = some 0xFFFF0000#32 :=
  ⟨ready_captured, by decide, by decide, ⟨8, by decide⟩, by decide⟩

/-- The last word of the capture region with its value, and in an empty region without one. -/
theorem witness_ReadPairKeepsSecondRead : wordInside (small .bram 0 32).capRegionSize 28 ∧
    readWord .big 28 (captured (small .bram 0 32) signWords).capture = some 0xFFFF0000#32 ∧
    readWord .big 28 [] = none := by decide

theorem witness_UnsettledGatherHasSameShape : Ready (machine (small .bram 0 32)) (small .bram 0 32) ∧
    Ready (captured (small .bram 0 32) signWords) (small .bram 0 32) ∧
    (Instr.gatherReal 8 = .gatherReal 8 ∨ Instr.gatherReal 8 = .gatherIq 8) := ⟨⟨rfl, by decide⟩, ready_captured, .inl rfl⟩

theorem witness_UnsettledGatherIndependentOfCapture : Ready (machine (small .bram 0 32)) (small .bram 0 32) ∧
    settled (small .bram 0 32) (machine (small .bram 0 32)) = false := ⟨⟨rfl, by decide⟩, by decide⟩

theorem witness_RealSamplesAreIParts : Ready (captured (small .bram 0 32) signWords) (small .bram 0 32) ∧
    ∀ w < (8#32 : Word).toNat, capOffset (small .bram 0 32) w + 4 ≤ (small .bram 0 32).capRegionSize :=
  ⟨ready_captured, by decide⟩

theorem witness_GatherFrame : ∃ x y, exec (.gatherReal 8) (captured (small .bram 0 32) signWords) = .next x ∧
    exec (.gatherIq 8) (captured (small .bram 0 32) signWords) = .next y := ⟨_, _, rfl, rfl⟩

theorem witness_ResetDuringCommandLeavesOldOrNew : Ready written (small .bram 128 32) ∧ (4 : Nat) % 4 = 0 :=
  ⟨ready_written, by decide⟩

/-- A word past the region; a word that neither run leaves with a value; the last word, which only the command writes. -/
theorem witness_ReadsDuringCommandSeeOldOrNew : Ready written (small .bram 128 32) ∧
    cmdOp valid.cmd ∉ gatherOpcodes ∧ ¬ wordInside (small .bram 128 32).regionSize 128 ∧
    (∃ done, runCommand invalid written = .next done ∧ wordInside (small .bram 128 32).regionSize 124 ∧
      readWord .big 124 done.playback = none) ∧
    ∃ done, runCommand valid written = .next done ∧ ∀ off ∈ [0, 124, 0],
      wordInside (small .bram 128 32).regionSize off ∧ readWord .big off done.playback ≠ none :=
  ⟨ready_written, by decide, by decide, ⟨_, rfl, by decide⟩, _, rfl, by decide⟩

theorem witness_RacingWritesLeaveEitherWord : Ready written (small .bram 128 32) ∧
    (∀ w ∈ [(0, 1#32), (124, 2#32)], wordInside (small .bram 128 32).regionSize w.1) ∧
    ([(0, 1#32), (124, 2#32)].map Prod.fst).Nodup := ⟨ready_written, by decide⟩

end Sys2Proof.Tests
end

/-! # Scope (00_scope.md): what a step and a command do in a configured machine -/

namespace Sys2Proof.Machine

/-! ### A waiting command descriptor -/

theorem step_command {s : State} {d : Descriptor} {rest : List Input} (h : s.inbox = .command d :: rest) :
    step s = runCommand d { s with inbox := rest } := by
  simp only [step, h, onInput]

theorem ready_withInbox {s : State} {c : Config} (hr : Ready s c) (rest : List Input) :
    Ready { s with inbox := rest } c := hr

theorem runCommand_of_decode_ok {s : State} {c : Config} {d : Descriptor} {i : Instr} (hr : Ready s c)
    (h : decode c.maxStreamLen d = .ok i) : runCommand d s = exec i s := by
  simp only [runCommand, configured_ready hr, h]

theorem runCommand_of_decode_error {s : State} {c : Config} {d : Descriptor} {e : DecodeError} (hr : Ready s c)
    (h : decode c.maxStreamLen d = .error e) :
    runCommand d s = .next (raiseError (cmdOp d.cmd) .invalidArgument s) := by
  simp only [runCommand, configured_ready hr, h]

/-- Settles O14: the step is `runCommand` on the state without the input, and `runCommand` follows `decode`. -/
theorem stepRunsDecodedCommand : Obligations.StepRunsDecodedCommand := by
  intro s c d rest hr hin
  have hr' := ready_withInbox hr rest
  constructor
  · intro i hi
    rw [step_command hin, runCommand_of_decode_ok hr' hi]
  · intro e he
    rw [step_command hin, runCommand_of_decode_error hr' he]

/-! ### The accesses of a command -/

/-- Every access a response lists exists in its region (R36): none after a fatal error (R104). -/
theorem commandEnd_eventsInside {c : Config} {s t : State} {op : BitVec 8} (h : CommandEnd c s op t) :
    ∃ r, t.outbox = s.outbox ++ [.response r] ∧ ∀ x ∈ r.events, eventInside c x := by
  cases h with
  | failed e he => exact ⟨_, rfl, fun _ hx => absurd hx List.not_mem_nil⟩
  | done k n out ev m d hk hn hw hev hd => exact ⟨_, rfl, hev⟩

/-- No region is larger than 2^32 bytes (R7), so the offset of a word inside one is a 32-bit number. -/
theorem wordInside_lt_two_pow {size off : Nat} (hsize : regionSizeOk size) (h : wordInside size off) : off < 2 ^ 32 := by
  omega

/-- Settles O26: every descriptor ends in a way of `CommandEnd`, whose accesses are inside the regions, and a well-formed
configuration bounds the regions. -/
theorem everyDescriptorCompletesInsideRegions : Obligations.EveryDescriptorCompletesInsideRegions := by
  intro s c d hr
  obtain ⟨t, hrun, hend⟩ := runCommand_end hr d
  obtain ⟨r, hout, hin⟩ := commandEnd_eventsInside hend
  obtain ⟨-, hplayback, hcapture, -⟩ := hr
  refine ⟨t, r, hrun, hout, fun off v hmem => ?_, fun off hmem => ?_⟩
  · have hoff : wordInside c.regionSize off := hin _ hmem
    exact ⟨hoff.1, hoff.2, wordInside_lt_two_pow hplayback hoff⟩
  · have hoff : wordInside c.capRegionSize off := hin _ hmem
    exact ⟨hoff.1, hoff.2, wordInside_lt_two_pow hcapture hoff⟩

end Sys2Proof.Machine

/-! # State (10_state.md): what a step, an input and a command change, and what they keep -/

namespace Sys2Proof.Machine

/-! ### Registers at the end of a command -/

@[simp] theorem statusDone_endStatus (op : BitVec 8) (e : ErrorKind) (wm : Bool) (k : Nat) :
    statusDone (endStatus op e wm k) = true := by
  cases e <;> simp [endStatus]

@[simp] theorem statusErr_endStatus (op : BitVec 8) (e : ErrorKind) (wm : Bool) (k : Nat) :
    statusErr (endStatus op e wm k) = errorCode e := by
  cases e <;> simp [endStatus]

@[simp] theorem statusLastOp_endStatus (op : BitVec 8) (e : ErrorKind) (wm : Bool) (k : Nat) :
    statusLastOp (endStatus op e wm k) = op := by
  cases e <;> simp [endStatus]

/-- COUNT is 0 where the ERR field of the STATUS written with it is not (R26, R27). -/
theorem endCount_of_statusErr {op : BitVec 8} {e : ErrorKind} {wm : Bool} {k : Nat}
    (h : statusErr (endStatus op e wm k) ≠ 0) (n : Nat) : endCount e n = 0 :=
  endCount_error (fun he => h (by rw [statusErr_endStatus, he]; rfl)) n

/-! ### The writes that a free choice leaves are writes of the same list -/

theorem someWrites_eq_allWrites (order : ByteOrder) (source draw : Nat) (ws : List (Nat × Word)) (m : Memory) :
    someWrites order source draw ws m =
      allWrites order (ws.filter fun w => Config.freeChoice source draw w.1) m := by
  induction ws generalizing m with
  | nil => rfl
  | cons w rest ih =>
    rw [someWrites, ih]
    by_cases h : Config.freeChoice source draw w.1 <;> simp [h, allWrites]

theorem racingWrites_eq_allWrites (order : ByteOrder) (source draw : Nat) (own : List Nat) (ws : List (Nat × Word))
    (m : Memory) : racingWrites order source draw own ws m =
      allWrites order (ws.filter fun w => ¬ (w.1 ∈ own ∧ Config.freeChoice source draw w.1 = false)) m := by
  induction ws generalizing m with
  | nil => rfl
  | cons w rest ih =>
    rw [racingWrites, ih]
    by_cases h : w.1 ∈ own ∧ Config.freeChoice source draw w.1 = false
    · simp only [List.filter_cons, h, and_self, not_true_eq_false, decide_false, if_true, Bool.false_eq_true, if_false]
    · simp only [List.filter_cons, h, not_false_eq_true, decide_true, if_true, if_false, allWrites]

/-! ### What a command can do, seen from a machine whose configuration is known -/

theorem commandEnd_of_runCommand {s t : State} {c : Config} {d : Descriptor} (hr : Ready s c)
    (h : runCommand d s = .next t) : CommandEnd c s (cmdOp d.cmd) t := by
  obtain ⟨t', hrun, hend⟩ := runCommand_end hr d
  rw [h] at hrun
  cases hrun
  exact hend

theorem commandEnd_lastWrites_inside {s t : State} {c : Config} {op : BitVec 8} (h : CommandEnd c s op t) :
    ∀ w ∈ lastWrites t, wordInside c.regionSize w.1 :=
  memWrites_inside (commandEnd_writes h)

theorem commandEnd_config {s t : State} {c : Config} {op : BitVec 8} (h : CommandEnd c s op t) :
    t.config = s.config := by
  obtain ⟨-, hconfig, -⟩ := commandEnd_environment h
  exact hconfig

/-! ### What an input can do -/

/-- The registers, the regions and the configuration of `t` are those of `s`. -/
structure Held (s t : State) : Prop where
  status : t.status = s.status
  count : t.count = s.count
  playback : t.playback = s.playback
  capture : t.capture = s.capture
  config : t.config = s.config

theorem held_withInbox (s : State) (rest : List Input) : Held s { s with inbox := rest } := ⟨rfl, rfl, rfl, rfl, rfl⟩

theorem held_withDraws (s : State) (n : Nat) : Held s (withDraws n s) := ⟨rfl, rfl, rfl, rfl, rfl⟩

theorem held_deliverAll_withDraws (s : State) (xs : List Delivery) (n : Nat) : Held s (deliverAll xs (withDraws n s)) :=
  ⟨rfl, rfl, rfl, rfl, rfl⟩

/-- How a step that takes input `x` in state `s` ends. Every change of a region is a list of word writes at offsets that
exist there. -/
inductive InputEnd (s : State) : Input → State → Prop where
  | fixed (c : Config) (hnone : s.config = none) (hok : configOk c) :
      InputEnd s (.configure c) { s with config := some c }
  | reset : InputEnd s .reset (applyReset s)
  | held (x : Input) (t : State) (h : Held s t) : InputEnd s x t
  | captureWritten (x : Input) (c : Config) (ws : List (Nat × Word)) (hr : Ready s c)
      (hws : ∀ w ∈ ws, wordInside c.capRegionSize w.1) :
      InputEnd s x (withCapture (allWrites c.mmioByteOrder ws s.capture) s)
  | playbackWritten (x : Input) (c : Config) (ws : List (Nat × Word)) (hr : Ready s c)
      (hws : ∀ w ∈ ws, wordInside c.regionSize w.1) :
      InputEnd s x (withPlayback (allWrites c.mmioByteOrder ws s.playback) s)
  | command (d : Descriptor) (t : State) (h : runCommand d s = .next t) : InputEnd s (.command d) t
  | abandoned (d : Descriptor) (c : Config) (n : Nat) (ws : List (Nat × Word)) (hr : Ready s c)
      (hws : ∀ w ∈ ws, wordInside c.regionSize w.1) :
      InputEnd s (.resetDuring d)
        (applyReset (withDraws n (withPlayback (allWrites c.mmioByteOrder ws s.playback) s)))
  | observed (d : Descriptor) (offs : List Nat) (s' t : State) (hs' : Held s s') (h : runCommand d s' = .next t) :
      InputEnd s (.readsDuring d offs) t
  | raced (d : Descriptor) (agent : List (Nat × Word)) (c : Config) (n : Nat) (ws : List (Nat × Word)) (u : State)
      (hr : Ready s c) (hws : ∀ w ∈ ws, wordInside c.regionSize w.1) (h : runCommand d s = .next u) :
      InputEnd s (.writesDuring d agent)
        (withDraws n (withPlayback (allWrites c.mmioByteOrder ws u.playback) u))

section
variable {s t : State}

theorem onConfigure_end {c : Config} (h : onConfigure c s = .next t) : InputEnd s (.configure c) t := by
  unfold onConfigure at h
  split at h
  · cases h
  · rename_i hnone
    split at h
    · rename_i hok
      cases h
      exact .fixed c hnone hok
    · cases h

theorem onCaptureWrite_end {off : Nat} {v : Word} (h : onCaptureWrite off v s = .next t) :
    InputEnd s (.captureWrite off v) t := by
  obtain ⟨c, hr, hc⟩ := configured_next h
  split at hc
  · rename_i hin
    cases hc
    exact .captureWritten _ c [(off, v)] hr (by simpa using hin)
  · cases hc

theorem onWritePlayback_end {off : Nat} {v : Word} (h : onWritePlayback off v s = .next t) :
    InputEnd s (.writePlayback off v) t := by
  obtain ⟨c, hr, hc⟩ := configured_next h
  split at hc
  · rename_i hin
    cases hc
    exact .playbackWritten _ c [(off, v)] hr (by simpa using hin)
  · cases hc

theorem onReadCapture_held {off : Nat} (h : onReadCapture off s = .next t) : Held s t := by
  obtain ⟨c, -, hc⟩ := configured_next h
  split at hc
  · cases hc
  · cases hc
    exact ⟨rfl, rfl, rfl, rfl, rfl⟩

theorem onReadCapturePair_held {off : Nat} (h : onReadCapturePair off s = .next t) : Held s t := by
  obtain ⟨c, -, hc⟩ := configured_next h
  split at hc
  · cases hc
  · cases hc
    exact ⟨rfl, rfl, rfl, rfl, rfl⟩

theorem onReadPlayback_held {off : Nat} (h : onReadPlayback off s = .next t) : Held s t := by
  obtain ⟨c, -, hc⟩ := configured_next h
  split at hc
  · split at hc
    · cases hc
      exact ⟨rfl, rfl, rfl, rfl, rfl⟩
    · cases hc
  · cases hc

theorem onReadInOverlap_held {off : Nat} (h : onReadInOverlap off s = .next t) : Held s t := by
  obtain ⟨c, -, hc⟩ := configured_next h
  split at hc
  · cases hc
    exact ⟨rfl, rfl, rfl, rfl, rfl⟩
  · cases hc

theorem onResetDuring_end {d : Descriptor} (h : onResetDuring d s = .next t) : InputEnd s (.resetDuring d) t := by
  obtain ⟨c, hr, hc⟩ := configured_next h
  split at hc
  · rename_i s' hrun
    cases hc
    rw [someWrites_eq_allWrites]
    have hin := commandEnd_lastWrites_inside (commandEnd_of_runCommand hr hrun)
    exact .abandoned d c _ _ hr fun w hw => hin w (List.mem_of_mem_filter hw)
  · cases hc
  · cases hc

theorem onReadsDuring_end {d : Descriptor} {offs : List Nat} (h : onReadsDuring d offs s = .next t) :
    InputEnd s (.readsDuring d offs) t := by
  obtain ⟨c, hr, hc⟩ := configured_next h
  split at hc
  · cases hc
  · split at hc
    · split at hc
      · cases hc
      · exact .observed d offs _ t (held_deliverAll_withDraws s _ _) hc
    · cases hc
    · cases hc

theorem onWritesDuring_end {d : Descriptor} {ws : List (Nat × Word)} (h : onWritesDuring d ws s = .next t) :
    InputEnd s (.writesDuring d ws) t := by
  obtain ⟨c, hr, hc⟩ := configured_next h
  split at hc
  · cases hc
  · rename_i hfind
    split at hc
    · rename_i u hrun
      cases hc
      rw [racingWrites_eq_allWrites]
      refine .raced d ws c _ _ u hr (fun w hw => ?_) hrun
      simpa using List.find?_eq_none.1 hfind w (List.mem_of_mem_filter hw)
    · cases hc
    · cases hc

/-- Every input that is answered with a next state ends in one of the ways of `InputEnd`. -/
theorem onInput_end {x : Input} (h : onInput x s = .next t) : InputEnd s x t := by
  cases x with
  | configure c => exact onConfigure_end h
  | reset => cases h; exact .reset
  | command d => exact .command d t h
  | readStatus => cases h; exact .held _ _ ⟨rfl, rfl, rfl, rfl, rfl⟩
  | readCount => cases h; exact .held _ _ ⟨rfl, rfl, rfl, rfl, rfl⟩
  | writeStatus v => cases h; exact .held _ _ ⟨rfl, rfl, rfl, rfl, rfl⟩
  | writeCount v => cases h; exact .held _ _ ⟨rfl, rfl, rfl, rfl, rfl⟩
  | armCapture => cases h; exact .held _ _ ⟨rfl, rfl, rfl, rfl, rfl⟩
  | elapse time => cases h; exact .held _ _ ⟨rfl, rfl, rfl, rfl, rfl⟩
  | captureBusy busy => cases h; exact .held _ _ ⟨rfl, rfl, rfl, rfl, rfl⟩
  | captureWrite off v => exact onCaptureWrite_end h
  | readPlayback off => exact .held _ _ (onReadPlayback_held h)
  | writePlayback off v => exact onWritePlayback_end h
  | readCapture off => exact .held _ _ (onReadCapture_held h)
  | readCapturePair off => exact .held _ _ (onReadCapturePair_held h)
  | resetDuring d => exact onResetDuring_end h
  | readsDuring d offs => exact onReadsDuring_end h
  | writesDuring d ws => exact onWritesDuring_end h
  | readInOverlap off => exact .held _ _ (onReadInOverlap_held h)

end

theorem step_of_inbox {s : State} {x : Input} {rest : List Input} (h : s.inbox = x :: rest) :
    step s = onInput x { s with inbox := rest } := by
  simp only [step, h]

theorem step_of_idle {s : State} (h : s.inbox = []) : step s = .next s := by
  simp only [step, h]

/-- A step stays idle, or takes the next input and ends in one of the ways of `InputEnd` (R16, R112). -/
theorem step_end {s t : State} (h : step s = .next t) :
    t = s ∨ ∃ x rest, s.inbox = x :: rest ∧ InputEnd { s with inbox := rest } x t := by
  cases hin : s.inbox with
  | nil =>
    rw [step_of_idle hin] at h
    cases h
    exact .inl rfl
  | cons x rest =>
    rw [step_of_inbox hin] at h
    exact .inr ⟨x, rest, rfl, onInput_end h⟩

/-! ### The invariant -/

/-- The invariant speaks of STATUS and COUNT in its first two parts only. -/
theorem Inv.withRegisters {s t : State} (hs : Inv s) (hlegal : Sys2Proof.Machine.statusLegal t.status)
    (hzero : statusDone t.status = false ∨ statusErr t.status ≠ 0 → t.count = 0)
    (hplayback : t.playback = s.playback) (hcapture : t.capture = s.capture) (hconfig : t.config = s.config) :
    Inv t where
  statusLegal := hlegal
  countZero := hzero
  playbackForm := hplayback ▸ hs.playbackForm
  captureForm := hcapture ▸ hs.captureForm
  playbackWords := hplayback ▸ hs.playbackWords
  captureWords := hcapture ▸ hs.captureWords
  configured := by rw [hconfig, hplayback, hcapture]; exact hs.configured
  unconfigured := by rw [hconfig, hplayback, hcapture]; exact hs.unconfigured

theorem Held.inv {s t : State} (h : Held s t) (hs : Inv s) : Inv t :=
  hs.withRegisters (by rw [h.status]; exact hs.statusLegal) (by rw [h.status, h.count]; exact hs.countZero)
    h.playback h.capture h.config

theorem statusLegal_zero : statusLegal 0 := by decide

theorem Inv.applyReset {s : State} (hs : Inv s) : Inv (applyReset s) :=
  hs.withRegisters statusLegal_zero (fun _ => rfl) rfl rfl rfl

theorem Inv.finish {s : State} (hs : Inv s) (op : BitVec 8) (e : ErrorKind) {k : Nat} (hk : k < 32) (n : Nat)
    (out : List Element) (ev : List Event) : Inv (finish op e (decide (k ≠ 0)) k n out ev s) := by
  refine hs.withRegisters (statusLegal_endStatus op e hk) (fun h => ?_) rfl rfl rfl
  rcases h with hdone | herr
  · simp at hdone
  · exact endCount_of_statusErr herr n

theorem Inv.fix {s : State} (hs : Inv s) (hnone : s.config = none) {c : Config} (hok : configOk c) :
    Inv { s with config := some c } where
  statusLegal := hs.statusLegal
  countZero := hs.countZero
  playbackForm := hs.playbackForm
  captureForm := hs.captureForm
  playbackWords := hs.playbackWords
  captureWords := hs.captureWords
  configured := fun c' hc' => by
    obtain ⟨hplayback, hcapture⟩ := hs.unconfigured hnone
    cases hc'
    refine ⟨hok, ?_, ?_⟩ <;> simp [hplayback, hcapture]
  unconfigured := fun h => nomatch h

section
variable {s : State} {c : Config} {ws : List (Nat × Word)}

theorem Inv.writePlayback (hs : Inv s) (hr : Ready s c) (hws : ∀ w ∈ ws, wordInside c.regionSize w.1) :
    Inv (withPlayback (allWrites c.mmioByteOrder ws s.playback) s) where
  statusLegal := hs.statusLegal
  countZero := hs.countZero
  playbackForm := allWrites_wf hs.playbackForm
  captureForm := hs.captureForm
  playbackWords := allWrites_whole (fun w hw => (hws w hw).1) hs.playbackWords
  captureWords := hs.captureWords
  configured := fun c' hc' => by
    obtain rfl := Option.some.inj (hr.1.symm.trans hc')
    obtain ⟨hok, hplayback, hcapture⟩ := hs.configured c hr.1
    exact ⟨hok, allWrites_inside hws hplayback, hcapture⟩
  unconfigured := fun hnone => nomatch hr.1.symm.trans hnone

theorem Inv.writeCapture (hs : Inv s) (hr : Ready s c) (hws : ∀ w ∈ ws, wordInside c.capRegionSize w.1) :
    Inv (withCapture (allWrites c.mmioByteOrder ws s.capture) s) where
  statusLegal := hs.statusLegal
  countZero := hs.countZero
  playbackForm := hs.playbackForm
  captureForm := allWrites_wf hs.captureForm
  playbackWords := hs.playbackWords
  captureWords := allWrites_whole (fun w hw => (hws w hw).1) hs.captureWords
  configured := fun c' hc' => by
    obtain rfl := Option.some.inj (hr.1.symm.trans hc')
    obtain ⟨hok, hplayback, hcapture⟩ := hs.configured c hr.1
    exact ⟨hok, hplayback, allWrites_inside hws hcapture⟩
  unconfigured := fun hnone => nomatch hr.1.symm.trans hnone

theorem Inv.withDraws (hs : Inv s) (n : Nat) : Inv (withDraws n s) :=
  (held_withDraws s n).inv hs

theorem Inv.commandEnd (hs : Inv s) (hr : Ready s c) {op : BitVec 8} {t : State} (h : CommandEnd c s op t) : Inv t := by
  cases h with
  | failed e he => exact hs.finish op e (k := 0) (by decide) 0 [] []
  | done k n out ev m d hk hn hw hev hd =>
    obtain rfl := memWrites_eq hw
    exact ((hs.writePlayback hr (memWrites_inside hw)).withDraws d).finish op .none hk n out ev

end

theorem Inv.runCommand {s t : State} (hs : Inv s) {d : Descriptor} (h : runCommand d s = .next t) : Inv t := by
  obtain ⟨c, hr, hend⟩ := runCommand_next h
  exact hs.commandEnd hr hend

theorem Inv.inputEnd {s t : State} {x : Input} (hs : Inv s) (h : InputEnd s x t) : Inv t := by
  cases h with
  | fixed c hnone hok => exact hs.fix hnone hok
  | reset => exact hs.applyReset
  | held x t hheld => exact hheld.inv hs
  | captureWritten x c ws hr hws => exact hs.writeCapture hr hws
  | playbackWritten x c ws hr hws => exact hs.writePlayback hr hws
  | command d t hrun => exact hs.runCommand hrun
  | abandoned d c n ws hr hws => exact ((hs.writePlayback hr hws).withDraws n).applyReset
  | observed d offs s' t hheld hrun => exact (hheld.inv hs).runCommand hrun
  | raced d agent c n ws u hr hws hrun =>
    have hconfig := commandEnd_config (commandEnd_of_runCommand hr hrun)
    exact ((hs.runCommand hrun).writePlayback ⟨hconfig.trans hr.1, hr.2⟩ hws).withDraws n

/-- Settles O21: each way in which an input can end keeps the invariant. -/
theorem stepKeepsInvariant : Obligations.StepKeepsInvariant := by
  intro s t hs h
  rcases step_end h with rfl | ⟨x, rest, -, hend⟩
  · exact hs
  · exact ((held_withInbox s rest).inv hs).inputEnd hend

/-- Settles O20: after reset the registers are 0, the regions are empty and no configuration is fixed. -/
theorem invariantHoldsAtReset : Obligations.InvariantHoldsAtReset where
  statusLegal := statusLegal_zero
  countZero := fun _ => rfl
  playbackForm := .nil
  captureForm := .nil
  playbackWords := fun _ h => nomatch h
  captureWords := fun _ h => nomatch h
  configured := fun _ h => nomatch h
  unconfigured := fun _ => ⟨rfl, rfl⟩

/-! ### What changes the registers and the configuration -/

/-- Settles O11: every other way in which an input can end keeps STATUS and COUNT. -/
theorem onlyCommandsAndResetChangeStatus : Obligations.OnlyCommandsAndResetChangeStatus := by
  intro s t h hchanged
  rcases step_end h with rfl | ⟨x, rest, hin, hend⟩
  · simp at hchanged
  · rw [hin]
    cases hend with
    | fixed c hnone hok => simp at hchanged
    | reset => exact ⟨rest, ⟨0, 0, [], []⟩, [], [], .inr (.inl rfl)⟩
    | held x t hheld => simp [hheld.status, hheld.count] at hchanged
    | captureWritten x c ws hr hws => simp at hchanged
    | playbackWritten x c ws hr hws => simp at hchanged
    | command d t hrun => exact ⟨rest, d, [], [], .inl rfl⟩
    | abandoned d c n ws hr hws => exact ⟨rest, d, [], [], .inr (.inr (.inl rfl))⟩
    | observed d offs s' t hheld hrun => exact ⟨rest, d, offs, [], .inr (.inr (.inr (.inl rfl)))⟩
    | raced d agent c n ws u hr hws hrun => exact ⟨rest, d, [], agent, .inr (.inr (.inr (.inr rfl)))⟩

theorem runCommand_config {s t : State} {d : Descriptor} (h : runCommand d s = .next t) : t.config = s.config := by
  obtain ⟨c, -, hend⟩ := runCommand_next h
  exact commandEnd_config hend

/-- Settles O17: the only input that changes the configuration finds none fixed. -/
theorem configurationNeverChanges : Obligations.ConfigurationNeverChanges := by
  intro s t c hc h
  rcases step_end h with rfl | ⟨x, rest, -, hend⟩
  · exact hc
  · cases hend with
    | fixed c' hnone hok => exact nomatch hc.symm.trans hnone
    | reset => exact hc
    | held x t hheld => exact hheld.config.trans hc
    | captureWritten x c' ws hr hws => exact hc
    | playbackWritten x c' ws hr hws => exact hc
    | command d t hrun => exact (runCommand_config hrun).trans hc
    | abandoned d c' n ws hr hws => exact hc
    | observed d offs s' t hheld hrun => exact ((runCommand_config hrun).trans hheld.config).trans hc
    | raced d agent c' n ws u hr hws hrun => exact (runCommand_config hrun).trans hc

/-! ### Idle steps, the host's registers, SETTLED and the configure input -/

/-- Settles O13: with an empty inbox the step is idle. -/
theorem idleStepHoldsState : Obligations.IdleStepHoldsState := fun _ => step_of_idle

/-- Settles O10: each of the four inputs is its handler, which writes the outbox at most. -/
theorem hostRegisterAccess : Obligations.HostRegisterAccess := by
  intro s rest v
  refine ⟨fun h => ?_, fun h => ?_, fun h => ?_, fun h => ?_⟩ <;> rw [step_of_inbox h] <;> rfl

/-- Settles O57: the configure input looks at the configuration it finds and at the one it brings. -/
theorem configureFixesConfiguration : Obligations.ConfigureFixesConfiguration := by
  intro s c rest h
  rw [step_of_inbox h]
  refine ⟨fun hnone hok => ?_, fun hnone hbad => ?_, fun c' hc' => ?_⟩
  · simp only [onInput, onConfigure, hnone, if_pos hok]
  · simp only [onInput, onConfigure, hnone, if_neg hbad]
  · simp only [onInput, onConfigure, hc']

theorem settled_iff (c : Config) (s : State) :
    settled c s = true ↔ s.armed = true ∧ c.settleDelay ≤ s.elapsed ∧ s.captureBusy = false := by
  simp [settled, and_assoc]

theorem settled_of_not_armed {s : State} (h : s.armed = false) (c : Config) : settled c s = false := by
  simp [settled, h]

theorem settled_of_busy {s : State} (h : s.captureBusy = true) (c : Config) : settled c s = false := by
  simp [settled, h]

theorem settled_of_lt {c : Config} {s : State} (h : s.elapsed < c.settleDelay) : settled c s = false := by
  simp [settled, Nat.not_le.2 h]

/-- Settles O7: after reset nothing is armed and both regions are empty. -/
theorem resetLeavesNothingKnown : Obligations.ResetLeavesNothingKnown :=
  ⟨rfl, rfl, settled_of_not_armed rfl, fun _ _ => ⟨rfl, rfl⟩⟩

theorem step_armCapture {s : State} {rest : List Input} (h : s.inbox = .armCapture :: rest) :
    step s = .next { s with inbox := rest, armed := true, elapsed := 0 } := step_of_inbox h

theorem step_elapse {s : State} {time : Nat} {rest : List Input} (h : s.inbox = .elapse time :: rest) :
    step s = .next { s with inbox := rest, elapsed := s.elapsed + time } := step_of_inbox h

/-- Settles O8: arming starts the time at 0, so the time that passes next is the whole of it. -/
theorem settledAfterArmAndDelay : Obligations.SettledAfterArmAndDelay := by
  intro s c time rest hc hquiet hin
  refine ⟨_, _, step_armCapture hin, step_elapse rfl, rfl, ?_, settled_of_not_armed rfl c, settled_of_busy rfl c, ?_⟩
  · simp [settled_iff, hquiet]
  · rintro hdelay v hv
    cases hv
    exact settled_of_lt (Nat.pos_of_ne_zero hdelay)

/-! ### An instruction placed for the next step -/

theorem decodeTableWord_some {nbits w : Nat} {i : Instr} (h : decodeTableWord nbits w = some i) :
    ∃ d, tableDescriptor nbits w = some d ∧ decode defaultMaxStreamLen d = .ok i := by
  unfold decodeTableWord decodeImage at h
  unfold tableDescriptor
  cases hp : parseImage (tableImage nbits w) with
  | error e => simp [hp] at h
  | ok d =>
    cases hd : decode defaultMaxStreamLen d with
    | error e => simp [hp, hd] at h
    | ok j =>
      simp only [hp, hd, Option.some.injEq] at h
      exact ⟨d, rfl, h ▸ hd⟩

/-- In a machine whose configuration is fixed, placing an instruction adds its descriptor to the inputs. -/
theorem withFetchWord_of_descriptor {s : State} {c : Config} (hc : s.config = some c) {nbits w : Nat} {d : Descriptor}
    (h : tableDescriptor nbits w = some d) : s.withFetchWord nbits w = { s with inbox := .command d :: s.inbox } := by
  simp only [State.withFetchWord, placeTableWord, h, hc, Option.getD_some]

/-- Settles O15: the placed descriptor is the next input, and it decodes to the instruction. -/
theorem placedInstructionRunsNext : Obligations.PlacedInstructionRunsNext := by
  intro s c nbits w i hr hlen h
  obtain ⟨d, htable, hdecode⟩ := decodeTableWord_some h
  have hdecode : decode c.maxStreamLen d = .ok i := hlen ▸ hdecode
  rw [withFetchWord_of_descriptor hr.1 htable, step_command rfl]
  exact runCommand_of_decode_ok hr hdecode

/-! ### How every command ends -/

theorem commandEnd_registers {c : Config} {s t : State} {op : BitVec 8} (h : CommandEnd c s op t) :
    ∃ e k n, k < 32 ∧ t.status = endStatus op e (decide (k ≠ 0)) k ∧ t.count = endCount e n := by
  cases h with
  | failed e he => exact ⟨e, 0, 0, by decide, rfl, rfl⟩
  | done k n out ev m d hk hn hw hev hd => exact ⟨.none, k, n, hk, rfl, rfl⟩

theorem commandEnd_lastOp {c : Config} {s t : State} {op : BitVec 8} (h : CommandEnd c s op t) :
    statusLastOp t.status = op := by
  obtain ⟨e, k, n, -, hstatus, -⟩ := commandEnd_registers h
  rw [hstatus, statusLastOp_endStatus]

/-- A descriptor that decodes names a command (R55). -/
theorem cmdOp_mem_of_decode {maxLen : Nat} {d : Descriptor} {i : Instr} (h : decode maxLen d = .ok i) :
    cmdOp d.cmd ∈ legalOpcodes := by
  by_contra hop
  simp only [decode, if_pos hop] at h
  split at h <;> cases h

/-- Settles O23: every end of a command copies CMD[7:0], and a byte that is no opcode does not decode. -/
theorem lastOpIsRawCommandByte : Obligations.LastOpIsRawCommandByte := by
  intro s c d hr
  obtain ⟨t, hrun, hend⟩ := runCommand_end hr d
  refine ⟨t, hrun, commandEnd_lastOp hend, fun hop => ?_⟩
  cases hd : decode c.maxStreamLen d with
  | ok i => exact absurd (cmdOp_mem_of_decode hd) hop
  | error e =>
    rw [runCommand_of_decode_error hr hd] at hrun
    cases hrun
    exact statusErr_endStatus _ .invalidArgument false 0

/-- A field of STATUS that the mask of the reserved bits covers is 0 where the reserved bits are. -/
theorem reservedField_eq_zero {st : Word} (h : statusReserved st = 0) {start len : Nat}
    (hmask : (0xFF00E0F0#32).extractLsb' start len = BitVec.allOnes len) : st.extractLsb' start len = 0 := by
  have hfield := congrArg (BitVec.extractLsb' start len) h
  rwa [statusReserved, BitVec.extractLsb'_and, hmask, BitVec.and_allOnes, BitVec.ofNat_eq_ofNat,
    BitVec.extractLsb'_zero] at hfield

/-- Settles O24: the STATUS of every end is a legal value with DONE set, and the response carries it. -/
theorem commandEndsWithLegalStatus : Obligations.CommandEndsWithLegalStatus := by
  intro s t d h
  obtain ⟨c, -, hend⟩ := runCommand_next h
  obtain ⟨e, k, n, hk, hstatus, hcount⟩ := commandEnd_registers hend
  obtain ⟨hreserved, herr, hwm, hfatal, -⟩ := statusLegal_endStatus (cmdOp d.cmd) e hk
  have hdone := statusDone_endStatus (cmdOp d.cmd) e (decide (k ≠ 0)) k
  have hzero : statusErr t.status ≠ 0 → t.count = 0 := by
    rw [hstatus, hcount]
    exact fun h => endCount_of_statusErr h n
  rw [← hstatus] at hreserved herr hwm hfatal hdone
  exact ⟨hdone, herr, hwm, fun h => ⟨hfatal h, hzero h⟩, reservedField_eq_zero hreserved (by decide),
    reservedField_eq_zero hreserved (by decide), reservedField_eq_zero hreserved (by decide), commandEnd_response hend⟩

/-! ### The frames of the commands -/

theorem exec_next {i : Instr} {s t : State} (h : exec i s = .next t) :
    ∃ c, Ready s c ∧ CommandEnd c s (opcodeOf i) t := by
  obtain ⟨c, hr⟩ := exec_ready h
  obtain ⟨t', hexec, hend⟩ := exec_end hr i
  rw [h] at hexec
  cases hexec
  exact ⟨c, hr, hend⟩

/-- What every command leaves, and the one response it adds. -/
theorem exec_frame {i : Instr} {s t : State} (h : exec i s = .next t) :
    environmentKept s t ∧ ∃ r, t.outbox = s.outbox ++ [.response r] := by
  obtain ⟨c, -, hend⟩ := exec_next h
  obtain ⟨r, hout, -⟩ := commandEnd_response hend
  exact ⟨commandEnd_environment hend, r, hout⟩

/-- A gather fails, or reads its words and delivers what the demultiplexer makes of them. -/
theorem gather_next {op : BitVec 8} {words k : Nat} {demux : List Word → List Element} {c : Config} {s t : State}
    (h : gather op words k demux c s = .next t) :
    t = raiseError op .rangeViolation s ∨
      ∃ cs d, wordsInside c 0 words = true ∧
        readPairs c s.source (settled c s) s.capture (capOffsets c words) s.draws = .ok (cs, d) ∧
        t = finish op .none (decide (k ≠ 0)) k (demux cs).length (demux cs) (readEvents (capOffsets c words))
          (withDraws d s) := by
  unfold gather at h
  split at h
  · cases h
    exact .inl rfl
  · rename_i hrange
    split at h
    · cases h
    · rename_i cs d hreads
      cases h
      exact .inr ⟨cs, d, by simpa using hrange, hreads, rfl⟩

theorem gather_playback {op : BitVec 8} {words k : Nat} {demux : List Word → List Element} {c : Config} {s t : State}
    (h : gather op words k demux c s = .next t) : t.playback = s.playback := by
  rcases gather_next h with rfl | ⟨cs, d, -, -, rfl⟩ <;> rfl

/-- The opcodes of the SCATTER commands (R51). -/
def scatterOpcodes : List (BitVec 8) := [opScatterBram, opScatterUram, opScatterDdr4]

/-- Only a SCATTER command touches the playback region (R33). -/
theorem exec_playback {i : Instr} {s t : State} (h : exec i s = .next t) (hi : opcodeOf i ∉ scatterOpcodes) :
    t.playback = s.playback := by
  cases i with
  | packComplex a b =>
    obtain ⟨c, -, hc⟩ := configured_next h
    split at hc <;> cases hc <;> rfl
  | packReal a =>
    obtain ⟨c, -, hc⟩ := configured_next h
    split at hc <;> cases hc <;> rfl
  | unpackReal a =>
    obtain ⟨c, -, hc⟩ := configured_next h
    cases hc
    rfl
  | scatterBram a => exact absurd (by decide : opScatterBram ∈ scatterOpcodes) hi
  | scatterUram a => exact absurd (by decide : opScatterUram ∈ scatterOpcodes) hi
  | scatterDdr4 a => exact absurd (by decide : opScatterDdr4 ∈ scatterOpcodes) hi
  | gatherReal n =>
    obtain ⟨c, -, hc⟩ := configured_next h
    split at hc
    · cases hc; rfl
    · exact gather_playback hc
  | gatherIq n =>
    obtain ⟨c, -, hc⟩ := configured_next h
    split at hc
    · cases hc; rfl
    · exact gather_playback hc

theorem runCommand_playback {d : Descriptor} {s t : State} (h : runCommand d s = .next t)
    (hop : cmdOp d.cmd ∉ scatterOpcodes) : t.playback = s.playback := by
  obtain ⟨c, hr, -⟩ := runCommand_next h
  cases hd : decode c.maxStreamLen d with
  | error e =>
    rw [runCommand_of_decode_error hr hd] at h
    cases h
    rfl
  | ok i =>
    rw [runCommand_of_decode_ok hr hd] at h
    exact exec_playback h (opcodeOf_decode hd ▸ hop)

/-- Settles O22: no end of a command touches the capture region, and only a SCATTER command the playback region. -/
theorem onlyScattersWriteMemory : Obligations.OnlyScattersWriteMemory := by
  intro s t d h
  obtain ⟨c, -, hend⟩ := runCommand_next h
  obtain ⟨hcapture, -⟩ := commandEnd_environment hend
  refine ⟨hcapture, fun hchanged => ?_⟩
  have hop : cmdOp d.cmd ∈ scatterOpcodes := not_not.1 fun hop => hchanged (runCommand_playback h hop)
  simp only [scatterOpcodes, List.mem_cons, List.not_mem_nil, or_false] at hop
  exact hop

/-- Settles O53: a GATHER is no SCATTER, and the rest is common to every command. -/
theorem gatherFrame : Obligations.GatherFrame := by
  intro s t n h
  have hplayback : t.playback = s.playback := by
    rcases h with h | h
    · exact exec_playback h (by decide : opGatherReal ∉ scatterOpcodes)
    · exact exec_playback h (by decide : opGatherIq ∉ scatterOpcodes)
  obtain ⟨henv, hresponse⟩ := h.elim exec_frame exec_frame
  exact ⟨henv, fun x => by rw [hplayback], fun x => by rw [henv.1], hresponse⟩

/-- The words of a scatter are at the slots of its whole periods (R77). -/
theorem mem_scatterWrites_offset {t : Tech} {a : List Int} {w : Nat × Word} (h : w ∈ scatterWrites t a) :
    ∃ p < a.length / lanes t, ∃ k < lanes t, w.1 = slotOffset t p k := by
  obtain ⟨p, hp, hw⟩ := List.mem_flatMap.1 h
  obtain ⟨k, hk, rfl⟩ := List.mem_map.1 hw
  exact ⟨p, List.mem_range.1 hp, k, List.mem_range.1 hk, rfl⟩

/-- A scatter fails and changes no region, or performs its writes. -/
theorem scatter_next {op : BitVec 8} {t : Tech} {a : List Int} {s u : State} (h : scatter op t a s = .next u) :
    (∃ e, u = raiseError op e s) ∨
      ∃ c m, Ready s c ∧ memWrites c (scatterWrites t a) s.playback = .ok m ∧
        u = finish op .none (decide (a.length % lanes t ≠ 0)) (a.length % lanes t) (a.length / lanes t * lanes t) []
          (writeEvents (scatterWrites t a)) (withPlayback m s) := by
  obtain ⟨c, hr, hc⟩ := configured_next h
  split at hc
  · cases hc; exact .inl ⟨_, rfl⟩
  · split at hc
    · cases hc; exact .inl ⟨_, rfl⟩
    · split at hc
      · cases hc; exact .inl ⟨_, rfl⟩
      · split at hc
        · cases hc
        · rename_i m hm
          cases hc
          exact .inr ⟨c, m, hr, hm, rfl⟩

theorem scatter_draws {op : BitVec 8} {t : Tech} {a : List Int} {s u : State} (h : scatter op t a s = .next u) :
    u.draws = s.draws := by
  rcases scatter_next h with ⟨e, rfl⟩ | ⟨c, m, -, -, rfl⟩ <;> rfl

theorem readByte_scatter_other {op : BitVec 8} {t : Tech} {a : List Int} {s u : State} (h : scatter op t a s = .next u)
    {x : Nat} (hx : ∀ p < a.length / lanes t, ∀ k < lanes t, x < slotOffset t p k ∨ slotOffset t p k + 4 ≤ x) :
    readByte x u.playback = readByte x s.playback := by
  rcases scatter_next h with ⟨e, rfl⟩ | ⟨c, m, -, hm, rfl⟩
  · rfl
  · obtain rfl := memWrites_eq hm
    refine readByte_allWrites_other (fun w hw => ?_) s.playback
    obtain ⟨p, hp, k, hk, hoff⟩ := mem_scatterWrites_offset hw
    rw [hoff]
    exact hx p hp k hk

/-- Settles O46: the three commands are `scatter` under their opcodes. -/
theorem scatterFrame : Obligations.ScatterFrame := by
  intro s u t a h
  have hframe : environmentKept s u ∧ ∃ r, u.outbox = s.outbox ++ [.response r] := by
    rcases h with ⟨-, h⟩ | ⟨-, h⟩ | ⟨-, h⟩ <;> exact exec_frame h
  have hscatter : ∃ op, scatter op t a s = .next u := by
    rcases h with ⟨rfl, h⟩ | ⟨rfl, h⟩ | ⟨rfl, h⟩ <;> exact ⟨_, h⟩
  obtain ⟨henv, hresponse⟩ := hframe
  obtain ⟨op, hscatter⟩ := hscatter
  exact ⟨henv, scatter_draws hscatter, fun x => by rw [henv.1], fun x => readByte_scatter_other hscatter, hresponse⟩

/-! ### COUNT -/

theorem wellFormed_of_decode {maxLen : Nat} {d : Descriptor} {i : Instr} (h : decode maxLen d = .ok i) :
    i.WellFormed maxLen := by
  unfold decode at h
  split_ifs at h with hrsv hop harg hga hb hlen
  have ha : d.a.length ≤ maxLen := by omega
  have hb : d.b.length ≤ maxLen := by omega
  unfold dispatchOp at h
  split_ifs at h <;> cases h <;> simp [Instr.WellFormed, ha, hb]

/-- With the default CAP_ADDR the range check bounds the words of a gather by those of the region. -/
theorem words_le_of_wordsInside {c : Config} (hcap : c.capAddr = defaultCapAddr) {words : Nat}
    (h : wordsInside c 0 words = true) : 4 * words ≤ c.capRegionSize := by
  rcases words with _ | n
  · simp
  · have hlast := (wordsInside_iff c 0 (n + 1)).1 h n (by omega)
    simp [capOffset, hcap, defaultCapAddr] at hlast
    omega

/-- The response of a command that succeeds has the units of its output and of its writes. -/
theorem outputUnits_of_finish {op : BitVec 8} {wm : Bool} {k n : Nat} {out : List Element} {ev : List Event} {s : State}
    {r : Response} (h : lastResponse (finish op .none wm k n out ev s) = some r) :
    outputUnits r = out.length + (eventWrites ev).length := by
  rw [lastResponse_finish] at h
  cases h
  rfl

theorem outputUnits_of_raiseError {op : BitVec 8} {e : ErrorKind} {s : State} {r : Response}
    (h : lastResponse (raiseError op e s) = some r) : outputUnits r = 0 := by
  rw [raiseError, lastResponse_finish] at h
  cases h
  simp [outputUnits, eventWrites]

/-- COUNT after a command is the number of its outputs, as far as 32 bits hold it (R26). -/
theorem commandEnd_count {c : Config} {s t : State} {op : BitVec 8} (h : CommandEnd c s op t) :
    ∃ r, t.outbox = s.outbox ++ [.response r] ∧ lastResponse t = some r ∧
      t.count = BitVec.ofNat 32 (outputUnits r) := by
  cases h with
  | failed e he =>
    have hlast := lastResponse_finish op e false 0 0 [] [] s
    refine ⟨_, rfl, hlast, ?_⟩
    rw [outputUnits_of_raiseError hlast]
    exact endCount_error he 0
  | done k n out ev m d hk hn hw hev hd =>
    have hlast := lastResponse_finish op .none (decide (k ≠ 0)) k n out ev (withDraws d (withPlayback m s))
    refine ⟨_, rfl, hlast, ?_⟩
    rw [outputUnits_of_finish hlast, ← hn]
    rfl

theorem scatter_outputUnits_le {op : BitVec 8} {t : Tech} {a : List Int} {s u : State} {r : Response}
    (h : scatter op t a s = .next u) (hlast : lastResponse u = some r) : outputUnits r ≤ a.length := by
  rcases scatter_next h with ⟨e, rfl⟩ | ⟨c, m, -, -, rfl⟩
  · simp [outputUnits_of_raiseError hlast]
  · rw [outputUnits_of_finish hlast, eventWrites_writeEvents, scatterWrites_length, List.length_nil, Nat.zero_add]
    exact Nat.div_mul_le_self _ _

theorem realSamples_zero_length_le (cs : List Word) : (realSamples 0 cs).length ≤ 2 * cs.length := by
  have h := realSamples_length 0 cs
  simp only [realCount, Nat.zero_add] at h
  omega

theorem iqSamples_length_le (cs : List Word) : (iqSamples cs).length ≤ 2 * cs.length := by
  rw [iqSamples_length]
  omega

/-- A gather makes at most two samples of each word of the capture region. -/
theorem gather_outputUnits_le {op : BitVec 8} {words k : Nat} {demux : List Word → List Element} {c : Config}
    {s t : State} {r : Response} (hr : Ready s c) (hcap : c.capAddr = defaultCapAddr)
    (hdemux : ∀ cs, (demux cs).length ≤ 2 * cs.length) (h : gather op words k demux c s = .next t)
    (hlast : lastResponse t = some r) : 2 * outputUnits r ≤ c.capRegionSize := by
  rcases gather_next h with rfl | ⟨cs, d, hrange, hreads, rfl⟩
  · simp [outputUnits_of_raiseError hlast]
  · obtain ⟨vs, d', hreads', hlength, -⟩ :=
      readPairs_ok (capOffsets_inside hr.2 hrange) s.source (settled c s) s.capture s.draws
    rw [hreads] at hreads'
    cases hreads'
    rw [outputUnits_of_finish hlast, eventWrites_readEvents]
    have hwords := words_le_of_wordsInside hcap hrange
    have hsamples := hdemux cs
    simp only [List.length_map, List.length_range, List.length_nil] at hlength ⊢
    omega

/-- A codec command emits what it computes and issues no access. -/
theorem codec_outputUnits {op : BitVec 8} {n : Nat} {out : List Element} {s : State} {r : Response}
    (hlast : lastResponse (finish op .none false 0 n out [] s) = some r) : outputUnits r = out.length := by
  rw [outputUnits_of_finish hlast]
  rfl

/-- The outputs of a command fit COUNT under the default CAP_ADDR and a stream limit of at most 2^31 - 1 (R26). -/
theorem exec_outputUnits_lt {i : Instr} {s t : State} {c : Config} {r : Response} (hr : Ready s c)
    (hmax : c.maxStreamLen ≤ 2 ^ 31 - 1) (hcap : c.capAddr = defaultCapAddr) (hi : i.WellFormed c.maxStreamLen)
    (h : exec i s = .next t) (hlast : lastResponse t = some r) : outputUnits r < 2 ^ 32 := by
  have ⟨_, _, ⟨_, hregion⟩, _⟩ := hr
  have scatter_lt {op tech} {a : List Int} (ha : a.length ≤ c.maxStreamLen) (h : scatter op tech a s = .next t) :
      outputUnits r < 2 ^ 32 := by
    have := scatter_outputUnits_le h hlast
    omega
  cases i with
  | packComplex a b =>
    obtain ⟨ha, -⟩ := hi
    simp only [exec, execPackComplex, configured_ready hr] at h
    split at h
    · cases h
      simp [outputUnits_of_raiseError hlast]
    · rename_i hab
      cases h
      rw [codec_outputUnits hlast, packComplexOut_length (not_not.1 hab)]
      omega
  | packReal a =>
    have ha : a.length ≤ c.maxStreamLen := hi
    simp only [exec, execPackReal, configured_ready hr] at h
    split at h
    · cases h
      simp [outputUnits_of_raiseError hlast]
    · cases h
      rw [codec_outputUnits hlast, packRealOut_length]
      omega
  | unpackReal a =>
    have ha : a.length ≤ c.maxStreamLen := hi
    simp only [exec, execUnpackReal, configured_ready hr] at h
    cases h
    rw [codec_outputUnits hlast, unpackRealOut_length]
    omega
  | scatterBram a => exact scatter_lt hi h
  | scatterUram a => exact scatter_lt hi h
  | scatterDdr4 a => exact scatter_lt hi h
  | gatherReal n =>
    simp only [exec, execGatherReal, configured_ready hr] at h
    split at h
    · cases h
      simp [outputUnits_of_raiseError hlast]
    · have := gather_outputUnits_le hr hcap realSamples_zero_length_le h hlast
      omega
  | gatherIq n =>
    simp only [exec, execGatherIq, configured_ready hr] at h
    split at h
    · cases h
      simp [outputUnits_of_raiseError hlast]
    · have := gather_outputUnits_le hr hcap iqSamples_length_le h hlast
      omega

/-- Settles O27: COUNT is the number of outputs as far as 32 bits hold it, and they hold it. -/
theorem countIsNumberOfOutputs : Obligations.CountIsNumberOfOutputs := by
  intro s t c d hr hmax hcap h
  obtain ⟨r, hout, hlast, hcount⟩ := commandEnd_count (commandEnd_of_runCommand hr h)
  have hlt : outputUnits r < 2 ^ 32 := by
    cases hd : decode c.maxStreamLen d with
    | error e =>
      rw [runCommand_of_decode_error hr hd] at h
      cases h
      simp [outputUnits_of_raiseError hlast]
    | ok i =>
      rw [runCommand_of_decode_ok hr hd] at h
      exact exec_outputUnits_lt hr hmax hcap (wellFormed_of_decode hd) h hlast
  exact ⟨r, hout, by rw [hcount, BitVec.toNat_ofNat, Nat.mod_eq_of_lt hlt]⟩

/-! ### What a command does not see -/

/-- The end of a command overwrites STATUS and COUNT (R27). -/
theorem finish_withRegisters (op : BitVec 8) (e : ErrorKind) (wm : Bool) (k n : Nat) (out : List Element)
    (ev : List Event) (s : State) (status count : Word) :
    finish op e wm k n out ev { s with status := status, count := count } = finish op e wm k n out ev s := rfl

/-- A command reads neither STATUS nor COUNT before its end overwrites them. -/
theorem exec_withRegisters (i : Instr) (s : State) (status count : Word) :
    exec i { s with status := status, count := count } = exec i s := by
  cases i with
  | packComplex a b => simp only [exec, execPackComplex, configured, raiseError, finish_withRegisters]
  | packReal a => simp only [exec, execPackReal, configured, raiseError, finish_withRegisters]
  | unpackReal a => simp only [exec, execUnpackReal, configured, finish_withRegisters]
  | scatterBram a => rfl
  | scatterUram a => rfl
  | scatterDdr4 a => rfl
  | gatherReal n => rfl
  | gatherIq n => rfl

/-- Settles O12: a descriptor raises an error or runs a command, and neither sees STATUS and COUNT. -/
theorem commandIgnoresEarlierStatus : Obligations.CommandIgnoresEarlierStatus := by
  intro s d status count
  simp only [runCommand, configured, raiseError, finish_withRegisters, exec_withRegisters]

/-- A configuration with other base addresses and another number of instances. -/
def rebased (base capBase n : Nat) (c : Config) : Config :=
  { c with regionBase := base, capRegionBase := capBase, numInstances := n }

/-- The state with another configuration. -/
def withConfig (c : Config) (s : State) : State := { s with config := some c }

@[simp] theorem withConfig_playback (c : Config) (s : State) : (withConfig c s).playback = s.playback := rfl
@[simp] theorem withConfig_capture (c : Config) (s : State) : (withConfig c s).capture = s.capture := rfl
@[simp] theorem withConfig_source (c : Config) (s : State) : (withConfig c s).source = s.source := rfl
@[simp] theorem withConfig_draws (c : Config) (s : State) : (withConfig c s).draws = s.draws := rfl

@[simp] theorem rebased_regionTech (base capBase n : Nat) (c : Config) :
    (rebased base capBase n c).regionTech = c.regionTech := rfl
@[simp] theorem rebased_regionSize (base capBase n : Nat) (c : Config) :
    (rebased base capBase n c).regionSize = c.regionSize := rfl

/-- The answer with another configuration in the state it leads to. -/
def answerWithConfig (c : Config) (x : Answer) : Answer :=
  match x with
  | .next s => .next (withConfig c s)
  | .fault f => .fault f
  | .refused r => .refused r

section
variable {s : State} {c : Config} (base capBase n : Nat)

theorem ready_rebased (hr : Ready s c) :
    Ready (withConfig (rebased base capBase n c) s) (rebased base capBase n c) := ⟨rfl, hr.2⟩

theorem memWrite_rebased (off : Nat) (v : Word) (m : Memory) :
    memWrite (rebased base capBase n c) off v m = memWrite c off v m := rfl

theorem memWrites_rebased (ws : List (Nat × Word)) (m : Memory) :
    memWrites (rebased base capBase n c) ws m = memWrites c ws m := by
  induction ws generalizing m with
  | nil => rfl
  | cons w rest ih => simp only [memWrites, memWrite_rebased, ih]

theorem capOffset_rebased : capOffset (rebased base capBase n c) = capOffset c := rfl

theorem wordsInside_rebased (w k : Nat) : wordsInside (rebased base capBase n c) w k = wordsInside c w k := by
  induction k generalizing w with
  | zero => rfl
  | succ k ih => exact congrArg₂ and rfl (ih (w + 1))

theorem readPair_rebased (source : Nat) (isSettled : Bool) (cm : Memory) (off draw : Nat) :
    readPair (rebased base capBase n c) source isSettled cm off draw = readPair c source isSettled cm off draw := rfl

theorem readPairs_rebased (source : Nat) (isSettled : Bool) (cm : Memory) (offs : List Nat) (draw : Nat) :
    readPairs (rebased base capBase n c) source isSettled cm offs draw = readPairs c source isSettled cm offs draw := by
  induction offs generalizing draw with
  | nil => rfl
  | cons off rest ih => simp only [readPairs, readPair_rebased, ih]

theorem settled_rebased : settled (rebased base capBase n c) (withConfig (rebased base capBase n c) s) = settled c s := rfl

theorem scatter_rebased (hr : Ready s c) (op : BitVec 8) (t : Tech) (a : List Int) :
    scatter op t a (withConfig (rebased base capBase n c) s) =
      answerWithConfig (rebased base capBase n c) (scatter op t a s) := by
  simp only [scatter, configured_ready hr, configured_ready (ready_rebased base capBase n hr), memWrites_rebased,
    withConfig_playback, rebased_regionTech, rebased_regionSize]
  split
  · rfl
  · split
    · rfl
    · split
      · rfl
      · split <;> rfl

theorem gather_rebased (op : BitVec 8) (words k : Nat) (demux : List Word → List Element) :
    gather op words k demux (rebased base capBase n c) (withConfig (rebased base capBase n c) s) =
      answerWithConfig (rebased base capBase n c) (gather op words k demux c s) := by
  simp only [gather, wordsInside_rebased, readPairs_rebased, settled_rebased, capOffset_rebased,
    withConfig_source, withConfig_capture, withConfig_draws]
  split
  · rfl
  · split <;> rfl

/-- A command run under other base addresses and another number of instances ends as it does without (R34, R111). -/
theorem exec_rebased (hr : Ready s c) (i : Instr) :
    exec i (withConfig (rebased base capBase n c) s) = answerWithConfig (rebased base capBase n c) (exec i s) := by
  have hr' := ready_rebased base capBase n hr
  cases i with
  | packComplex a b =>
    simp only [exec, execPackComplex, configured_ready hr, configured_ready hr']
    split <;> rfl
  | packReal a =>
    simp only [exec, execPackReal, configured_ready hr, configured_ready hr']
    split <;> rfl
  | unpackReal a =>
    simp only [exec, execUnpackReal, configured_ready hr, configured_ready hr']
    rfl
  | scatterBram a => exact scatter_rebased base capBase n hr _ _ a
  | scatterUram a => exact scatter_rebased base capBase n hr _ _ a
  | scatterDdr4 a => exact scatter_rebased base capBase n hr _ _ a
  | gatherReal w =>
    simp only [exec, execGatherReal, configured_ready hr, configured_ready hr']
    split
    · rfl
    · exact gather_rebased base capBase n _ _ _ _
  | gatherIq w =>
    simp only [exec, execGatherIq, configured_ready hr, configured_ready hr']
    split
    · rfl
    · exact gather_rebased base capBase n _ _ _ _

theorem runCommand_rebased (hr : Ready s c) (d : Descriptor) :
    runCommand d (withConfig (rebased base capBase n c) s) =
      answerWithConfig (rebased base capBase n c) (runCommand d s) := by
  have hr' := ready_rebased base capBase n hr
  cases hd : decode c.maxStreamLen d with
  | error e => rw [runCommand_of_decode_error hr hd, runCommand_of_decode_error hr' hd]; rfl
  | ok i => rw [runCommand_of_decode_ok hr hd, runCommand_of_decode_ok hr' hd, exec_rebased base capBase n hr i]

end

/-- Settles O18: the run completes, and the run under the other configuration is the same but for that configuration. -/
theorem baseAddressesInvisible : Obligations.BaseAddressesInvisible := by
  intro s c d base capBase n hr
  obtain ⟨t, hrun, -⟩ := runCommand_end hr d
  have hrebased := runCommand_rebased base capBase n hr d
  rw [hrun] at hrebased
  exact ⟨t, hrun, hrebased⟩

/-! ### Accesses of other agents between commands -/

section
variable {s : State} {c : Config} (hr : Ready s c) (off : Nat)
include hr

theorem onCaptureWrite_eq (v : Word) : onCaptureWrite off v s =
    if wordInside c.capRegionSize off then .next (withCapture (writeWord c.mmioByteOrder off v s.capture) s)
    else .refused (.agentAccess off) :=
  configured_ready hr _

theorem onWritePlayback_eq (v : Word) : onWritePlayback off v s =
    if wordInside c.regionSize off then .next (withPlayback (writeWord c.mmioByteOrder off v s.playback) s)
    else .refused (.agentAccess off) :=
  configured_ready hr _

theorem onReadPlayback_some (hin : wordInside c.regionSize off) {w : Word}
    (hw : readWord c.mmioByteOrder off s.playback = some w) :
    onReadPlayback off s = .next (deliver (.playbackRead off w) s) := by
  simp only [onReadPlayback, configured_ready hr, if_pos hin, hw]

theorem onReadPlayback_none (hin : wordInside c.regionSize off) (hw : readWord c.mmioByteOrder off s.playback = none) :
    onReadPlayback off s = .refused (.unwrittenPlayback off) := by
  simp only [onReadPlayback, configured_ready hr, if_pos hin, hw]

theorem onReadPlayback_outside (hout : ¬ wordInside c.regionSize off) :
    onReadPlayback off s = .refused (.agentAccess off) := by
  simp only [onReadPlayback, configured_ready hr, if_neg hout]

theorem onReadInOverlap_eq : onReadInOverlap off s =
    if wordInside c.regionSize off then
      .next (deliver (.playbackRead off (Config.freeWord s.source s.draws)) (withDraws (s.draws + 1) s))
    else .refused (.agentAccess off) :=
  configured_ready hr _

theorem onReadCapture_eq : onReadCapture off s =
    if wordInside c.capRegionSize off then
      .next (deliver (.captureRead off (Config.freeWord s.source s.draws)) (withDraws (s.draws + 1) s))
    else .refused (.agentAccess off) := by
  by_cases hin : wordInside c.capRegionSize off
  · simp only [onReadCapture, configured_ready hr, memReadFirst, if_pos hin]
  · simp only [onReadCapture, configured_ready hr, memReadFirst, if_neg hin]

theorem onReadCapturePair_outside (hout : ¬ wordInside c.capRegionSize off) :
    onReadCapturePair off s = .refused (.agentAccess off) := by
  simp only [onReadCapturePair, configured_ready hr, readPair, memReadFirst, if_neg hout]

theorem onReadCapturePair_settled (hin : wordInside c.capRegionSize off) (hset : settled c s = true) {w : Word}
    (hw : readWord c.mmioByteOrder off s.capture = some w) :
    onReadCapturePair off s = .next (deliver (.captureRead off w) (withDraws (s.draws + 1) s)) := by
  simp only [onReadCapturePair, configured_ready hr, readPair, memReadFirst, memReadSecond, if_pos hin, hset, hw]

theorem onReadCapturePair_free (hin : wordInside c.capRegionSize off)
    (hfree : settled c s = false ∨ readWord c.mmioByteOrder off s.capture = none) :
    onReadCapturePair off s =
      .next (deliver (.captureRead off (Config.freeWord s.source (s.draws + 1))) (withDraws (s.draws + 2) s)) := by
  simp only [onReadCapturePair, configured_ready hr, readPair, memReadFirst, memReadSecond, if_pos hin]
  rcases hfree with hset | hnone
  · simp only [hset]
  · cases settled c s <;> simp only [hnone]

end

/-- A word written at an offset is read there, and every byte outside it is as before (R40). -/
theorem writeWord_sets (order : ByteOrder) (off : Nat) (v : Word) (m : Memory) :
    readWord order off (writeWord order off v m) = some v ∧
      ∀ x, x < off ∨ off + 4 ≤ x → readByte x (writeWord order off v m) = readByte x m :=
  ⟨readWord_writeWord_same order off v m, fun _ hx => readByte_writeWord_other order hx v m⟩

/-- Settles O58: the step is the input's handler on the state without the input, one lemma per handler and case. -/
theorem agentAccessesBetweenCommands : Obligations.AgentAccessesBetweenCommands := by
  intro s c rest off v hr
  have hr' := ready_withInbox hr rest
  refine ⟨fun h => ?captureWrite, fun h => ?writePlayback, fun h => ?readPlayback, fun h => ?readInOverlap,
    fun h => ?readCapture, fun h => ?readCapturePair⟩ <;> rw [step_of_inbox h, onInput]
  case captureWrite =>
    rw [onCaptureWrite_eq hr']
    split
    · exact ⟨_, rfl, writeWord_sets _ _ _ _⟩
    · rfl
  case writePlayback =>
    rw [onWritePlayback_eq hr']
    split
    · exact ⟨_, rfl, writeWord_sets _ _ _ _⟩
    · rfl
  case readPlayback =>
    split
    · rename_i hin
      exact ⟨fun w hw => onReadPlayback_some hr' off hin hw, onReadPlayback_none hr' off hin⟩
    · rename_i hout
      exact onReadPlayback_outside hr' off hout
  case readInOverlap => rw [onReadInOverlap_eq hr']; split <;> rfl
  case readCapture => rw [onReadCapture_eq hr']; split <;> rfl
  case readCapturePair =>
    split
    · rename_i hin
      exact ⟨fun w hset hw => onReadCapturePair_settled hr' off hin hset hw, onReadCapturePair_free hr' off hin⟩
    · rename_i hout
      exact onReadCapturePair_outside hr' off hout

end Sys2Proof.Machine

/-! # Memory (20_memory.md): word writes, races on the playback region, overlapping passes -/

namespace Sys2Proof.Machine

/-! ### Word writes -/

/-- A byte after a word write is a byte of the word, or the one from before. -/
theorem readByte_writeWord (order : ByteOrder) (off : Nat) (v : Word) (m : Memory) (x : Nat) :
    readByte x (writeWord order off v m) =
      if x < off ∨ off + 4 ≤ x then readByte x m else some (wordByte order v (x - off)) := by
  split
  · rename_i hx
    exact readByte_writeWord_other order hx v m
  · obtain ⟨i, rfl⟩ := Nat.exists_eq_add_of_le (show off ≤ x by omega)
    rw [readByte_writeWord_same order off (by omega), Nat.add_sub_cancel_left]

theorem memWrite_inside {c : Config} {off : Nat} (h : wordInside c.regionSize off) (v : Word) (m : Memory) :
    memWrite c off v m = .ok (writeWord c.mmioByteOrder off v m) := if_pos h

theorem allWrites_append (order : ByteOrder) (ws ws' : List (Nat × Word)) (m : Memory) :
    allWrites order (ws ++ ws') m = allWrites order ws' (allWrites order ws m) := by
  induction ws generalizing m with
  | nil => rfl
  | cons w rest ih => exact ih _

/-- A byte after some writes is the one they put there, where they put one, and else the one from before. -/
theorem readByte_allWrites (order : ByteOrder) (x : Nat) (ws : List (Nat × Word)) (m : Memory) :
    readByte x (allWrites order ws m) = (readByte x (allWrites order ws [])).or (readByte x m) := by
  induction ws generalizing m with
  | nil => rfl
  | cons w rest ih =>
    obtain ⟨off, v⟩ := w
    rw [allWrites, allWrites, ih, ih (writeWord order off v []), Option.or_assoc]
    congr 1
    rw [readByte_writeWord, readByte_writeWord]
    split <;> rfl

/-- Writes take no value away. -/
theorem isSome_readByte_allWrites {order : ByteOrder} {x : Nat} {m : Memory} (h : (readByte x m).isSome)
    (ws : List (Nat × Word)) : (readByte x (allWrites order ws m)).isSome := by
  rw [readByte_allWrites, Option.isSome_or, h, Bool.or_true]

theorem isSome_readWord_iff (order : ByteOrder) (off : Nat) (m : Memory) :
    (readWord order off m).isSome ↔ ∀ i < 4, (readByte (off + i) m).isSome := by
  constructor
  · intro h i hi
    unfold readWord at h
    split at h
    · rename_i h0 h1 h2 h3
      interval_cases i <;> simp [*]
    · cases h
  · intro h
    obtain ⟨b0, h0⟩ := Option.isSome_iff_exists.1 (h 0 (by omega))
    obtain ⟨b1, h1⟩ := Option.isSome_iff_exists.1 (h 1 (by omega))
    obtain ⟨b2, h2⟩ := Option.isSome_iff_exists.1 (h 2 (by omega))
    obtain ⟨b3, h3⟩ := Option.isSome_iff_exists.1 (h 3 (by omega))
    rw [Nat.add_zero] at h0
    simp only [readWord, h0, h1, h2, h3, Option.isSome_some]

theorem readWord_eq_none_of_allWrites {order : ByteOrder} {off : Nat} {ws : List (Nat × Word)} {m : Memory}
    (h : readWord order off (allWrites order ws m) = none) : readWord order off m = none := by
  rw [← Option.not_isSome_iff_eq_none, isSome_readWord_iff] at h ⊢
  exact fun hm => h fun i hi => isSome_readByte_allWrites (hm i hi) ws

/-- The four bytes of the word of a write are in the region. -/
def holdsWord (order : ByteOrder) (m : Memory) (w : Nat × Word) : Prop :=
  ∀ i < 4, readByte (w.1 + i) m = some (wordByte order w.2 i)

theorem holdsWord.readWord {order : ByteOrder} {m : Memory} {w : Nat × Word} (h : holdsWord order m w) :
    readWord order w.1 m = some w.2 := by
  rw [← readWord_writeWord_same order w.1 w.2 m]
  exact readWord_congr order fun i hi => by rw [h i hi, readByte_writeWord_same order _ hi]

theorem holdsWord_allWrites {order : ByteOrder} {ws : List (Nat × Word)} (h : disjointWrites ws) {w : Nat × Word}
    (hw : w ∈ ws) (m : Memory) : holdsWord order (allWrites order ws m) w :=
  fun _ hi => readByte_allWrites_mem h hw hi m

theorem disjointWrites.perm {ws ws' : List (Nat × Word)} (h : disjointWrites ws) (hp : ws.Perm ws') :
    disjointWrites ws' :=
  List.Pairwise.perm h hp fun {_ _} hxy => hxy.symm

theorem disjointWrites.apart {ws : List (Nat × Word)} (h : disjointWrites ws) {x y : Nat × Word} (hx : x ∈ ws)
    (hy : y ∈ ws) (hne : x ≠ y) : x.1 + 4 ≤ y.1 ∨ y.1 + 4 ≤ x.1 := by
  have : Std.Symm fun x y : Nat × Word => x.1 + 4 ≤ y.1 ∨ y.1 + 4 ≤ x.1 := ⟨fun _ _ hxy => hxy.symm⟩
  exact List.Pairwise.forall h hx hy hne

/-- Writes to distinct word offsets touch no common byte. -/
theorem disjointWrites_of_nodup {size : Nat} {ws : List (Nat × Word)} (hin : ∀ w ∈ ws, wordInside size w.1)
    (h : (ws.map Prod.fst).Nodup) : disjointWrites ws := by
  rw [List.nodup_iff_pairwise_ne, List.pairwise_map] at h
  refine h.imp_of_mem fun {x y} hx hy hne => ?_
  have hx := hin x hx
  have hy := hin y hy
  omega

/-- Disjoint writes in any order leave the same region (R40, R84). -/
theorem allWrites_perm {order : ByteOrder} {ws ws' : List (Nat × Word)} (h : disjointWrites ws) (hp : ws.Perm ws')
    {m : Memory} (hm : m.wf) : allWrites order ws m = allWrites order ws' m := by
  refine memory_ext (allWrites_wf hm) (allWrites_wf hm) fun x => ?_
  by_cases hx : ∃ w ∈ ws, w.1 ≤ x ∧ x < w.1 + 4
  · obtain ⟨w, hw, hle, hlt⟩ := hx
    obtain ⟨i, rfl⟩ := Nat.exists_eq_add_of_le hle
    have hi : i < 4 := by omega
    rw [readByte_allWrites_mem h hw hi, readByte_allWrites_mem (h.perm hp) (hp.mem_iff.1 hw) hi]
  · have hother : ∀ w ∈ ws, x < w.1 ∨ w.1 + 4 ≤ x := fun w hw => by
      by_contra hin
      exact hx ⟨w, hw, by omega⟩
    rw [readByte_allWrites_other hother, readByte_allWrites_other fun w hw => hother w (hp.mem_iff.2 hw)]

theorem writeWord_idem (order : ByteOrder) (off : Nat) (v : Word) {m : Memory} (hm : m.wf) :
    writeWord order off v (writeWord order off v m) = writeWord order off v m := by
  refine memory_ext (writeWord_wf _ _ _ (writeWord_wf _ _ _ hm)) (writeWord_wf _ _ _ hm) fun x => ?_
  simp only [readByte_writeWord]
  split <;> rfl

/-- Settles O44: all the writes land in either order, and the writes of a scatter are disjoint. -/
theorem writeOrderIsIrrelevant : Obligations.WriteOrderIsIrrelevant := by
  intro c t a m ws hm hfit hp
  have hin := scatterWrites_inside hfit
  refine ⟨_, memWrites_ok hin m, ?_⟩
  rw [memWrites_ok (fun w hw => hin w (hp.mem_iff.1 hw)) m, allWrites_perm (scatterWrites_disjoint t a) hp.symm hm]

/-- Settles O45: the write is `writeWord`, and a pair of writes to two words is a list of disjoint writes. -/
theorem writeSetsOneWord : Obligations.WriteSetsOneWord := by
  intro c off v m hm hin
  obtain ⟨hsame, hother⟩ := writeWord_sets c.mmioByteOrder off v m
  refine ⟨_, memWrite_inside hin v m, hsame, hother, ?_, fun off' v' m1 hin' hne h => ?_⟩
  · rw [memWrite_inside hin, writeWord_idem _ _ _ hm]
  · rw [memWrite_inside hin'] at h
    cases h
    have hdisjoint : disjointWrites [(off, v), (off', v')] := by
      simp only [disjointWrites, List.pairwise_pair]
      omega
    refine ⟨_, memWrite_inside hin' v' _, ?_⟩
    rw [memWrite_inside hin]
    exact congrArg Except.ok (allWrites_perm hdisjoint (List.Perm.swap _ _ _) hm).symm

/-- Settles O49: the first read of a pair takes one draw, the second one more unless it finds the word. -/
theorem readPairKeepsSecondRead : Obligations.ReadPairKeepsSecondRead := by
  intro c source cm off draw hin
  refine ⟨fun v hv => ?_, fun hnone => ?_, ?_⟩
  · simp only [readPair, memReadFirst, memReadSecond, if_pos hin, hv]
  · simp only [readPair, memReadFirst, memReadSecond, if_pos hin, hnone]
  · simp only [readPair, memReadFirst, memReadSecond, if_pos hin]

/-! ### Commands without a usable configuration -/

theorem configured_none {s : State} (h : s.config = none) (f : Config → Answer) :
    configured s f = .refused .unconfigured := by
  simp only [configured, h]

theorem configured_illFormed {s : State} {c : Config} (h : s.config = some c) (hbad : ¬ configOk c)
    (f : Config → Answer) : configured s f = .refused .illFormedConfiguration := by
  simp only [configured, h, if_neg hbad]

/-- Every command asks for the configuration first. -/
theorem exec_refused {s : State} {r : Refusal} (h : ∀ f, configured s f = .refused r) (i : Instr) :
    exec i s = .refused r := by
  cases i <;> exact h _

/-- Settles O16: `runCommand` and every command ask for the configuration first. -/
theorem commandNeedsConfiguration : Obligations.CommandNeedsConfiguration := by
  intro s d i
  refine ⟨fun hnone => ?_, fun c hc hbad => ?_⟩
  · exact ⟨configured_none hnone _, exec_refused (configured_none hnone) i⟩
  · exact ⟨configured_illFormed hc hbad _, exec_refused (configured_illFormed hc hbad) i⟩

/-! ### Two runs of one command -/

/-- How two runs of one command end, from machines of one configuration and one playback region: with the same accesses,
whose writes are disjoint. Only the output of a GATHER and the draws it makes can differ, and these only where the runs read
different things. -/
inductive PairedEnd (c : Config) (s s' : State) (op : BitVec 8) : State → State → Prop where
  | intro (e : ErrorKind) (wm : Bool) (k n : Nat) (out out' : List Element) (ev : List Event) (m : Memory) (d d' : Nat)
      (hev : disjointWrites (eventWrites ev))
      (hcodec : op ∉ gatherOpcodes → out' = out ∧ d = s.draws ∧ d' = s'.draws)
      (hread : s'.source = s.source → settled c s' = settled c s → s'.capture = s.capture → s'.draws = s.draws →
        out' = out ∧ d' = d) :
      PairedEnd c s s' op (finish op e wm k n out ev (withDraws d (withPlayback m s)))
        (finish op e wm k n out' ev (withDraws d' (withPlayback m s')))

section
variable {c : Config} {s s' : State}

theorem withPlayback_of_eq {m : Memory} (h : s.playback = m) : withPlayback m s = s := by
  rw [← h]
  rfl

/-- A command that reads nothing ends alike in both runs; `m` is the playback region it leaves. -/
theorem PairedEnd.of_finish (op : BitVec 8) (e : ErrorKind) (wm : Bool) (k n : Nat) (out : List Element)
    {ev : List Event} (hev : disjointWrites (eventWrites ev)) (m : Memory) :
    PairedEnd c s s' op (finish op e wm k n out ev (withPlayback m s)) (finish op e wm k n out ev (withPlayback m s')) :=
  .intro e wm k n out out ev m s.draws s'.draws hev (fun _ => ⟨rfl, rfl, rfl⟩) fun _ _ _ hdraws => ⟨rfl, hdraws⟩

/-- A command that issues no access ends alike in both runs. -/
theorem PairedEnd.of_no_access (hm : s'.playback = s.playback) (op : BitVec 8) (e : ErrorKind) (wm : Bool)
    (k n : Nat) (out : List Element) :
    PairedEnd c s s' op (finish op e wm k n out [] s) (finish op e wm k n out [] s') := by
  have h := PairedEnd.of_finish (c := c) (s := s) (s' := s') op e wm k n out (ev := []) .nil s.playback
  rwa [withPlayback_of_eq hm] at h

theorem scatter_paired (hr : Ready s c) (hr' : Ready s' c) (hm : s'.playback = s.playback) (op : BitVec 8) (t : Tech)
    (a : List Int) : ∃ u u', scatter op t a s = .next u ∧ scatter op t a s' = .next u' ∧ PairedEnd c s s' op u u' := by
  simp only [scatter, configured_ready hr, configured_ready hr', hm]
  split
  · exact ⟨_, _, rfl, rfl, .of_no_access hm ..⟩
  · split
    · exact ⟨_, _, rfl, rfl, .of_no_access hm ..⟩
    · split
      · exact ⟨_, _, rfl, rfl, .of_no_access hm ..⟩
      · rename_i hfit
        rw [memWrites_ok (scatterWrites_inside (Nat.le_of_not_lt hfit))]
        refine ⟨_, _, rfl, rfl, .of_finish (hev := ?_) ..⟩
        rw [eventWrites_writeEvents]
        exact scatterWrites_disjoint t a

theorem gather_paired (hc : configOk c) (hm : s'.playback = s.playback) {op : BitVec 8} (hop : op ∈ gatherOpcodes)
    (words k : Nat) {demux : List Word → List Element}
    (hdemux : ∀ cs cs' : List Word, cs'.length = cs.length → (demux cs').length = (demux cs).length) :
    ∃ u u', gather op words k demux c s = .next u ∧ gather op words k demux c s' = .next u' ∧
      PairedEnd c s s' op u u' := by
  unfold gather
  split
  · exact ⟨_, _, rfl, rfl, .of_no_access hm ..⟩
  · rename_i hrange
    have hin := capOffsets_inside hc (by simpa using hrange : wordsInside c 0 words = true)
    obtain ⟨cs, d, hcs, hlength, -⟩ := readPairs_ok hin s.source (settled c s) s.capture s.draws
    obtain ⟨cs', d', hcs', hlength', -⟩ := readPairs_ok hin s'.source (settled c s') s'.capture s'.draws
    rw [hcs, hcs']
    dsimp only
    rw [hdemux cs cs' (hlength'.trans hlength.symm)]
    have hend := PairedEnd.intro (c := c) (s := s) (s' := s') (op := op) .none (decide (k ≠ 0)) k (demux cs).length
      (demux cs) (demux cs') (readEvents (capOffsets c words)) s.playback d d'
      (by rw [eventWrites_readEvents]; exact .nil) (fun h => absurd hop h) fun hsource hsettled hcapture hdraws => by
        rw [hsource, hsettled, hcapture, hdraws, hcs] at hcs'
        cases hcs'
        exact ⟨rfl, rfl⟩
    rw [withPlayback_of_eq hm] at hend
    exact ⟨_, _, rfl, rfl, hend⟩

/-- In two machines of one configuration and one playback region a command completes alike. -/
theorem exec_paired (hr : Ready s c) (hr' : Ready s' c) (hm : s'.playback = s.playback) (i : Instr) :
    ∃ t t', exec i s = .next t ∧ exec i s' = .next t' ∧ PairedEnd c s s' (opcodeOf i) t t' := by
  cases i with
  | packComplex a b =>
    simp only [exec, execPackComplex, configured_ready hr, configured_ready hr']
    split <;> exact ⟨_, _, rfl, rfl, .of_no_access hm ..⟩
  | packReal a =>
    simp only [exec, execPackReal, configured_ready hr, configured_ready hr']
    split <;> exact ⟨_, _, rfl, rfl, .of_no_access hm ..⟩
  | unpackReal a =>
    simp only [exec, execUnpackReal, configured_ready hr, configured_ready hr']
    exact ⟨_, _, rfl, rfl, .of_no_access hm ..⟩
  | scatterBram a => exact scatter_paired hr hr' hm _ _ a
  | scatterUram a => exact scatter_paired hr hr' hm _ _ a
  | scatterDdr4 a => exact scatter_paired hr hr' hm _ _ a
  | gatherReal n =>
    simp only [exec, execGatherReal, configured_ready hr, configured_ready hr']
    split
    · exact ⟨_, _, rfl, rfl, .of_no_access hm ..⟩
    · refine gather_paired hr.2 hm (by decide) _ _ fun cs cs' hlength => ?_
      have h := realSamples_length 0 cs
      have h' := realSamples_length 0 cs'
      rw [hlength] at h'
      omega
  | gatherIq n =>
    simp only [exec, execGatherIq, configured_ready hr, configured_ready hr']
    split
    · exact ⟨_, _, rfl, rfl, .of_no_access hm ..⟩
    · refine gather_paired hr.2 hm (by decide) _ _ fun cs cs' hlength => ?_
      rw [iqSamples_length, iqSamples_length, hlength]

/-- In two machines of one configuration and one playback region a descriptor completes alike. -/
theorem runCommand_paired (hr : Ready s c) (hr' : Ready s' c) (hm : s'.playback = s.playback) (d : Descriptor) :
    ∃ t t', runCommand d s = .next t ∧ runCommand d s' = .next t' ∧ PairedEnd c s s' (cmdOp d.cmd) t t' := by
  cases hd : decode c.maxStreamLen d with
  | error e =>
    rw [runCommand_of_decode_error hr hd, runCommand_of_decode_error hr' hd]
    exact ⟨_, _, rfl, rfl, .of_no_access hm ..⟩
  | ok i =>
    rw [runCommand_of_decode_ok hr hd, runCommand_of_decode_ok hr' hd, ← opcodeOf_decode hd]
    exact exec_paired hr hr' hm i

variable {op : BitVec 8} {t t' : State}

/-- What the two runs have in common whatever they read. -/
theorem PairedEnd.alike (h : PairedEnd c s s' op t t') :
    t'.status = t.status ∧ t'.count = t.count ∧ t'.playback = t.playback ∧ lastEvents t' = lastEvents t := by
  obtain ⟨e, wm, k, n, out, out', ev, m, d, d', hev, hcodec, hread⟩ := h
  exact ⟨rfl, rfl, rfl, by rw [lastEvents_finish, lastEvents_finish]⟩

theorem PairedEnd.disjoint (h : PairedEnd c s s' op t t') : disjointWrites (lastWrites t) := by
  obtain ⟨e, wm, k, n, out, out', ev, m, d, d', hev, hcodec, hread⟩ := h
  rwa [lastWrites, lastEvents_finish]

/-- Runs that read the same send the same response. -/
theorem PairedEnd.outbox_eq (h : PairedEnd c s s' op t t') (hout : s'.outbox = s.outbox) (hsource : s'.source = s.source)
    (hsettled : settled c s' = settled c s) (hcapture : s'.capture = s.capture) (hdraws : s'.draws = s.draws) :
    t'.outbox = t.outbox := by
  obtain ⟨e, wm, k, n, out, out', ev, m, d, d', hev, hcodec, hread⟩ := h
  obtain ⟨rfl, rfl⟩ := hread hsource hsettled hcapture hdraws
  simp only [finish_outbox, withDraws_outbox, withPlayback_outbox, hout]

/-- A command that is no GATHER ends in the same state, but for the draw index, from a later draw index. -/
theorem PairedEnd.withDraws {n : Nat} (h : PairedEnd c s { s with draws := n } op t t') (hop : op ∉ gatherOpcodes) :
    t' = { t with draws := n } := by
  obtain ⟨e, wm, k, n, out, out', ev, m, d, d', hev, hcodec, hread⟩ := h
  obtain ⟨rfl, rfl, rfl⟩ := hcodec hop
  rfl

/-- Only a GATHER draws free values. -/
theorem PairedEnd.draws (h : PairedEnd c s s' op t t') (hop : op ∉ gatherOpcodes) : t.draws = s.draws := by
  obtain ⟨e, wm, k, n, out, out', ev, m, d, d', hev, hcodec, hread⟩ := h
  obtain ⟨-, rfl, -⟩ := hcodec hop
  rfl

/-- What was delivered before a command does not change it. -/
theorem PairedEnd.deliverAll {xs : List Delivery} (h : PairedEnd c s (deliverAll xs s) op t t') :
    ∃ r, t.outbox = s.outbox ++ [.response r] ∧ r.events = lastEvents t ∧
      t' = { t with outbox := s.outbox ++ xs ++ [.response r] } := by
  obtain ⟨e, wm, k, n, out, out', ev, m, d, d', hev, hcodec, hread⟩ := h
  obtain ⟨rfl, rfl⟩ := hread rfl rfl rfl rfl
  exact ⟨_, rfl, (lastEvents_finish ..).symm, rfl⟩

end

theorem exec_draws {i : Instr} {s t : State} (h : exec i s = .next t) (hi : opcodeOf i ∉ gatherOpcodes) :
    t.draws = s.draws := by
  obtain ⟨c, hr⟩ := exec_ready h
  obtain ⟨u, u', hu, -, hpair⟩ := exec_paired hr hr rfl i
  rw [h] at hu
  cases hu
  exact hpair.draws hi

/-- Settles O36: a codec command is neither a SCATTER nor a GATHER, and the rest is common to every command. -/
theorem codecFrame : Obligations.CodecFrame := by
  intro s t a b h
  obtain ⟨i, hexec, hscatter, hgather⟩ : ∃ i, exec i s = .next t ∧ opcodeOf i ∉ scatterOpcodes ∧
      opcodeOf i ∉ gatherOpcodes := by
    rcases h with h | h | h
    · exact ⟨_, h, (by decide : opPackComplex ∉ scatterOpcodes), (by decide : opPackComplex ∉ gatherOpcodes)⟩
    · exact ⟨_, h, (by decide : opPackReal ∉ scatterOpcodes), (by decide : opPackReal ∉ gatherOpcodes)⟩
    · exact ⟨_, h, (by decide : opUnpackReal ∉ scatterOpcodes), (by decide : opUnpackReal ∉ gatherOpcodes)⟩
  obtain ⟨henv, hresponse⟩ := exec_frame hexec
  exact ⟨henv, exec_draws hexec hgather, fun x => by rw [exec_playback hexec hscatter], fun x => by rw [henv.1],
    hresponse⟩

/-! ### Other agents' reads during a command -/

theorem exists_find?_eq_some {α : Type} {p : α → Bool} {xs : List α} (h : ∃ x ∈ xs, p x = true) :
    ∃ x ∈ xs, p x = true ∧ xs.find? p = some x := by
  obtain ⟨x, hx⟩ := Option.isSome_iff_exists.1 (List.find?_isSome.2 h)
  exact ⟨x, List.mem_of_find?_eq_some hx, List.find?_some hx, hx⟩

theorem commandEnd_playback {c : Config} {s t : State} {op : BitVec 8} (h : CommandEnd c s op t) :
    t.playback = allWrites c.mmioByteOrder (lastWrites t) s.playback :=
  memWrites_eq (commandEnd_writes h)

section
variable {s done : State} {c : Config} {d : Descriptor} {offs : List Nat} (hr : Ready s c)
include hr

theorem onReadsDuring_outside (d : Descriptor) (hout : ∃ off ∈ offs, ¬ wordInside c.regionSize off) :
    ∃ off ∈ offs, ¬ wordInside c.regionSize off ∧ onReadsDuring d offs s = .refused (.agentAccess off) := by
  obtain ⟨off, hoff, hp, hfind⟩ :=
    exists_find?_eq_some (p := fun off => !decide (wordInside c.regionSize off)) (xs := offs)
      (by simpa only [Bool.not_eq_true', decide_eq_false_iff_not] using hout)
  refine ⟨off, hoff, by simpa only [Bool.not_eq_true', decide_eq_false_iff_not] using hp, ?_⟩
  simp only [onReadsDuring, configured_ready hr, hfind]

theorem onReadsDuring_unwritten (hin : ∀ off ∈ offs, wordInside c.regionSize off) (hrun : runCommand d s = .next done)
    (hnone : ∃ off ∈ offs, readWord c.mmioByteOrder off done.playback = none) :
    ∃ off ∈ offs, readWord c.mmioByteOrder off done.playback = none ∧
      onReadsDuring d offs s = .refused (.unwrittenPlayback off) := by
  obtain ⟨off, hoff, hp, hfind⟩ :=
    exists_find?_eq_some (p := fun off => (readWord c.mmioByteOrder off done.playback).isNone) (by simpa using hnone)
  have hinside : offs.find? (fun off => !decide (wordInside c.regionSize off)) = none := by simpa using hin
  refine ⟨off, hoff, Option.isNone_iff_eq_none.1 hp, ?_⟩
  simp only [onReadsDuring, configured_ready hr, hinside, hrun, hfind]

theorem onReadsDuring_written (hin : ∀ off ∈ offs, wordInside c.regionSize off) (hrun : runCommand d s = .next done)
    (hsome : ∀ off ∈ offs, readWord c.mmioByteOrder off done.playback ≠ none) :
    onReadsDuring d offs s =
      runCommand d (deliverAll (observations c.mmioByteOrder s.playback done.playback s.source s.draws offs)
        (withDraws (s.draws + offs.length) s)) := by
  have hinside : offs.find? (fun off => !decide (wordInside c.regionSize off)) = none := by simpa using hin
  have hwritten : offs.find? (fun off => (readWord c.mmioByteOrder off done.playback).isNone) = none := by
    simpa using hsome
  simp only [onReadsDuring, configured_ready hr, hinside, hrun, hwritten]

end

theorem observations_length (order : ByteOrder) (old new : Memory) (source draw : Nat) (offs : List Nat) :
    (observations order old new source draw offs).length = offs.length := by
  induction offs generalizing draw with
  | nil => rfl
  | cons off rest ih => exact congrArg Nat.succ (ih _)

/-- Each read delivers the old word or the new one, or, of a word with no old value, the free value of its draw (R44). -/
theorem observations_getElem? {order : ByteOrder} {old new : Memory} {offs : List Nat}
    (hnew : ∀ off ∈ offs, readWord order off new ≠ none) (source draw : Nat) {i off : Nat} (hi : offs[i]? = some off) :
    ∃ v, (observations order old new source draw offs)[i]? = some (.playbackRead off v) ∧
      (readWord order off old = some v ∨ readWord order off new = some v ∨
        (readWord order off old = none ∧ v = Config.freeWord source (draw + i))) := by
  induction offs generalizing draw i with
  | nil => simp at hi
  | cons first rest ih =>
    cases i with
    | zero =>
      obtain rfl : first = off := by simpa using hi
      obtain ⟨w, hw⟩ := Option.ne_none_iff_exists'.1 (hnew first (by simp))
      simp only [observations, List.getElem?_cons_zero, hw]
      cases Config.freeChoice source draw first with
      | true => exact ⟨w, rfl, .inr (.inl rfl)⟩
      | false =>
        cases hold : readWord order first old with
        | some v => exact ⟨v, rfl, .inl rfl⟩
        | none => exact ⟨_, rfl, .inr (.inr ⟨rfl, rfl⟩)⟩
    | succ i =>
      rw [show draw + (i + 1) = draw + 1 + i by omega]
      exact ih (fun off hoff => hnew off (by simp [hoff])) (draw + 1) (by simpa using hi)

/-- Settles O55: the command runs from a later draw index, and what was delivered before it does not change it. -/
theorem readsDuringCommandSeeOldOrNew : Obligations.ReadsDuringCommandSeeOldOrNew := by
  intro s c d offs hr
  have hr' : Ready { s with draws := s.draws + offs.length } c := hr
  obtain ⟨done, after, hdone, hafter, hpair⟩ := runCommand_paired hr hr' rfl d
  obtain ⟨hstatus, hcount, hplayback, hevents⟩ := hpair.alike
  have hdeliver : ∀ xs, ∃ r, after.outbox = s.outbox ++ [.response r] ∧ r.events = lastEvents after ∧
      runCommand d (deliverAll xs (withDraws (s.draws + offs.length) s)) =
        .next { after with outbox := s.outbox ++ xs ++ [.response r] } := fun xs => by
    obtain ⟨u, u', hu, hu', hpair⟩ :=
      runCommand_paired hr' (s' := deliverAll xs (withDraws (s.draws + offs.length) s)) hr rfl d
    rw [hafter] at hu
    cases hu
    obtain ⟨r, hout, hevents, rfl⟩ := hpair.deliverAll
    exact ⟨r, hout, hevents, hu'⟩
  obtain ⟨r, hout, hrevents, hrun⟩ :=
    hdeliver (observations c.mmioByteOrder s.playback done.playback s.source s.draws offs)
  refine ⟨done, after, r, hdone, hafter, hout, hplayback, hstatus, hcount, hrevents.trans hevents, hpair.withDraws,
    onReadsDuring_outside hr d, fun hin hnone => ?_, fun hoffs => ?_⟩
  · obtain ⟨off, hoff, hnone, hrefused⟩ := onReadsDuring_unwritten hr hin hdone hnone
    have hplayback := commandEnd_playback (commandEnd_of_runCommand hr hdone)
    exact ⟨off, hoff, hnone, readWord_eq_none_of_allWrites (hplayback ▸ hnone), hrefused⟩
  · have hsome := fun off hoff => (hoffs off hoff).2
    refine ⟨_, (onReadsDuring_written hr (fun off hoff => (hoffs off hoff).1) hdone hsome).trans hrun,
      observations_length .., fun i off hi => observations_getElem? hsome _ _ hi⟩

/-! ### Other agents' writes during a command -/

theorem onWritesDuring_inside {s done : State} {c : Config} {d : Descriptor} {ws : List (Nat × Word)} (hr : Ready s c)
    (hin : ∀ w ∈ ws, wordInside c.regionSize w.1) (hrun : runCommand d s = .next done) :
    onWritesDuring d ws s = .next (withDraws (done.draws + 1) (withPlayback
      (racingWrites c.mmioByteOrder done.source done.draws ((lastWrites done).map Prod.fst) ws done.playback) done)) := by
  have hinside : ws.find? (fun w => !decide (wordInside c.regionSize w.1)) = none := by simpa using hin
  simp only [onWritesDuring, configured_ready hr, hinside, hrun]

/-- Of disjoint writes that race a command's, each lands, or leaves a word that the command wrote (R46). -/
theorem readWord_racingWrites {order : ByteOrder} {ws : List (Nat × Word)} (h : disjointWrites ws) (source draw : Nat)
    (own : List Nat) (m : Memory) {w : Nat × Word} (hw : w ∈ ws) :
    readWord order w.1 (racingWrites order source draw own ws m) = some w.2 ∨
      (w.1 ∈ own ∧ readWord order w.1 (racingWrites order source draw own ws m) = readWord order w.1 m) := by
  rw [racingWrites_eq_allWrites]
  by_cases hlost : w.1 ∈ own ∧ Config.freeChoice source draw w.1 = false
  · refine .inr ⟨hlost.1, readWord_congr order fun i hi => readByte_allWrites_other (fun x hx => ?_) m⟩
    obtain ⟨hx, hlanded⟩ := List.mem_filter.1 hx
    have hne : w ≠ x := by
      rintro rfl
      exact of_decide_eq_true hlanded hlost
    have := h.apart hw hx hne
    omega
  · exact .inl (holdsWord_allWrites (h.filter _) (List.mem_filter.2 ⟨hw, decide_eq_true hlost⟩) m).readWord

/-- Settles O56: the agent's writes are disjoint, and race those of the command. -/
theorem racingWritesLeaveEitherWord : Obligations.RacingWritesLeaveEitherWord := by
  intro s c d ws hr hin hnodup
  obtain ⟨done, hrun, -⟩ := runCommand_end hr d
  refine ⟨done, _, hrun, onWritesDuring_inside hr hin hrun, rfl, rfl, rfl, fun w hw => ?_, fun x hx => ?_⟩
  · exact readWord_racingWrites (disjointWrites_of_nodup hin hnodup) _ _ _ _ hw
  · simp only [withDraws_playback, withPlayback_playback, racingWrites_eq_allWrites]
    exact readByte_allWrites_other (fun w hw => hx w (List.mem_of_mem_filter hw)) _

/-! ### Regions that overlap -/

/-- Two regions hold the same bytes at the addresses of both. -/
def regionsAlike (base size : Nat) (m : Memory) (base' size' : Nat) (m' : Memory) : Prop :=
  ∀ x y, x < size → y < size' → base + x = base' + y → readByte x m = readByte y m'

/-- At the addresses of both regions `m` holds a value where `m'` does. -/
def regionCovers (base size : Nat) (m : Memory) (base' size' : Nat) (m' : Memory) : Prop :=
  ∀ x y, x < size → y < size' → base + x = base' + y → (readByte y m').isSome → (readByte x m).isSome

section
variable {base size base' size' base₁ size₁ base₂ size₂ : Nat} {src dst m m' : Memory}

theorem regionsAlike.symm (h : regionsAlike base size m base' size' m') : regionsAlike base' size' m' base size m :=
  fun x y hx hy hxy => (h y x hy hx hxy.symm).symm

theorem regionsAlike.covers (h : regionsAlike base size m base' size' m') : regionCovers base size m base' size' m' :=
  fun x y hx hy hxy hsome => by rwa [h x y hx hy hxy]

/-- A mirrored byte at an address of both regions. -/
theorem readByte_mirrorBytes_shared (hsrc : src.wf) (dst : Memory) {x y : Nat} (hx : x < size) (hy : y < size')
    (hxy : base + x = base' + y) :
    readByte y (mirrorBytes base size base' size' src dst) = (readByte x src).or (readByte y dst) := by
  rw [readByte_mirrorBytes _ _ _ _ _ hsrc, if_pos (by omega), show base' + y - base = x by omega]

/-- A byte at an address outside the mirrored region. -/
theorem readByte_mirrorBytes_unshared (hsrc : src.wf) (dst : Memory) {y : Nat}
    (hy : base' + y < base ∨ base + size ≤ base' + y) :
    readByte y (mirrorBytes base size base' size' src dst) = readByte y dst := by
  rw [readByte_mirrorBytes _ _ _ _ _ hsrc, if_neg (by omega)]

/-- Mirroring takes no value away. -/
theorem isSome_readByte_mirrorBytes (hsrc : src.wf) {y : Nat} (h : (readByte y dst).isSome) :
    (readByte y (mirrorBytes base size base' size' src dst)).isSome := by
  rw [readByte_mirrorBytes _ _ _ _ _ hsrc]
  split
  · rw [Option.isSome_or, h, Bool.or_true]
  · exact h

/-- A region mirrored into one it covers is like it. -/
theorem regionsAlike_mirrorBytes_of_covers (hsrc : src.wf) (h : regionCovers base size src base' size' dst) :
    regionsAlike base size src base' size' (mirrorBytes base size base' size' src dst) := by
  intro x y hx hy hxy
  rw [readByte_mirrorBytes_shared hsrc dst hx hy hxy]
  cases hsome : readByte x src with
  | some b => rfl
  | none =>
    have hnone := mt (h x y hx hy hxy) (by simp [hsome])
    exact (Option.not_isSome_iff_eq_none.1 hnone).symm

/-- Two regions stay alike when one region is mirrored into both. -/
theorem regionsAlike.mirrorBytes (hsrc : src.wf) (h : regionsAlike base₁ size₁ m base₂ size₂ m') :
    regionsAlike base₁ size₁ (mirrorBytes base size base₁ size₁ src m)
      base₂ size₂ (mirrorBytes base size base₂ size₂ src m') := by
  intro x y hx hy hxy
  rw [readByte_mirrorBytes _ _ _ _ _ hsrc, readByte_mirrorBytes _ _ _ _ _ hsrc, ← hxy, h x y hx hy hxy]
  simp only [hx, hy]

theorem regionCovers_mirrorBytes (hsrc : src.wf) (dst : Memory) :
    regionCovers base' size' (mirrorBytes base size base' size' src dst) base size src :=
  fun x y hx hy hxy hsome => by
    rw [readByte_mirrorBytes_shared hsrc dst hy hx hxy.symm, Option.isSome_or, hsome, Bool.true_or]

/-- What covers two regions covers the one mirrored into the other. -/
theorem regionCovers.mirrorBytes (hsrc : src.wf) (h : regionCovers base size m base₁ size₁ src)
    (h' : regionCovers base size m base₂ size₂ m') :
    regionCovers base size m base₂ size₂ (mirrorBytes base₁ size₁ base₂ size₂ src m') := by
  intro x y hx hy hxy hsome
  by_cases hin : base₁ ≤ base₂ + y ∧ base₂ + y < base₁ + size₁
  · obtain ⟨z, hz⟩ := Nat.exists_eq_add_of_le hin.1
    have hzlt : z < size₁ := by omega
    rw [readByte_mirrorBytes_shared hsrc m' hzlt hy hz.symm, Option.isSome_or, Bool.or_eq_true] at hsome
    rcases hsome with hsome | hsome
    · exact h x z hx hzlt (hxy.trans hz) hsome
    · exact h' x y hx hy hxy hsome
  · rw [readByte_mirrorBytes_unshared hsrc m' (by omega)] at hsome
    exact h' x y hx hy hxy hsome

end

/-! ### Systems of machines that share regions -/

/-- The regions of a machine are in canonical form, and empty before they are bound. -/
abbrev Formed (s : State) : Prop :=
  s.playback.wf ∧ s.capture.wf ∧ (s.config = none → s.playback = [] ∧ s.capture = [])

/-- `t` is bound to the regions of `s` and holds a value wherever `s` does. -/
structure Grown (s t : State) : Prop where
  config : t.config = s.config
  playback : ∀ x, (readByte x s.playback).isSome → (readByte x t.playback).isSome
  capture : ∀ x, (readByte x s.capture).isSome → (readByte x t.capture).isSome

/-- At the addresses of regions of both machines `s` holds a value where `t` does. -/
def coversState (s t : State) : Prop :=
  ∀ c c', s.config = some c → t.config = some c' →
    regionCovers c.regionBase c.regionSize s.playback c'.regionBase c'.regionSize t.playback ∧
    regionCovers c.capRegionBase c.capRegionSize s.capture c'.capRegionBase c'.capRegionSize t.capture

theorem seeAlike_iff (s t : State) : seeAlike s t ↔ ∀ c c', s.config = some c → t.config = some c' →
    regionsAlike c.regionBase c.regionSize s.playback c'.regionBase c'.regionSize t.playback ∧
    regionsAlike c.capRegionBase c.capRegionSize s.capture c'.capRegionBase c'.capRegionSize t.capture := Iff.rfl

theorem shareRegions_bound {s t : State} {c c' : Config} (hs : s.config = some c) (ht : t.config = some c') :
    shareRegions s t = withCapture
      (mirrorBytes c.capRegionBase c.capRegionSize c'.capRegionBase c'.capRegionSize s.capture t.capture)
      (withPlayback (mirrorBytes c.regionBase c.regionSize c'.regionBase c'.regionSize s.playback t.playback) t) := by
  simp only [shareRegions, hs, ht]

theorem shareRegions_unbound {s t : State} (h : s.config = none ∨ t.config = none) : shareRegions s t = t := by
  unfold shareRegions
  split
  · rename_i hs ht
    simp [hs, ht] at h
  · rfl
  · rfl

@[simp] theorem shareRegions_config (s t : State) : (shareRegions s t).config = t.config := by rw [shareRegions_eq]
@[simp] theorem shareRegions_status (s t : State) : (shareRegions s t).status = t.status := by rw [shareRegions_eq]
@[simp] theorem shareRegions_count (s t : State) : (shareRegions s t).count = t.count := by rw [shareRegions_eq]
@[simp] theorem shareRegions_outbox (s t : State) : (shareRegions s t).outbox = t.outbox := by rw [shareRegions_eq]

theorem shareRegions_bound_or_eq (s t : State) :
    (∃ c c', s.config = some c ∧ t.config = some c') ∨ shareRegions s t = t := by
  cases hs : s.config with
  | none => exact .inr (shareRegions_unbound (.inl hs))
  | some c =>
    cases ht : t.config with
    | none => exact .inr (shareRegions_unbound (.inr ht))
    | some c' => exact .inl ⟨c, c', rfl, rfl⟩

section
variable {s t u r : State}

theorem Grown.refl (s : State) : Grown s s := ⟨rfl, fun _ h => h, fun _ h => h⟩

theorem Grown.trans (h : Grown s t) (h' : Grown t u) : Grown s u :=
  ⟨h'.config.trans h.config, fun x hx => h'.playback x (h.playback x hx), fun x hx => h'.capture x (h.capture x hx)⟩

theorem seeAlike.symm (h : seeAlike s t) : seeAlike t s := by
  rw [seeAlike_iff] at h ⊢
  intro c c' hc hc'
  obtain ⟨hplayback, hcapture⟩ := h c' c hc' hc
  exact ⟨hplayback.symm, hcapture.symm⟩

theorem seeAlike.covers (h : seeAlike s t) : coversState s t := by
  rw [seeAlike_iff] at h
  intro c c' hc hc'
  obtain ⟨hplayback, hcapture⟩ := h c c' hc hc'
  exact ⟨hplayback.covers, hcapture.covers⟩

theorem coversState.grown (h : coversState s t) (hg : Grown s u) : coversState u t := by
  intro c c' hc hc'
  obtain ⟨hplayback, hcapture⟩ := h c c' (hg.config.symm.trans hc) hc'
  exact ⟨fun x y hx hy hxy hsome => hg.playback x (hplayback x y hx hy hxy hsome),
    fun x y hx hy hxy hsome => hg.capture x (hcapture x y hx hy hxy hsome)⟩

theorem Formed.shareRegions (ht : Formed t) (s : State) : Formed (shareRegions s t) := by
  rcases shareRegions_bound_or_eq s t with ⟨c, c', hs, hbound⟩ | heq
  · obtain ⟨hplayback, hcapture, -⟩ := ht
    rw [shareRegions_bound hs hbound]
    exact ⟨mirrorBytes_wf _ _ _ _ _ hplayback, mirrorBytes_wf _ _ _ _ _ hcapture,
      fun hnone => nomatch hbound.symm.trans hnone⟩
  · rwa [heq]

theorem grown_shareRegions (hs : Formed s) (t : State) : Grown t (shareRegions s t) := by
  obtain ⟨hplayback, hcapture, -⟩ := hs
  rcases shareRegions_bound_or_eq s t with ⟨c, c', hc, hc'⟩ | heq
  · rw [shareRegions_bound hc hc']
    exact ⟨rfl, fun x hx => isSome_readByte_mirrorBytes hplayback hx,
      fun x hx => isSome_readByte_mirrorBytes hcapture hx⟩
  · rw [heq]
    exact .refl t

theorem coversState_shareRegions (hs : Formed s) (t : State) : coversState (shareRegions s t) s := by
  obtain ⟨hplayback, hcapture, -⟩ := hs
  intro c' c hc' hc
  rw [shareRegions_config] at hc'
  rw [shareRegions_bound hc hc']
  exact ⟨regionCovers_mirrorBytes hplayback _, regionCovers_mirrorBytes hcapture _⟩

theorem coversState.shareRegions (hs : Formed s) (h : coversState u s) (h' : coversState u t) :
    coversState u (shareRegions s t) := by
  obtain ⟨hplayback, hcapture, -⟩ := hs
  rcases shareRegions_bound_or_eq s t with ⟨c, c', hc, hc'⟩ | heq
  · intro cu ct hu ht
    rw [shareRegions_config] at ht
    obtain ⟨hp, hq⟩ := h cu c hu hc
    obtain ⟨hp', hq'⟩ := h' cu ct hu ht
    rw [shareRegions_bound hc ht]
    exact ⟨hp.mirrorBytes hplayback hp', hq.mirrorBytes hcapture hq'⟩
  · rwa [heq]

theorem seeAlike_shareRegions_of_covers (hs : Formed s) (h : coversState s t) : seeAlike s (shareRegions s t) := by
  obtain ⟨hplayback, hcapture, -⟩ := hs
  rw [seeAlike_iff]
  intro c c' hc hc'
  rw [shareRegions_config] at hc'
  obtain ⟨hp, hq⟩ := h c c' hc hc'
  rw [shareRegions_bound hc hc']
  exact ⟨regionsAlike_mirrorBytes_of_covers hplayback hp, regionsAlike_mirrorBytes_of_covers hcapture hq⟩

theorem seeAlike.shareRegions (hu : Formed u) (h : seeAlike s t) :
    seeAlike (shareRegions u s) (shareRegions u t) := by
  cases hbound : u.config with
  | none => rwa [shareRegions_unbound (.inl hbound), shareRegions_unbound (.inl hbound)]
  | some cu =>
    obtain ⟨hplayback, hcapture, -⟩ := hu
    rw [seeAlike_iff] at h ⊢
    intro c c' hc hc'
    rw [shareRegions_config] at hc hc'
    obtain ⟨hp, hq⟩ := h c c' hc hc'
    rw [shareRegions_bound hbound hc, shareRegions_bound hbound hc']
    exact ⟨hp.mirrorBytes hplayback, hq.mirrorBytes hcapture⟩

end

/-! ### Publishing and adopting -/

section
variable {sys : System} {k : Nat} {s u : State}

theorem publish_getElem?_self (h : sys[k]? = some s) (u : State) : (publish k u sys)[k]? = some u := by
  have hlt : k < (sys.map (shareRegions u)).length := by
    rw [List.length_map]
    exact (List.getElem?_eq_some_iff.1 h).1
  exact List.getElem?_set_self hlt

theorem publish_getElem?_ne {i : Nat} (h : i ≠ k) (u : State) (sys : System) :
    (publish k u sys)[i]? = sys[i]?.map (shareRegions u) := by
  rw [publish, List.getElem?_set_ne h.symm, List.getElem?_map]

/-- What a place of a system holds after machine `k` was published there. -/
theorem publish_getElem?_cases (hk : sys[k]? = some s) {i : Nat} {t : State} (h : (publish k u sys)[i]? = some t) :
    (i = k ∧ t = u) ∨ (i ≠ k ∧ ∃ r, sys[i]? = some r ∧ t = shareRegions u r) := by
  by_cases hi : i = k
  · rw [hi, publish_getElem?_self hk] at h
    exact .inl ⟨hi, (Option.some.inj h).symm⟩
  · rw [publish_getElem?_ne hi, Option.map_eq_some_iff] at h
    obtain ⟨r, hr, ht⟩ := h
    exact .inr ⟨hi, r, hr, ht.symm⟩

theorem SystemInv.formed_getElem? (h : SystemInv sys) {i : Nat} {t : State} (ht : sys[i]? = some t) : Formed t :=
  h.formed t (List.mem_of_getElem? ht)

/-- Publishing a machine that covers every other one keeps the invariant of the system. -/
theorem systemInv_publish (h : SystemInv sys) (hk : sys[k]? = some s) (hu : Formed u)
    (hcovers : ∀ i t, i ≠ k → sys[i]? = some t → coversState u t) : SystemInv (publish k u sys) where
  formed := fun t ht => by
    obtain ⟨i, hi⟩ := List.mem_iff_getElem?.1 ht
    rcases publish_getElem?_cases hk hi with ⟨-, rfl⟩ | ⟨-, r, hr, rfl⟩
    · exact hu
    · exact (h.formed_getElem? hr).shareRegions u
  alike := fun i j t t' hij ht ht' => by
    rcases publish_getElem?_cases hk ht with ⟨rfl, rfl⟩ | ⟨hi, r, hr, rfl⟩
    · rcases publish_getElem?_cases hk ht' with ⟨rfl, -⟩ | ⟨hj, r', hr', rfl⟩
      · exact absurd rfl hij
      · exact seeAlike_shareRegions_of_covers hu (hcovers j r' hj hr')
    · rcases publish_getElem?_cases hk ht' with ⟨rfl, rfl⟩ | ⟨-, r', hr', rfl⟩
      · exact (seeAlike_shareRegions_of_covers hu (hcovers i r hi hr)).symm
      · exact (h.alike i j r r' hij hr hr').shareRegions hu

theorem Formed.adoptRegions (hs : Formed s) (sys : System) : Formed (adoptRegions sys s) := by
  induction sys generalizing s with
  | nil => exact hs
  | cons t rest ih => exact ih (hs.shareRegions t)

theorem grown_adoptRegions (h : ∀ t ∈ sys, Formed t) (s : State) : Grown s (adoptRegions sys s) := by
  induction sys generalizing s with
  | nil => exact .refl s
  | cons t rest ih =>
    exact (grown_shareRegions (h t (by simp)) s).trans (ih (fun t ht => h t (by simp [ht])) _)

/-- A machine that has taken over the regions of the others covers each of them. -/
theorem coversState_adoptRegions (h : ∀ t ∈ sys, Formed t) (s : State) {t : State} (ht : t ∈ sys) :
    coversState (adoptRegions sys s) t := by
  induction sys generalizing s with
  | nil => cases ht
  | cons first rest ih =>
    have hrest : ∀ t ∈ rest, Formed t := fun t ht => h t (by simp [ht])
    rcases List.mem_cons.1 ht with rfl | ht
    · exact (coversState_shareRegions (h t (by simp)) s).grown (grown_adoptRegions hrest _)
    · exact ih hrest _ ht

end

/-! ### A step of one machine of a system -/

/-- A step leaves both regions, or performs word writes on them. -/
def regionsWritten (s t : State) : Prop :=
  (t.playback = s.playback ∧ t.capture = s.capture) ∨
    ∃ c ws ws', Ready s c ∧ t.playback = allWrites c.mmioByteOrder ws s.playback ∧
      t.capture = allWrites c.mmioByteOrder ws' s.capture

theorem commandEnd_regionsWritten {c : Config} {s t : State} {op : BitVec 8} (hr : Ready s c)
    (h : CommandEnd c s op t) : regionsWritten s t := by
  obtain ⟨hcapture, -⟩ := commandEnd_environment h
  exact .inr ⟨c, lastWrites t, [], hr, commandEnd_playback h, hcapture⟩

theorem runCommand_regionsWritten {s t : State} {d : Descriptor} (h : runCommand d s = .next t) :
    regionsWritten s t := by
  obtain ⟨c, hr, hend⟩ := runCommand_next h
  exact commandEnd_regionsWritten hr hend

theorem inputEnd_regionsWritten {s t : State} {x : Input} (h : InputEnd s x t) : regionsWritten s t := by
  cases h with
  | fixed c hnone hok => exact .inl ⟨rfl, rfl⟩
  | reset => exact .inl ⟨rfl, rfl⟩
  | held x t hheld => exact .inl ⟨hheld.playback, hheld.capture⟩
  | captureWritten x c ws hr hws => exact .inr ⟨c, [], ws, hr, rfl, rfl⟩
  | playbackWritten x c ws hr hws => exact .inr ⟨c, ws, [], hr, rfl, rfl⟩
  | command d t hrun => exact runCommand_regionsWritten hrun
  | abandoned d c n ws hr hws => exact .inr ⟨c, ws, [], hr, rfl, rfl⟩
  | observed d offs s' t hheld hrun =>
    have h := runCommand_regionsWritten hrun
    simp only [regionsWritten, Ready, hheld.playback, hheld.capture, hheld.config] at h
    exact h
  | raced d agent c n ws u hr hws hrun =>
    have hend := commandEnd_of_runCommand hr hrun
    obtain ⟨hcapture, -⟩ := commandEnd_environment hend
    refine .inr ⟨c, lastWrites u ++ ws, [], hr, ?_, hcapture⟩
    rw [allWrites_append, ← commandEnd_playback hend]
    rfl

theorem step_regionsWritten {s t : State} (h : step s = .next t) : regionsWritten s t := by
  rcases step_end h with rfl | ⟨x, rest, -, hend⟩
  · exact .inl ⟨rfl, rfl⟩
  · exact inputEnd_regionsWritten (s := { s with inbox := rest }) hend

theorem Formed.regionsWritten {s t : State} (hs : Formed s) (h : regionsWritten s t)
    (hconfig : t.config = none → s.config = none) : Formed t := by
  obtain ⟨hplayback, hcapture, hempty⟩ := hs
  rcases h with ⟨hp, hq⟩ | ⟨c, ws, ws', hr, hp, hq⟩ <;> rw [Formed, hp, hq]
  · exact ⟨hplayback, hcapture, fun hnone => hempty (hconfig hnone)⟩
  · exact ⟨allWrites_wf hplayback, allWrites_wf hcapture, fun hnone => nomatch hr.1.symm.trans (hconfig hnone)⟩

theorem regionsWritten.grown {s t : State} (h : regionsWritten s t) (hconfig : t.config = s.config) : Grown s t := by
  rcases h with ⟨hp, hq⟩ | ⟨c, ws, ws', -, hp, hq⟩
  · exact ⟨hconfig, fun x hx => hp ▸ hx, fun x hx => hq ▸ hx⟩
  · exact ⟨hconfig, fun x hx => hp ▸ isSome_readByte_allWrites hx ws,
      fun x hx => hq ▸ isSome_readByte_allWrites hx ws'⟩

theorem step_config_none {s t : State} (h : step s = .next t) (hnone : t.config = none) : s.config = none := by
  by_contra hsome
  obtain ⟨c, hc⟩ := Option.ne_none_iff_exists'.1 hsome
  exact nomatch hnone.symm.trans (configurationNeverChanges s t c hc h)

/-- A step of one machine of a system, its own binding included, keeps the invariant of the system. -/
theorem systemInv_systemStep {sys sys' : System} {k : Nat} (h : SystemInv sys) (hstep : systemStep k sys = .next sys') :
    SystemInv sys' := by
  unfold systemStep at hstep
  split at hstep
  · cases hstep
    exact h
  · rename_i s hs
    split at hstep
    · rename_i t ht
      cases hstep
      have hwritten : regionsWritten s t := step_regionsWritten (s := { s with source := k }) ht
      have hformed : Formed t := Formed.regionsWritten (h.formed_getElem? hs) hwritten
        (step_config_none (s := { s with source := k }) ht)
      split
      · exact systemInv_publish h hs (hformed.adoptRegions sys) fun i r _ hr =>
          coversState_adoptRegions h.formed t (List.mem_of_getElem? hr)
      · rename_i hbound
        obtain ⟨c, hc⟩ := Option.ne_none_iff_exists'.1 hbound
        have hgrown : Grown s t :=
          hwritten.grown ((configurationNeverChanges { s with source := k } t c hc ht).trans hc.symm)
        exact systemInv_publish h hs hformed fun i r hi hr => (h.alike k i s r hi.symm hs hr).covers.grown hgrown
    · cases hstep
    · cases hstep

theorem systemInv_inSequence {sys sys' : System} {j k : Nat} (h : SystemInv sys)
    (hstep : inSequence j k sys = .next sys') : SystemInv sys' := by
  unfold inSequence at hstep
  split at hstep
  · rename_i mid hmid
    exact systemInv_systemStep (systemInv_systemStep h hmid) hstep
  · cases hstep
  · cases hstep

/-! ### Two passes at once: one pass -/

/-- The pass of `s` that ended in `t`, beside the step that `s` takes alone, which ends in `done`: it reads other values at
most, and every word it writes lands. -/
structure PassEnd (c : Config) (s done t : State) : Prop where
  status : t.status = done.status
  count : t.count = done.count
  writes : lastWrites t = lastWrites done
  config : t.config = s.config
  capture : t.capture = s.capture
  playback : t.playback = allWrites c.mmioByteOrder (lastWrites t) s.playback
  inside : ∀ w ∈ lastWrites t, wordInside c.regionSize w.1
  disjoint : disjointWrites (lastWrites t)

/-- A pass completes as the step of the machine alone does; against no capture read its response is the same too. -/
theorem runPass_command {s : State} {c : Config} {d : Descriptor} {rest : List Input} (hr : Ready s c)
    (hin : s.inbox = .command d :: rest) (k : Nat) (reads : List Nat) (t : State) :
    ∃ done s', step { s with source := k } = .next done ∧ runPass k reads t s = .next s' ∧ PassEnd c s done s' ∧
      (reads = [] → s'.outbox = done.outbox) := by
  have hr₁ : Ready { s with source := k, inbox := rest } c := hr
  have hr₂ : Ready { s with source := k, capture := contendedCapture reads s t, inbox := rest } c := hr
  obtain ⟨done, u, hdone, hu, hpair⟩ := runCommand_paired hr₁ hr₂ rfl d
  have hend := commandEnd_of_runCommand hr₂ hu
  obtain ⟨hstatus, hcount, -, hevents⟩ := hpair.alike
  have hwrites : lastWrites u = lastWrites done := congrArg eventWrites hevents
  have hconfig := commandEnd_config hend
  have hplayback := commandEnd_playback hend
  have hinside := commandEnd_lastWrites_inside hend
  refine ⟨done, { u with capture := s.capture }, ?_, ?_, ?_, fun hreads => ?_⟩
  · rw [step_command (s := { s with source := k }) hin, hdone]
  · rw [runPass, step_command (s := { s with source := k, capture := contendedCapture reads s t }) hin, hu]
  · exact ⟨hstatus, hcount, hwrites, hconfig, rfl, hplayback, hinside, hwrites ▸ hpair.disjoint⟩
  · subst hreads
    rw [contendedCapture_nil] at hpair
    exact hpair.outbox_eq rfl rfl rfl rfl rfl

theorem nextCommand_some {s : State} {d : Descriptor} (h : nextCommand s = some d) :
    ∃ rest, s.inbox = .command d :: rest := by
  unfold nextCommand at h
  split at h
  · rename_i d' rest hin
    cases h
    exact ⟨rest, hin⟩
  · cases h

/-- A pass completes only in a machine whose configuration is fixed (R116). -/
theorem runPass_ready {s s' t : State} {d : Descriptor} {rest : List Input} {k : Nat} {reads : List Nat}
    (hin : s.inbox = .command d :: rest) (h : runPass k reads t s = .next s') : ∃ c, Ready s c := by
  rw [runPass, step_command (s := { s with source := k, capture := contendedCapture reads s t }) hin] at h
  split at h
  · rename_i u hu
    obtain ⟨c, hr, -⟩ := runCommand_next hu
    exact ⟨c, hr⟩
  · cases h
  · cases h

/-! ### Two passes at once: the playback regions -/

/-- The playback region `m` of a machine that wrote `ws` over it, after the writes `ws'` of the other pass landed in it and
the free choice said which of `ws` landed after them, as `contendedPlayback` makes it. -/
def contendedMemory (c c' : Config) (source draw : Nat) (ws ws' : List (Nat × Word)) (m : Memory) : Memory :=
  someWrites c.mmioByteOrder source draw ws
    (mirrorBytes c'.regionBase c'.regionSize c.regionBase c.regionSize (allWrites c'.mmioByteOrder ws' []) m)

theorem contendedPlayback_bound {s t : State} {c c' : Config} (hs : s.config = some c) (ht : t.config = some c') :
    contendedPlayback s t = withDraws (s.draws + 1) (withPlayback
      (contendedMemory c c' s.source s.draws (lastWrites s) (lastWrites t) s.playback) s) := by
  simp only [contendedPlayback, hs, ht, contendedMemory]

theorem allWrites_nil_wf (order : ByteOrder) (ws : List (Nat × Word)) : (allWrites order ws []).wf :=
  allWrites_wf List.Pairwise.nil

/-- What covers the words written and the region written to covers the region after the writes. -/
theorem regionCovers.allWrites {base size base' size' : Nat} {order : ByteOrder} {ws : List (Nat × Word)}
    {m m' : Memory} (h : regionCovers base size m base' size' (allWrites order ws []))
    (h' : regionCovers base size m base' size' m') : regionCovers base size m base' size' (allWrites order ws m') := by
  intro x y hx hy hxy hsome
  rw [readByte_allWrites, Option.isSome_or, Bool.or_eq_true] at hsome
  exact hsome.elim (h x y hx hy hxy) (h' x y hx hy hxy)

/-- A word mirrored into a region that holds its address. -/
theorem holdsWord.mirrorBytes {base size base' size' : Nat} {order : ByteOrder} {src : Memory} (hsrc : src.wf)
    (dst : Memory) {off off' : Nat} {v : Word} (h : holdsWord order src (off, v)) (hin : off + 4 ≤ size)
    (hin' : off' + 4 ≤ size') (haddr : base + off = base' + off') :
    holdsWord order (mirrorBytes base size base' size' src dst) (off', v) := by
  intro i hi
  have hbyte : readByte (off + i) src = some (wordByte order v i) := h i hi
  rw [readByte_mirrorBytes_shared (x := off + i) hsrc dst (by omega) (by omega) (by omega), hbyte]
  rfl

/-- The writes of two passes: disjoint words, each list in the region of its machine, and the bases of the two regions
differ by whole words. -/
structure PassWrites (c c' : Config) (ws ws' : List (Nat × Word)) : Prop where
  aligned : c.regionBase % 4 = c'.regionBase % 4
  inside : ∀ w ∈ ws, wordInside c.regionSize w.1
  inside' : ∀ w ∈ ws', wordInside c'.regionSize w.1
  disjoint : disjointWrites ws
  disjoint' : disjointWrites ws'

section
variable {c c' : Config} {source draw : Nat} {ws ws' : List (Nat × Word)} {m : Memory}

theorem contendedMemory_wf (h : m.wf) : (contendedMemory c c' source draw ws ws' m).wf := by
  rw [contendedMemory, someWrites_eq_allWrites]
  exact allWrites_wf (mirrorBytes_wf _ _ _ _ _ h)

theorem isSome_readByte_contendedMemory {x : Nat} (h : (readByte x m).isSome) :
    (readByte x (contendedMemory c c' source draw ws ws' m)).isSome := by
  rw [contendedMemory, someWrites_eq_allWrites]
  exact isSome_readByte_allWrites (isSome_readByte_mirrorBytes (allWrites_nil_wf _ _) h) _

theorem contendedMemory_covers : regionCovers c.regionBase c.regionSize (contendedMemory c c' source draw ws ws' m)
    c'.regionBase c'.regionSize (allWrites c'.mmioByteOrder ws' []) := by
  intro x y hx hy hxy hsome
  rw [contendedMemory, someWrites_eq_allWrites]
  exact isSome_readByte_allWrites (regionCovers_mirrorBytes (allWrites_nil_wf _ _) m x y hx hy hxy hsome) _

/-- A byte of no word that the free choice puts last. -/
theorem readByte_contendedMemory {x : Nat}
    (h : ∀ w ∈ ws, Config.freeChoice source draw w.1 = true → x < w.1 ∨ w.1 + 4 ≤ x) :
    readByte x (contendedMemory c c' source draw ws ws' m) = readByte x (mirrorBytes c'.regionBase c'.regionSize
      c.regionBase c.regionSize (allWrites c'.mmioByteOrder ws' []) m) := by
  rw [contendedMemory, someWrites_eq_allWrites]
  refine readByte_allWrites_other (fun w hw => ?_) _
  obtain ⟨hw, hchosen⟩ := List.mem_filter.1 hw
  exact h w hw hchosen

/-- A word that the free choice puts last lands. -/
theorem holdsWord_contendedMemory_chosen (hws : disjointWrites ws) {w : Nat × Word} (hw : w ∈ ws)
    (hchosen : Config.freeChoice source draw w.1 = true) :
    holdsWord c.mmioByteOrder (contendedMemory c c' source draw ws ws' m) w := by
  rw [contendedMemory, someWrites_eq_allWrites]
  exact holdsWord_allWrites (hws.filter _) (List.mem_filter.2 ⟨hw, hchosen⟩) _

/-- A word of the other pass stays where the free choice puts no word last. -/
theorem holdsWord_contendedMemory_other (h : PassWrites c c' ws ws') {w' : Nat × Word} (hw' : w' ∈ ws') {off : Nat}
    (hoff : wordInside c.regionSize off) (haddr : c.regionBase + off = c'.regionBase + w'.1)
    (hlost : ∀ w ∈ ws, Config.freeChoice source draw w.1 = true → w.1 ≠ off) :
    holdsWord c'.mmioByteOrder (contendedMemory c c' source draw ws ws' m) (off, w'.2) := by
  have hlanded : holdsWord c'.mmioByteOrder (allWrites c'.mmioByteOrder ws' []) (w'.1, w'.2) :=
    holdsWord_allWrites h.disjoint' hw' []
  have hmirrored := hlanded.mirrorBytes (allWrites_nil_wf _ _) m (h.inside' w' hw').2 hoff.2 haddr.symm
  intro i hi
  rw [readByte_contendedMemory fun w hw hchosen => ?_]
  · exact hmirrored i hi
  · have hword := h.inside w hw
    have hne := hlost w hw hchosen
    simp only
    omega

/-- The writes of the other pass hold no byte at the address of a word that it did not write. -/
theorem readByte_other_eq_none (h : PassWrites c c' ws ws') {w : Nat × Word} (hw : w ∈ ws)
    (halone : ∀ w' ∈ ws', c.regionBase + w.1 ≠ c'.regionBase + w'.1) {i x : Nat} (hi : i < 4)
    (haddr : c.regionBase + (w.1 + i) = c'.regionBase + x) :
    readByte x (allWrites c'.mmioByteOrder ws' []) = none := by
  refine readByte_allWrites_other (fun w' hw' => ?_) []
  have haligned := h.aligned
  have hword := h.inside w hw
  have hword' := h.inside' w' hw'
  have hne := halone w' hw'
  omega

/-- A word that the machine wrote stays at an address that the other pass did not write. -/
theorem holdsWord_contendedMemory_alone (h : PassWrites c c' ws ws') {w : Nat × Word} (hw : w ∈ ws)
    (halone : ∀ w' ∈ ws', c.regionBase + w.1 ≠ c'.regionBase + w'.1) :
    holdsWord c.mmioByteOrder (contendedMemory c c' source draw ws ws' (allWrites c.mmioByteOrder ws m)) w := by
  by_cases hchosen : Config.freeChoice source draw w.1 = true
  · exact holdsWord_contendedMemory_chosen h.disjoint hw hchosen
  · intro i hi
    rw [readByte_contendedMemory fun x hx hlast => ?_, readByte_mirrorBytes _ _ _ _ _ (allWrites_nil_wf _ _)]
    · have hbyte := readByte_allWrites_mem (order := c.mmioByteOrder) h.disjoint hw hi m
      split
      · rw [readByte_other_eq_none h hw halone hi (by omega), hbyte]
        rfl
      · exact hbyte
    · have hne : x ≠ w := by
        rintro rfl
        exact hchosen hlast
      have := h.disjoint.apart hx hw hne
      omega

variable {m' seen : Memory}

/-- A word the machine wrote is there, or the other machine wrote the same address and sees its own word. -/
theorem holdsWord_own_or_other (h : PassWrites c c' ws ws') (hm : m.wf)
    (hseen : seen = contendedMemory c c' source draw ws ws' (allWrites c.mmioByteOrder ws m)) {w : Nat × Word}
    (hw : w ∈ ws) :
    holdsWord c.mmioByteOrder seen w ∨ ∃ w' ∈ ws', c.regionBase + w.1 = c'.regionBase + w'.1 ∧
      holdsWord c'.mmioByteOrder
        (mirrorBytes c.regionBase c.regionSize c'.regionBase c'.regionSize seen m') w' := by
  subst hseen
  by_cases hchosen : Config.freeChoice source draw w.1 = true
  · exact .inl (holdsWord_contendedMemory_chosen h.disjoint hw hchosen)
  · by_cases hboth : ∃ w' ∈ ws', c.regionBase + w.1 = c'.regionBase + w'.1
    · obtain ⟨w', hw', haddr⟩ := hboth
      have hother := holdsWord_contendedMemory_other (m := allWrites c.mmioByteOrder ws m) h hw' (h.inside w hw) haddr
        fun x _ hlast hoff => hchosen (hoff ▸ hlast)
      exact .inr ⟨w', hw', haddr, hother.mirrorBytes (contendedMemory_wf (allWrites_wf hm)) m' (h.inside w hw).2
        (h.inside' w' hw').2 haddr⟩
    · exact .inl (holdsWord_contendedMemory_alone h hw fun w' hw' haddr => hboth ⟨w', hw', haddr⟩)

/-- A word the other machine wrote is there, or the machine wrote the same address and its own word is there. -/
theorem holdsWord_other_or_own (h : PassWrites c c' ws ws') (hsize : c.regionSize % 4 = 0) (hm : m.wf)
    (hseen : seen = contendedMemory c c' source draw ws ws' (allWrites c.mmioByteOrder ws m)) {w' : Nat × Word}
    (hw' : w' ∈ ws') :
    holdsWord c'.mmioByteOrder (mirrorBytes c.regionBase c.regionSize c'.regionBase c'.regionSize seen
        (allWrites c'.mmioByteOrder ws' m')) w' ∨
      ∃ w ∈ ws, c.regionBase + w.1 = c'.regionBase + w'.1 ∧ holdsWord c.mmioByteOrder seen w := by
  have hwf : seen.wf := hseen ▸ contendedMemory_wf (allWrites_wf hm)
  subst hseen
  have haligned := h.aligned
  have hword' := h.inside' w' hw'
  by_cases hshared : c.regionBase ≤ c'.regionBase + w'.1 ∧ c'.regionBase + w'.1 < c.regionBase + c.regionSize
  · obtain ⟨off, haddr⟩ := Nat.exists_eq_add_of_le hshared.1
    have hoff : wordInside c.regionSize off := by omega
    by_cases hboth : ∃ w ∈ ws, Config.freeChoice source draw w.1 = true ∧ w.1 = off
    · obtain ⟨w, hw, hchosen, rfl⟩ := hboth
      exact .inr ⟨w, hw, haddr.symm, holdsWord_contendedMemory_chosen h.disjoint hw hchosen⟩
    · have hother := holdsWord_contendedMemory_other (m := allWrites c.mmioByteOrder ws m) h hw' hoff haddr.symm
        fun w hw hchosen heq => hboth ⟨w, hw, hchosen, heq⟩
      exact .inl (hother.mirrorBytes hwf _ hoff.2 hword'.2 haddr.symm)
  · refine .inl fun i hi => ?_
    rw [readByte_mirrorBytes_unshared hwf _ (by omega)]
    exact readByte_allWrites_mem h.disjoint' hw' hi m'

end

/-! ### Two passes at once: the system -/

/-- Two different machines whose next inputs are commands publish what their passes leave. -/
theorem overlapStep_commands {sys : System} {j k : Nat} {s t s' t' : State} {d e : Descriptor}
    {restS restT : List Input} (hjk : j ≠ k) (hs : sys[j]? = some s) (ht : sys[k]? = some t)
    (hd : s.inbox = .command d :: restS) (he : t.inbox = .command e :: restT)
    (hpass : runPass j (passReads k t) t s = .next s') (hpass' : runPass k (passReads j s) s t = .next t') :
    overlapStep j k sys = .next (publish j (contendedPlayback s' t') (publish k t' sys)) := by
  simp only [overlapStep, hs, ht, nextCommand, hd, he, if_neg hjk, hpass, hpass']

/-- An overlap of two different machines' commands is two passes; everything else is a sequence. -/
theorem overlapStep_next {sys sys' : System} {j k : Nat} (h : overlapStep j k sys = .next sys') :
    inSequence j k sys = .next sys' ∨
      ∃ s t s' t' d e restS restT, j ≠ k ∧ sys[j]? = some s ∧ sys[k]? = some t ∧
        s.inbox = .command d :: restS ∧ t.inbox = .command e :: restT ∧
        runPass j (passReads k t) t s = .next s' ∧ runPass k (passReads j s) s t = .next t' ∧
        sys' = publish j (contendedPlayback s' t') (publish k t' sys) := by
  unfold overlapStep at h
  split at h
  · rename_i s t hs ht
    split at h
    · rename_i d e hd he
      split at h
      · exact .inl h
      · rename_i hjk
        obtain ⟨restS, hd⟩ := nextCommand_some hd
        obtain ⟨restT, he⟩ := nextCommand_some he
        split at h <;> cases h
        rename_i s' t' hpass hpass'
        exact .inr ⟨s, t, s', t', d, e, restS, restT, hjk, hs, ht, hd, he, hpass, hpass', rfl⟩
    · exact .inl h
  · exact .inl h

section
variable {c c' : Config} {s t done done' s' t' : State}

theorem PassEnd.grown (h : PassEnd c s done s') : Grown s s' :=
  ⟨h.config, fun _ hx => h.playback ▸ isSome_readByte_allWrites hx _, fun _ hx => h.capture ▸ hx⟩

theorem PassEnd.formed (h : PassEnd c s done s') (hr : Ready s c) (hs : Formed s) : Formed s' := by
  obtain ⟨hplayback, hcapture, -⟩ := hs
  rw [Formed, h.playback, h.capture]
  exact ⟨allWrites_wf hplayback, hcapture, fun hnone => nomatch (h.config.trans hr.1).symm.trans hnone⟩

theorem formed_contendedPlayback (hs : Formed s') (hc : s'.config = some c) (ht : t'.config = some c') :
    Formed (contendedPlayback s' t') := by
  obtain ⟨hplayback, hcapture, -⟩ := hs
  rw [contendedPlayback_bound hc ht]
  exact ⟨contendedMemory_wf hplayback, hcapture, fun hnone => nomatch hc.symm.trans hnone⟩

theorem grown_contendedPlayback (hc : s'.config = some c) (ht : t'.config = some c') :
    Grown s' (contendedPlayback s' t') := by
  rw [contendedPlayback_bound hc ht]
  exact ⟨rfl, fun x hx => isSome_readByte_contendedMemory hx, fun x hx => hx⟩

/-- After two passes at once the machine whose words were decided last covers the other one. -/
theorem coversState_contendedPlayback (hc : s'.config = some c) (hc' : t'.config = some c')
    (hpass' : PassEnd c' t done' t') (hold : coversState s' t) : coversState (contendedPlayback s' t') t' := by
  obtain ⟨hplayback, hcapture⟩ := hold.grown (grown_contendedPlayback hc hc') c c'
    ((grown_contendedPlayback hc hc').config.trans hc) (hpass'.config.symm.trans hc')
  intro cs ct hs ht
  obtain rfl := Option.some.inj (((grown_contendedPlayback hc hc').config.trans hc).symm.trans hs)
  obtain rfl := Option.some.inj (hc'.symm.trans ht)
  rw [hpass'.capture]
  refine ⟨?_, hcapture⟩
  rw [hpass'.playback]
  refine regionCovers.allWrites ?_ hplayback
  rw [contendedPlayback_bound hc hc']
  exact contendedMemory_covers

end

/-- Two passes at once keep the invariant of a system. -/
theorem systemInv_overlapStep {sys sys' : System} {j k : Nat} (h : SystemInv sys)
    (hstep : overlapStep j k sys = .next sys') : SystemInv sys' := by
  rcases overlapStep_next hstep with hseq |
    ⟨s, t, s', t', d, e, restS, restT, hjk, hs, ht, hd, he, hpass, hpass', rfl⟩
  · exact systemInv_inSequence h hseq
  · obtain ⟨c, hr⟩ := runPass_ready hd hpass
    obtain ⟨c', hr'⟩ := runPass_ready he hpass'
    obtain ⟨done, s₁, -, hs₁, hend, -⟩ := runPass_command hr hd j (passReads k t) t
    obtain ⟨done', t₁, -, ht₁, hend', -⟩ := runPass_command hr' he k (passReads j s) s
    obtain rfl : s' = s₁ := by rw [hpass] at hs₁; cases hs₁; rfl
    obtain rfl : t' = t₁ := by rw [hpass'] at ht₁; cases ht₁; rfl
    have hc := hend.config.trans hr.1
    have hc' := hend'.config.trans hr'.1
    have hformed' := hend'.formed hr' (h.formed_getElem? ht)
    have hmid : SystemInv (publish k t' sys) := systemInv_publish h ht hformed' fun i r hi hr =>
      (h.alike k i t r hi.symm ht hr).covers.grown hend'.grown
    have hgrown := hend.grown.trans (grown_contendedPlayback hc hc')
    have hother := coversState_contendedPlayback hc hc' hend' ((h.alike j k s t hjk hs ht).covers.grown hend.grown)
    refine systemInv_publish hmid (s := shareRegions t' s) ?_
      (formed_contendedPlayback (hend.formed hr (h.formed_getElem? hs)) hc hc') fun i r hi hr => ?_
    · rw [publish_getElem?_ne hjk, hs, Option.map_some]
    · rcases publish_getElem?_cases ht hr with ⟨-, rfl⟩ | ⟨-, r₀, hr₀, rfl⟩
      · exact hother
      · exact hother.shareRegions hformed' ((h.alike j i s r₀ hi.symm hs hr₀).covers.grown hgrown)

/-- Settles O59: the machine that is published covers every other one, so that these come to see its bytes. -/
theorem systemKeepsSharedRegionsAlike : Obligations.SystemKeepsSharedRegionsAlike :=
  fun _ _ _ _ h => ⟨systemInv_systemStep h, systemInv_overlapStep h⟩

/-- Settles O60: each pass completes as the machine's step alone does, and each word is decided as a whole. -/
theorem overlappingPassesLeaveEitherWord : Obligations.OverlappingPassesLeaveEitherWord := by
  intro sys j k s t c c' d e restS restT h hjk hs ht hr hr' hd he halign
  obtain ⟨done, s₁, hdone, hpass, hend, hout⟩ := runPass_command hr hd j (passReads k t) t
  obtain ⟨done', t₁, hdone', hpass', hend', hout'⟩ := runPass_command hr' he k (passReads j s) s
  have hc := hend.config.trans hr.1
  have hc' := hend'.config.trans hr'.1
  obtain ⟨hplayback, -⟩ := h.formed_getElem? hs
  have ⟨_, ⟨hsize, _⟩, _⟩ := hr
  have hwrites : PassWrites c c' (lastWrites s₁) (lastWrites t₁) :=
    ⟨halign, hend.inside, hend'.inside, hend.disjoint, hend'.disjoint⟩
  have hmine : (publish k t₁ sys)[j]? = some (shareRegions t₁ s) := by
    rw [publish_getElem?_ne hjk, hs, Option.map_some]
  have hseen : (contendedPlayback s₁ t₁).playback = contendedMemory c c' s₁.source s₁.draws (lastWrites s₁)
      (lastWrites t₁) (allWrites c.mmioByteOrder (lastWrites s₁) s.playback) := by
    rw [contendedPlayback_bound hc hc', ← hend.playback]
    rfl
  have hbound : (contendedPlayback s₁ t₁).config = some c := (grown_contendedPlayback hc hc').config.trans hc
  have hseen' : (shareRegions (contendedPlayback s₁ t₁) t₁).playback =
      mirrorBytes c.regionBase c.regionSize c'.regionBase c'.regionSize (contendedPlayback s₁ t₁).playback
        (allWrites c'.mmioByteOrder (lastWrites t₁) t.playback) := by
    rw [shareRegions_bound hbound hc', ← hend'.playback]
    rfl
  refine ⟨done, done', _, contendedPlayback s₁ t₁, shareRegions (contendedPlayback s₁ t₁) t₁, hdone, hdone',
    overlapStep_commands hjk hs ht hd he hpass hpass', publish_getElem?_self hmine _, ?_, ?_⟩
  · rw [publish_getElem?_ne hjk.symm, publish_getElem?_self ht, Option.map_some]
  rw [shareRegions_status, shareRegions_count, shareRegions_outbox, ← hend.writes, ← hend'.writes, hseen']
  refine ⟨?_, ?_, hend'.status, hend'.count, fun hreads => ?_, hout', fun w hw => ?_, fun w' hw' => ?_⟩
  · rw [contendedPlayback_bound hc hc']
    exact hend.status
  · rw [contendedPlayback_bound hc hc']
    exact hend.count
  · rw [contendedPlayback_bound hc hc']
    exact hout hreads
  · rcases holdsWord_own_or_other hwrites hplayback hseen hw with hown | ⟨w', hw', haddr, hother⟩
    · exact .inl hown.readWord
    · exact .inr ⟨w', hw', haddr, hother.readWord⟩
  · rcases holdsWord_other_or_own hwrites hsize hplayback hseen hw' with hother | ⟨w, hw, haddr, hown⟩
    · exact .inl hother.readWord
    · exact .inr ⟨w, hw, haddr, hown.readWord⟩

end Sys2Proof.Machine

/-! # Encoding (30_encoding.md): descriptors, descriptor images and the values that reach the ports -/

namespace Sys2Proof.Machine

/-! ### The descriptors that decode accepts -/

/-- A descriptor that passes the checks of R55. -/
structure Accepted (maxLen : Nat) (d : Descriptor) : Prop where
  reserved : cmdRsv d.cmd = 0
  opcode : cmdOp d.cmd ∈ legalOpcodes
  arg0 : cmdOp d.cmd ∉ gatherOpcodes → d.arg0 = 0
  streamA : cmdOp d.cmd ∈ gatherOpcodes → d.a.length = 0
  streamB : cmdOp d.cmd ≠ opPackComplex → d.b.length = 0
  fitsA : streamFits maxLen d.a
  fitsB : streamFits maxLen d.b

section
variable {maxLen : Nat} {d : Descriptor} {i : Instr}

theorem Accepted.decode_eq (h : Accepted maxLen d) : decode maxLen d = dispatchOp d := by
  unfold decode
  rw [if_neg (not_not.2 h.reserved), if_neg (not_not.2 h.opcode), if_neg fun hc => hc.2 (h.arg0 hc.1),
    if_neg fun hc => hc.2 (h.streamA hc.1), if_neg fun hc => hc.2 (h.streamB hc.1),
    if_neg (not_or.2 ⟨Nat.not_lt.2 h.fitsA, Nat.not_lt.2 h.fitsB⟩)]

theorem accepted_of_decode_ok (h : decode maxLen d = .ok i) : Accepted maxLen d := by
  unfold decode at h
  split_ifs at h with hrsv hop harg0 ha hb hlen
  obtain ⟨hlenA, hlenB⟩ := not_or.1 hlen
  exact ⟨not_not.1 hrsv, hop, fun hg => not_not.1 fun hne => harg0 ⟨hg, hne⟩,
    fun hg => not_not.1 fun hne => ha ⟨hg, hne⟩, fun hg => not_not.1 fun hne => hb ⟨hg, hne⟩,
    Nat.not_lt.1 hlenA, Nat.not_lt.1 hlenB⟩

theorem decode_error_of_not_accepted (h : ¬ Accepted maxLen d) : ∃ e, decode maxLen d = .error e := by
  cases hd : decode maxLen d with
  | error e => exact ⟨e, rfl⟩
  | ok i => exact absurd (accepted_of_decode_ok hd) h

/-! ### The descriptor of a command -/

theorem commandWord_statement (i : Instr) : Laws.CommandWord.Statement i := by
  cases i with
  | packComplex a b => exact Laws.CommandWord.packComplex a b
  | packReal a => exact Laws.CommandWord.packReal a
  | unpackReal a => exact Laws.CommandWord.unpackReal a
  | scatterBram a => exact Laws.CommandWord.scatterBram a
  | scatterUram a => exact Laws.CommandWord.scatterUram a
  | scatterDdr4 a => exact Laws.CommandWord.scatterDdr4 a
  | gatherReal n => exact Laws.CommandWord.gatherReal n
  | gatherIq n => exact Laws.CommandWord.gatherIq n

theorem cmdOp_encode (i : Instr) : cmdOp (encode i).cmd = opcodeOf i := by
  obtain ⟨-, hop, -⟩ := commandWord_statement i
  exact hop

/-- Only PACK_COMPLEX has a second stream (R54). -/
theorem encode_b_eq_nil (h : opcodeOf i ≠ opPackComplex) : (encode i).b = [] := by
  cases i with
  | packComplex a b => exact absurd rfl h
  | _ => rfl

theorem streamFits_encode (h : i.WellFormed maxLen) :
    streamFits maxLen (encode i).a ∧ streamFits maxLen (encode i).b := by
  cases i with
  | packComplex a b => exact h
  | gatherReal n => exact ⟨Nat.zero_le _, Nat.zero_le _⟩
  | gatherIq n => exact ⟨Nat.zero_le _, Nat.zero_le _⟩
  | _ => exact ⟨h, Nat.zero_le _⟩

theorem accepted_encode (h : i.WellFormed maxLen) : Accepted maxLen (encode i) := by
  obtain ⟨hrsv, hop, hlegal, harg0, hstreams⟩ := commandWord_statement i
  obtain ⟨hfitsA, hfitsB⟩ := streamFits_encode h
  rw [← hop] at hlegal harg0 hstreams
  exact ⟨hrsv, hlegal, harg0, fun hg => List.length_eq_zero_iff.2 (hstreams hg).1,
    fun hne => List.length_eq_zero_iff.2 (encode_b_eq_nil (hop ▸ hne)), hfitsA, hfitsB⟩

/-- The dispatch finds the command whose opcode the descriptor carries: the eight opcodes are distinct (R51). -/
theorem dispatchOp_encode (i : Instr) : dispatchOp (encode i) = .ok i := by
  cases i <;> rfl

theorem decode_encode (h : i.WellFormed maxLen) : decode maxLen (encode i) = .ok i :=
  (accepted_encode h).decode_eq.trans (dispatchOp_encode i)

/-- A command word with reserved bits 0 is that of its opcode (R50). -/
theorem cmdWord_cmdOp {w : Word} (h : cmdRsv w = 0) : cmdWord (cmdOp w) = w := by
  have hsplit : cmdRsv w ++ cmdOp w = w := by
    apply BitVec.eq_of_getLsbD_eq
    intro j hj
    simp only [cmdRsv, cmdOp, BitVec.getLsbD_append, BitVec.getLsbD_extractLsb']
    split
    · simp [*]
    · rw [show 8 + (j - 8) = j by omega]
      simp [show j - 8 < 24 by omega]
  rw [h] at hsplit
  exact hsplit

/-- The fields of an accepted descriptor: those its opcode does not use are 0 or empty (R54). -/
theorem Accepted.eq_fields (h : Accepted maxLen d) :
    d = { cmd := cmdWord (cmdOp d.cmd), arg0 := if cmdOp d.cmd ∈ gatherOpcodes then d.arg0 else 0,
          a := if cmdOp d.cmd ∈ gatherOpcodes then [] else d.a,
          b := if cmdOp d.cmd = opPackComplex then d.b else [] } := by
  obtain ⟨cmd, arg0, a, b⟩ := d
  rw [cmdWord_cmdOp h.reserved]
  congr 1
  · split
    · rfl
    · exact h.arg0 ‹_›
  · split
    · exact List.length_eq_zero_iff.1 (h.streamA ‹_›)
    · rfl
  · split
    · rfl
    · exact List.length_eq_zero_iff.1 (h.streamB ‹_›)

/-- An accepted descriptor is that of a well-formed command, one for each legal opcode. -/
theorem Accepted.exists_encode (h : Accepted maxLen d) : ∃ i : Instr, d = encode i ∧ i.WellFormed maxLen := by
  have hd := h.eq_fields
  have hlegal := h.opcode
  simp only [legalOpcodes, List.mem_cons, List.not_mem_nil, or_false] at hlegal
  rcases hlegal with hop | hop | hop | hop | hop | hop | hop | hop <;> rw [hop] at hd
  · exact ⟨.packComplex d.a d.b, hd, h.fitsA, h.fitsB⟩
  · exact ⟨.packReal d.a, hd, h.fitsA⟩
  · exact ⟨.unpackReal d.a, hd, h.fitsA⟩
  · exact ⟨.scatterBram d.a, hd, h.fitsA⟩
  · exact ⟨.scatterUram d.a, hd, h.fitsA⟩
  · exact ⟨.scatterDdr4 d.a, hd, h.fitsA⟩
  · exact ⟨.gatherReal d.arg0, hd, trivial⟩
  · exact ⟨.gatherIq d.arg0, hd, trivial⟩

theorem decode_ok_iff : decode maxLen d = .ok i ↔ d = encode i ∧ i.WellFormed maxLen := by
  constructor
  · intro h
    obtain ⟨j, rfl, hj⟩ := (accepted_of_decode_ok h).exists_encode
    rw [decode_encode hj] at h
    cases h
    exact ⟨rfl, hj⟩
  · rintro ⟨rfl, h⟩
    exact decode_encode h

end

/-- Settles O1: the descriptor of a well-formed command passes every check, and the dispatch finds the command. -/
theorem decodeEncodeRoundTrip : Obligations.DecodeEncodeRoundTrip := fun _ _ => decode_encode

/-- Settles O2: an accepted descriptor is that of some well-formed command, and this decodes to no other. -/
theorem decodeAcceptsOnlyEncodings : Obligations.DecodeAcceptsOnlyEncodings := fun _ _ _ => decode_ok_iff.1

/-- Settles O3: the listed conditions are the ways in which a descriptor is not accepted. -/
theorem descriptorDispatchesOrRaises : Obligations.DescriptorDispatchesOrRaises := by
  intro s c d hr op gathers legal
  split
  · rename_i hbad
    have hnot : ¬ Accepted c.maxStreamLen d := by
      rintro ⟨hrsv, hop, harg0, ha, hb, hfitsA, hfitsB⟩
      rcases hbad with h | h | ⟨hg, h⟩ | ⟨hg, h⟩ | ⟨hne, h⟩ | h | h
      · exact h hrsv
      · exact h hop
      · exact h (harg0 hg)
      · exact h (ha hg)
      · exact h (hb hne)
      · exact Nat.not_lt.2 hfitsA h
      · exact Nat.not_lt.2 hfitsB h
    obtain ⟨e, he⟩ := decode_error_of_not_accepted hnot
    rw [runCommand_of_decode_error hr he, raiseError_invalidArgument]
    rfl
  · rename_i hgood
    simp only [not_or, not_and, not_not, Nat.not_lt] at hgood
    obtain ⟨hrsv, hop, harg0, ha, hb, hfitsA, hfitsB⟩ := hgood
    have haccepted : Accepted c.maxStreamLen d := ⟨hrsv, hop, harg0, ha, hb, hfitsA, hfitsB⟩
    obtain ⟨i, hi, hwf⟩ := haccepted.exists_encode
    have hdecode := decode_ok_iff.2 ⟨hi, hwf⟩
    exact ⟨i, hdecode, opcodeOf_decode hdecode, hi.symm, runCommand_of_decode_ok hr hdecode⟩

/-! ### The values that reach the ports -/

/-- A word is one port value for all host integers that differ by multiples of 2^32 (R9, R52). -/
theorem portWord_add_mul (v k : Int) : portWord (v + 4294967296 * k) = portWord v := by
  apply BitVec.eq_of_toInt_eq
  simp only [portWord, trunc32, BitVec.toInt_ofInt]
  exact Int.add_mul_bmod_self_left v (2 ^ 32) k

section
variable {a a' b b' : List Int}

theorem length_eq_of_map_eq {α β : Type} {f : α → β} {xs ys : List α} (h : xs.map f = ys.map f) :
    xs.length = ys.length := by
  simpa using congrArg List.length h

theorem getD_congr_of_map_eq {α β : Type} {f : α → β} {xs ys : List α} (h : xs.map f = ys.map f) (k : Nat) (x : α) :
    f (xs.getD k x) = f (ys.getD k x) := by
  rw [← List.getD_map (f := f), h, List.getD_map]

/-- PACK_REAL packs the samples two by two, as one loop (R62). -/
theorem packRealOut_eq (a : List Int) : packRealOut a = (List.range (a.length / 2)).map fun j =>
    .dcWord (joinHalves (portSample (a.getD (2 * j + 1) 0)) (portSample (a.getD (2 * j) 0))) := by
  induction a using packRealOut.induct with
  | case1 s0 s1 rest ih =>
    have hlen : (s0 :: s1 :: rest).length / 2 = rest.length / 2 + 1 := by
      simp only [List.length_cons]
      omega
    rw [packRealOut, ih, hlen, List.range_succ_eq_map, List.map_cons, List.map_map]
    rfl
  | case2 a h =>
    match a, h with
    | [], _ => rfl
    | [_], _ => simp [packRealOut]
    | x :: y :: r, h => exact absurd rfl (h x y r)

theorem packRealOut_congr (h : a.map portSample = a'.map portSample) : packRealOut a = packRealOut a' := by
  simp only [packRealOut_eq, length_eq_of_map_eq h, getD_congr_of_map_eq h]

theorem packComplexOut_congr (ha : a.map portSample = a'.map portSample) (hb : b.map portSample = b'.map portSample) :
    packComplexOut a b = packComplexOut a' b' := by
  have hports : ∀ x y, packComplexOut x y =
      List.zipWith (fun re im => .dcWord (joinHalves re im)) (x.map portSample) (y.map portSample) := fun x y => by
    rw [List.zipWith_map]
    rfl
  rw [hports, hports, ha, hb]

theorem unpackRealOut_congr (h : a.map portWord = a'.map portWord) : unpackRealOut a = unpackRealOut a' := by
  have hports : ∀ x, unpackRealOut x =
      (x.map portWord).flatMap fun w => [.sample (lo16 w), .sample (hi16 w)] := fun x => by
    rw [List.flatMap_map]
    rfl
  rw [hports, hports, h]

theorem scatterWrites_congr (t : Tech) (h : a.map portWord = a'.map portWord) :
    scatterWrites t a = scatterWrites t a' := by
  simp only [scatterWrites_eq, scatterValue, length_eq_of_map_eq h, getD_congr_of_map_eq h]

theorem scatter_congr (op : BitVec 8) (t : Tech) (h : a.map portWord = a'.map portWord) (s : State) :
    scatter op t a s = scatter op t a' s := by
  simp only [scatter, length_eq_of_map_eq h, scatterWrites_congr t h]

theorem execUnpackReal_congr (h : a.map portWord = a'.map portWord) (s : State) :
    execUnpackReal a s = execUnpackReal a' s := by
  simp only [execUnpackReal, length_eq_of_map_eq h, unpackRealOut_congr h]

theorem execPackReal_congr (h : a.map portSample = a'.map portSample) (s : State) :
    execPackReal a s = execPackReal a' s := by
  simp only [execPackReal, length_eq_of_map_eq h, packRealOut_congr h]

theorem execPackComplex_congr (ha : a.map portSample = a'.map portSample) (hb : b.map portSample = b'.map portSample)
    (s : State) : execPackComplex a b s = execPackComplex a' b' s := by
  simp only [execPackComplex, length_eq_of_map_eq ha, length_eq_of_map_eq hb, packComplexOut_congr ha hb]

end

theorem map_portWord_twins {a m : List Int} (h : a.length = m.length) :
    (List.zipWith (fun v k => v + 4294967296 * k) a m).map portWord = a.map portWord := by
  simp only [List.map_zipWith, portWord_add_mul]
  rw [← List.map_uncurry_zip_eq_zipWith]
  calc (a.zip m).map (Function.uncurry fun v _ => portWord v)
      = ((a.zip m).map Prod.fst).map portWord := by rw [List.map_map]; rfl
    _ = a.map portWord := by rw [List.map_fst_zip h.le]

/-- Settles O32: the twins reach the ports as the same words. -/
theorem wordTwinsAreOneWord : Obligations.WordTwinsAreOneWord := by
  intro s a m hlen a'
  have hports : a'.map portWord = a.map portWord := map_portWord_twins hlen
  exact ⟨execUnpackReal_congr hports s, scatter_congr _ _ hports s, scatter_congr _ _ hports s,
    scatter_congr _ _ hports s⟩

/-! ### Descriptor images -/

/-- The host integer that the image keeps of a stream element (R58). -/
def imageElement (op : BitVec 8) (v : Int) : Int := wordElement (elementWord op v)

theorem ofInt_wordElement (n : Nat) (w : Word) : BitVec.ofInt n (wordElement w) = w.setWidth n := by
  rw [wordElement, Int.ofNat_eq_natCast, BitVec.ofInt_natCast, BitVec.ofNat_toNat]

theorem portSample_imageElement {op : BitVec 8} (hop : op ∈ sampleOpcodes) (v : Int) :
    portSample (imageElement op v) = portSample v := by
  rw [portSample, trunc16, imageElement, ofInt_wordElement, elementWord, if_pos hop,
    BitVec.setWidth_setWidth_of_le _ (by decide), BitVec.setWidth_eq]
  rfl

theorem portWord_imageElement {op : BitVec 8} (hop : op ∉ sampleOpcodes) (v : Int) :
    portWord (imageElement op v) = portWord v := by
  rw [portWord, trunc32, imageElement, ofInt_wordElement, elementWord, if_neg hop, BitVec.setWidth_eq]
  rfl

/-- The descriptor with other stream elements. -/
def mapDescriptor (f : Int → Int) (d : Descriptor) : Descriptor := { d with a := d.a.map f, b := d.b.map f }

theorem parseImage_imageOf {d : Descriptor} (ha : d.a.length < 2 ^ 32) (hb : d.b.length < 2 ^ 32) :
    parseImage (imageOf d) = .ok (mapDescriptor (imageElement (cmdOp d.cmd)) d) := by
  have hlenA : (BitVec.ofNat 32 d.a.length).toNat = d.a.length := Nat.mod_eq_of_lt ha
  have hlenB : (BitVec.ofNat 32 d.b.length).toNat = d.b.length := Nat.mod_eq_of_lt hb
  simp only [imageOf, parseImage, List.cons_append, List.nil_append, hlenA, hlenB]
  rw [if_pos (by simp), List.take_left' (List.length_map _), List.drop_left' (List.length_map _), List.map_map,
    List.map_map]
  rfl

/-- The command with other stream elements. -/
def mapStreams (f : Int → Int) (i : Instr) : Instr :=
  match i with
  | .packComplex a b => .packComplex (a.map f) (b.map f)
  | .packReal a => .packReal (a.map f)
  | .unpackReal a => .unpackReal (a.map f)
  | .scatterBram a => .scatterBram (a.map f)
  | .scatterUram a => .scatterUram (a.map f)
  | .scatterDdr4 a => .scatterDdr4 (a.map f)
  | .gatherReal n => .gatherReal n
  | .gatherIq n => .gatherIq n

theorem encode_mapStreams (f : Int → Int) (i : Instr) : encode (mapStreams f i) = mapDescriptor f (encode i) := by
  cases i <;> rfl

theorem opcodeOf_mapStreams (f : Int → Int) (i : Instr) : opcodeOf (mapStreams f i) = opcodeOf i := by
  cases i <;> rfl

theorem streamFits_map (f : Int → Int) {maxLen : Nat} {xs : List Int} (h : streamFits maxLen xs) :
    streamFits maxLen (xs.map f) :=
  (List.length_map f).trans_le h

theorem wellFormed_mapStreams (f : Int → Int) {maxLen : Nat} {i : Instr} (h : i.WellFormed maxLen) :
    (mapStreams f i).WellFormed maxLen := by
  cases i with
  | packComplex a b => exact ⟨streamFits_map f h.1, streamFits_map f h.2⟩
  | gatherReal n => trivial
  | gatherIq n => trivial
  | _ => exact streamFits_map f h

theorem map_port_map {β : Type} {port : Int → β} {f : Int → Int} (h : ∀ v, port (f v) = port v) (a : List Int) :
    (a.map f).map port = a.map port := by
  rw [List.map_map]
  exact List.map_congr_left fun v _ => h v

/-- A command sees only the port values of its stream elements: Sample16 for the packing commands, DcWord for the
others (R52, R54). -/
theorem exec_mapStreams {f : Int → Int} {i : Instr}
    (hsample : opcodeOf i ∈ sampleOpcodes → ∀ v, portSample (f v) = portSample v)
    (hword : opcodeOf i ∉ sampleOpcodes → ∀ v, portWord (f v) = portWord v) (s : State) :
    exec (mapStreams f i) s = exec i s := by
  cases i with
  | packComplex a b =>
    have hport := hsample (by decide : opPackComplex ∈ sampleOpcodes)
    exact execPackComplex_congr (map_port_map hport a) (map_port_map hport b) s
  | packReal a => exact execPackReal_congr (map_port_map (hsample (by decide : opPackReal ∈ sampleOpcodes)) a) s
  | unpackReal a => exact execUnpackReal_congr (map_port_map (hword (by decide : opUnpackReal ∉ sampleOpcodes)) a) s
  | scatterBram a => exact scatter_congr _ _ (map_port_map (hword (by decide : opScatterBram ∉ sampleOpcodes)) a) s
  | scatterUram a => exact scatter_congr _ _ (map_port_map (hword (by decide : opScatterUram ∉ sampleOpcodes)) a) s
  | scatterDdr4 a => exact scatter_congr _ _ (map_port_map (hword (by decide : opScatterDdr4 ∉ sampleOpcodes)) a) s
  | gatherReal n => rfl
  | gatherIq n => rfl

/-- The image of a well-formed command, read back, is the command with the elements that the image keeps. -/
theorem decodeImage_imageOf_encode {maxLen : Nat} {i : Instr} (hmax : maxLen < 2 ^ 32) (h : i.WellFormed maxLen) :
    decodeImage maxLen (imageOf (encode i)) = .ok (mapStreams (imageElement (opcodeOf i)) i) := by
  obtain ⟨hfitsA, hfitsB⟩ := streamFits_encode h
  have hparse := parseImage_imageOf (hfitsA.trans_lt hmax) (hfitsB.trans_lt hmax)
  rw [cmdOp_encode, ← encode_mapStreams] at hparse
  simp only [decodeImage, hparse]
  exact decode_encode (wellFormed_mapStreams _ h)

/-- Settles O5: the image keeps the port value of every element, and a command sees nothing else of it. -/
theorem imageKeepsPortValues : Obligations.ImageKeepsPortValues := fun _ _ hmax h =>
  ⟨_, decodeImage_imageOf_encode hmax h, opcodeOf_mapStreams _ _,
    exec_mapStreams portSample_imageElement portWord_imageElement⟩

/-! ### Single command words and assembler lines -/

/-- A 32-bit number names the descriptor with that command word and nothing else (R50, R58). -/
theorem parseImage_tableImage {w : Nat} (h : w < 2 ^ 32) :
    parseImage (tableImage 32 w) = .ok { cmd := BitVec.ofNat 32 w, arg0 := 0, a := [], b := [] } := by
  have hzero : ∀ k, wordOfNumber w (k + 1) = 0 := fun k => by
    have hlt : w < 2 ^ (32 * (k + 1)) := h.trans_le (Nat.pow_le_pow_right (by decide) (by omega))
    rw [wordOfNumber, Nat.shiftRight_eq_div_pow, Nat.div_eq_of_lt hlt]
    rfl
  have himage : tableImage 32 w = [BitVec.ofNat 32 w, 0, 0, 0] := by
    simp only [tableImage, Nat.mod_eq_of_lt h, hzero 1, hzero 2]
    show [wordOfNumber w 0, wordOfNumber w 1, wordOfNumber w 2, wordOfNumber w 3] = _
    rw [hzero 0, hzero 1, hzero 2]
    rfl
  rw [himage]
  rfl

theorem decodeTableWord_of_encode {w : Nat} {i : Instr} (h : w < 2 ^ 32)
    (hi : encode i = { cmd := BitVec.ofNat 32 w, arg0 := 0, a := [], b := [] })
    (hwf : i.WellFormed defaultMaxStreamLen) : decodeTableWord 32 w = some i := by
  simp only [decodeTableWord, decodeImage, parseImage_tableImage h, ← hi, decode_encode hwf]

theorem decodeTableWord_eq_none {w : Nat} (h : w < 2 ^ 32)
    (hbad : cmdRsv (BitVec.ofNat 32 w) ≠ 0 ∨ cmdOp (BitVec.ofNat 32 w) ∉ legalOpcodes) :
    decodeTableWord 32 w = none := by
  obtain ⟨e, he⟩ := decode_error_of_not_accepted (maxLen := defaultMaxStreamLen)
    (d := { cmd := BitVec.ofNat 32 w, arg0 := 0, a := [], b := [] })
    fun haccepted => hbad.elim (· haccepted.reserved) (· haccepted.opcode)
  simp only [decodeTableWord, decodeImage, parseImage_tableImage h, he]

/-- Settles O4: the eight words are the command words of the commands, and the other three have a reserved opcode or
reserved bits set. -/
theorem opcodeTableWordsDecode : Obligations.OpcodeTableWordsDecode :=
  ⟨decodeTableWord_of_encode (by decide) rfl (by decide), decodeTableWord_of_encode (by decide) rfl (by decide),
    decodeTableWord_of_encode (by decide) rfl (by decide), decodeTableWord_of_encode (by decide) rfl (by decide),
    decodeTableWord_of_encode (by decide) rfl (by decide), decodeTableWord_of_encode (by decide) rfl (by decide),
    decodeTableWord_of_encode (by decide) rfl trivial, decodeTableWord_of_encode (by decide) rfl trivial,
    decodeTableWord_eq_none (by decide) (.inr (by decide)), decodeTableWord_eq_none (by decide) (.inr (by decide)),
    decodeTableWord_eq_none (by decide) (.inl (by decide))⟩

/-- Settles O6: the assembler is run on each of the four lines. -/
theorem assemblesMnemonicLines : Obligations.AssemblesMnemonicLines := by
  refine ⟨?_, ?_, ?_, ?_⟩
  · decide
  · decide
  · decide
  · decide

end Sys2Proof.Machine

/-! # The codec (40_codec.md): packing, unpacking and their round trips -/

namespace Sys2Proof.Machine

/-! ### How the codec commands end -/

section
variable {s : State} {c : Config} {a b : List Int}

/-- A codec command that succeeds drops nothing and lists no access (R61 to R63, R69). -/
theorem finish_codec (op : BitVec 8) (n : Nat) (out : List Element) (s : State) :
    finish op .none false 0 n out [] s = ended s (statusValue op 1#32) (BitVec.ofNat 32 n) out [] :=
  finish_success op (k := 0) (by decide) n out [] s

theorem exec_packComplex_of_length_ne (hr : Ready s c) (h : a.length ≠ b.length) :
    exec (.packComplex a b) s = .next (ended s (statusValue opPackComplex 3#32) 0#32 [] []) := by
  simp only [exec, execPackComplex, configured_ready hr, if_pos h, raiseError_invalidArgument]

theorem exec_packComplex_of_length_eq (hr : Ready s c) (h : a.length = b.length) :
    exec (.packComplex a b) s = .next (ended s (statusValue opPackComplex 1#32) (BitVec.ofNat 32 a.length)
      (packComplexOut a b) []) := by
  simp only [exec, execPackComplex, configured_ready hr, if_neg (not_not.2 h), finish_codec]

theorem exec_packReal_of_odd (hr : Ready s c) (h : a.length % 2 ≠ 0) :
    exec (.packReal a) s = .next (ended s (statusValue opPackReal 3#32) 0#32 [] []) := by
  simp only [exec, execPackReal, configured_ready hr, if_pos h, raiseError_invalidArgument]

theorem exec_packReal_of_even (hr : Ready s c) (h : a.length % 2 = 0) :
    exec (.packReal a) s = .next (ended s (statusValue opPackReal 1#32) (BitVec.ofNat 32 (a.length / 2))
      (packRealOut a) []) := by
  simp only [exec, execPackReal, configured_ready hr, if_neg (not_not.2 h), finish_codec]

theorem exec_unpackReal (hr : Ready s c) (a : List Int) :
    exec (.unpackReal a) s = .next (ended s (statusValue opUnpackReal 1#32) (BitVec.ofNat 32 (2 * a.length))
      (unpackRealOut a) []) := by
  simp only [exec, execUnpackReal, configured_ready hr, finish_codec]

/-- A command leaves the configuration as it is, so the next one runs. -/
theorem ready_ended (hr : Ready s c) (status count : Word) (out : List Element) (ev : List Event) :
    Ready (ended s status count out ev) c := hr

end

/-! ### The output streams -/

theorem packComplexOut_eq {a b : List Int} (h : a.length = b.length) :
    packComplexOut a b = (List.range a.length).map fun i =>
      .dcWord (joinHalves (portSample (a.getD i 0)) (portSample (b.getD i 0))) := by
  refine List.ext_getElem (by simp [packComplexOut_length h]) fun i hi _ => ?_
  have hia : i < a.length := packComplexOut_length h ▸ hi
  have hib : i < b.length := h ▸ hia
  simp [packComplexOut, hia, hib]

@[simp] theorem unpackRealOut_cons (v : Int) (a : List Int) :
    unpackRealOut (v :: a) = .sample (lo16 (portWord v)) :: .sample (hi16 (portWord v)) :: unpackRealOut a := rfl

/-- Sample `j` of UNPACK_REAL is lane `j mod 2` of word `j / 2` (R63, R86). -/
theorem unpackRealOut_eq (a : List Int) : unpackRealOut a =
    (List.range (2 * a.length)).map fun j => .sample (lane16 (portWord (a.getD (j / 2) 0)) (j % 2)) := by
  rw [Nat.mul_comm, ← range_flatMap_map a.length 2 fun i h => Element.sample (lane16 (portWord (a.getD i 0)) h)]
  induction a with
  | nil => rfl
  | cons v a ih =>
    rw [unpackRealOut_cons, ih, List.length_cons, List.range_succ_eq_map (n := a.length),
      List.flatMap_cons, List.flatMap_map]
    rfl

/-- Settles O28: the two ends of PACK_COMPLEX, with its output written by index. -/
theorem packComplexResult : Obligations.PackComplexResult := by
  intro s c a b hr
  refine ⟨rfl, exec_packComplex_of_length_ne hr, fun h => ?_⟩
  rw [exec_packComplex_of_length_eq hr h, packComplexOut_eq h]
  rfl

/-- Settles O29: the two ends of PACK_REAL, with its output written by index. -/
theorem packRealResult : Obligations.PackRealResult := by
  intro s c a hr
  refine ⟨rfl, exec_packReal_of_odd hr, fun h => ?_⟩
  rw [exec_packReal_of_even hr h, packRealOut_eq]
  rfl

/-- Settles O30: the end of UNPACK_REAL, with its output written by index. -/
theorem unpackRealResult : Obligations.UnpackRealResult := by
  intro s c a hr
  refine ⟨rfl, ?_⟩
  rw [exec_unpackReal hr, unpackRealOut_eq]
  rfl

/-! ### Truncation -/

/-- A sample is one port value for all host integers that differ by multiples of 2^16 (R9, R64). -/
theorem portSample_add_mul (v k : Int) : portSample (v + 65536 * k) = portSample v := by
  apply BitVec.eq_of_toInt_eq
  simp only [portSample, trunc16, BitVec.toInt_ofInt]
  exact Int.add_mul_bmod_self_left v (2 ^ 16) k

theorem map_portSample_twins {a m : List Int} (h : a.length = m.length) :
    (List.zipWith (fun v k => v + 65536 * k) a m).map portSample = a.map portSample := by
  refine List.ext_getElem (by simp [h]) fun i _ _ => ?_
  simp [portSample_add_mul]

/-- Settles O31: the twins reach the ports as the same samples. -/
theorem packingTruncates : Obligations.PackingTruncates := fun s _ _ _ _ ha hb =>
  ⟨execPackReal_congr (map_portSample_twins ha) s,
    execPackComplex_congr (map_portSample_twins ha) (map_portSample_twins hb) s⟩

/-- The 16-bit pattern of a value in [-2^15, 2^15) has that value (R9, R65). -/
theorem sampleValue_portSample {v : Int} (h : -32768 ≤ v ∧ v < 32768) : sampleValue (portSample v) = v :=
  BitVec.toInt_ofInt_eq_self (by decide) h.1 h.2

/-! ### Round trips -/

@[simp] theorem hi16_joinHalves (h l : Sample16) : hi16 (joinHalves h l) = h := BitVec.extractLsb'_append_eq_left

@[simp] theorem lo16_joinHalves (h l : Sample16) : lo16 (joinHalves h l) = l := BitVec.extractLsb'_append_eq_right

/-- The host integer of a DC word reaches a DcWord port as that word (R52, R59). -/
@[simp] theorem portWord_wordElement (w : Word) : portWord (wordElement w) = w := by
  rw [portWord, trunc32, ofInt_wordElement, BitVec.setWidth_eq]

@[simp] theorem wordStream_cons_dcWord (w : Word) (out : List Element) :
    wordStream (.dcWord w :: out) = wordElement w :: wordStream out := rfl

@[simp] theorem sampleStream_cons_sample (x : Sample16) (out : List Element) :
    sampleStream (.sample x :: out) = sampleValue x :: sampleStream out := rfl

theorem wordStream_map_dcWord (ws : List Word) : wordStream (ws.map .dcWord) = ws.map wordElement := by
  induction ws with
  | nil => rfl
  | cons w ws ih => rw [List.map_cons, wordStream_cons_dcWord, ih, List.map_cons]

theorem sampleStream_map_sample (xs : List Sample16) : sampleStream (xs.map .sample) = xs.map sampleValue := by
  induction xs with
  | nil => rfl
  | cons x xs ih => rw [List.map_cons, sampleStream_cons_sample, ih, List.map_cons]

/-- UNPACK_REAL on the words of PACK_REAL: each pair comes back in order, as the samples at its port (R67). -/
theorem unpackRealOut_packRealOut {x : List Int} (h : x.length % 2 = 0) :
    unpackRealOut (wordStream (packRealOut x)) = (x.map portSample).map .sample := by
  induction x using packRealOut.induct with
  | case1 s0 s1 rest ih =>
    have hrest : rest.length % 2 = 0 := (Nat.add_mod_right _ 2).symm.trans h
    simp [packRealOut, ih hrest]
  | case2 x hx =>
    match x, hx with
    | [], _ => rfl
    | [_], _ => simp at h
    | u :: v :: r, hx => exact absurd rfl (hx u v r)

/-- Settles O33: the samples come back as the patterns at the port, whose values are the truncations. -/
theorem realSamplesRoundTrip : Obligations.RealSamplesRoundTrip := by
  intro s c x hr heven
  have hsamples : sampleStream (unpackRealOut (wordStream (packRealOut x))) =
      x.map fun v => (BitVec.ofInt 16 v).toInt := by
    rw [unpackRealOut_packRealOut heven, sampleStream_map_sample, List.map_map]
    rfl
  refine ⟨_, _, _, _, exec_packReal_of_even hr heven, lastResponse_ended .., exec_unpackReal (ready_ended hr ..) _,
    lastResponse_ended .., hsamples, fun hrange => ?_⟩
  calc _ = x.map fun v => sampleValue (portSample v) := hsamples
    _ = x.map id := List.map_congr_left fun v hv => sampleValue_portSample (hrange v hv)
    _ = x := List.map_id x

/-- The words PACK_COMPLEX emits (R61). -/
def packComplexWords (re im : List Int) : List Word :=
  List.zipWith (fun x y => joinHalves (portSample x) (portSample y)) re im

theorem packComplexOut_eq_map (re im : List Int) : packComplexOut re im = (packComplexWords re im).map .dcWord := by
  rw [packComplexWords, List.map_zipWith]
  rfl

/-- The halves of word `i` are the two parts again, where these fit in 16 bits (R68). -/
theorem packComplexWords_halves {re im : List Int} (hlen : re.length = im.length)
    (hre : ∀ v ∈ re, -32768 ≤ v ∧ v < 32768) (him : ∀ v ∈ im, -32768 ≤ v ∧ v < 32768)
    {i : Nat} (hi : i < re.length) :
    ∃ w, (packComplexWords re im)[i]? = some w ∧ re[i]? = some (sampleValue (hi16 w)) ∧
      im[i]? = some (sampleValue (lo16 w)) := by
  have hi' : i < im.length := hlen ▸ hi
  refine ⟨joinHalves (portSample re[i]) (portSample im[i]), by simp [packComplexWords, hi, hi'], ?_, ?_⟩
  · rw [hi16_joinHalves, sampleValue_portSample (hre _ (List.getElem_mem hi)), List.getElem?_eq_getElem hi]
  · rw [lo16_joinHalves, sampleValue_portSample (him _ (List.getElem_mem hi')), List.getElem?_eq_getElem hi']

/-- The two samples UNPACK_REAL gives for word `i` of an output stream (R63, R68). -/
theorem sampleStream_unpackRealOut_getElem? {ws : List Word} {i : Nat} {w : Word} (h : ws[i]? = some w) :
    (sampleStream (unpackRealOut (ws.map wordElement)))[2 * i]? = some (sampleValue (lo16 w)) ∧
      (sampleStream (unpackRealOut (ws.map wordElement)))[2 * i + 1]? = some (sampleValue (hi16 w)) := by
  induction ws generalizing i with
  | nil => simp at h
  | cons u ws ih =>
    cases i with
    | zero =>
      cases h
      simp
    | succ i => simpa [Nat.mul_succ] using ih (by simpa using h)

/-- Settles O34: each word has the two parts as its halves, and UNPACK_REAL gives the low half first. -/
theorem complexSamplesRoundTrip : Obligations.ComplexSamplesRoundTrip := by
  intro s c re im hr hlen hre him
  have hwords := packComplexOut_eq_map re im
  refine ⟨_, _, _, _, exec_packComplex_of_length_eq hr hlen, lastResponse_ended .., packComplexOut_length hlen,
    fun i hi => ?_, exec_unpackReal (ready_ended hr ..) _, lastResponse_ended .., fun i hi => ?_⟩
  · obtain ⟨w, hw, hre', him'⟩ := packComplexWords_halves hlen hre him hi
    exact ⟨w, by rw [hwords, List.getElem?_map, hw]; rfl, hre', him'⟩
  · obtain ⟨w, hw, hre', him'⟩ := packComplexWords_halves hlen hre him hi
    rw [hwords, wordStream_map_dcWord, hre', him']
    exact sampleStream_unpackRealOut_getElem? hw

/-! ### The response of a codec command -/

/-- The response of the command is the same in every configured machine and lists no access (R69). -/
def hasFixedResponse (i : Instr) : Prop :=
  ∃ status count out, ∀ s c, Ready s c → exec i s = .next (ended s status count out [])

theorem hasFixedResponse_packComplex (a b : List Int) : hasFixedResponse (.packComplex a b) := by
  by_cases h : a.length = b.length
  · exact ⟨_, _, _, fun _ _ hr => exec_packComplex_of_length_eq hr h⟩
  · exact ⟨_, _, _, fun _ _ hr => exec_packComplex_of_length_ne hr h⟩

theorem hasFixedResponse_packReal (a : List Int) : hasFixedResponse (.packReal a) := by
  by_cases h : a.length % 2 = 0
  · exact ⟨_, _, _, fun _ _ hr => exec_packReal_of_even hr h⟩
  · exact ⟨_, _, _, fun _ _ hr => exec_packReal_of_odd hr h⟩

theorem hasFixedResponse_unpackReal (a : List Int) : hasFixedResponse (.unpackReal a) :=
  ⟨_, _, _, fun _ _ hr => exec_unpackReal hr a⟩

/-- Settles O35: the response is fixed by the command, whose stream lengths decide how it ends. -/
theorem codecResponseDependsOnDescriptorOnly : Obligations.CodecResponseDependsOnDescriptorOnly := by
  intro s s' c c' i hr hr' hcodec
  have hfixed : hasFixedResponse i := by
    rcases hcodec with ⟨a, b, rfl⟩ | ⟨a, rfl⟩ | ⟨a, rfl⟩
    · exact hasFixedResponse_packComplex a b
    · exact hasFixedResponse_packReal a
    · exact hasFixedResponse_unpackReal a
  obtain ⟨status, count, out, hend⟩ := hfixed
  exact ⟨_, _, _, hend s c hr, hend s' c' hr', rfl, rfl, rfl⟩

end Sys2Proof.Machine

/-! # The scatter permuter (41_scatter.md): lane layouts, the SCATTER commands and gather-by-offset -/

namespace Sys2Proof.Machine

/-! ### The lane layouts -/

/-- The lanes of a wide period: groups falling, lanes rising inside a group (R73, R75). -/
theorem laneOf_bram (s : Nat) : laneOf .bram s = 8 * (3 - s / 8) + s % 8 := rfl

theorem laneOf_uram (s : Nat) : laneOf .uram s = 8 * (3 - s / 8) + s % 8 := rfl

/-- The two groups of a DDR4 period are exchanged (R76). -/
theorem laneOf_ddr4 {s : Nat} (h : s < 16) : laneOf .ddr4 s = (s + 8) % 16 := by
  have hlane : laneOf .ddr4 s = 8 * (1 - s / 8) + s % 8 := rfl
  omega

/-- The slots of all periods, counted in order, are the words of the region in order (R74). -/
theorem slotOffset_eq (t : Tech) (p s : Nat) : slotOffset t p s = 4 * (p * lanes t + s) := by
  rw [slotOffset, periodBytes_eq, Nat.mul_add, Nat.mul_left_comm]

/-- Settles O40: the layouts in closed form, at a group and a place in it. -/
theorem laneTables : Obligations.LaneTables := by
  refine ⟨fun q hq r hr => ?_, fun s hs => ?_, fun s hs => ?_, rfl, rfl, rfl, rfl, rfl, rfl, fun t s _ => ?_⟩
  · rw [laneOf_bram, laneOf_uram]
    omega
  · rw [laneOf_ddr4 (by omega)]
    omega
  · rw [laneOf_ddr4 (by omega)]
    omega
  · rw [slotOffset_eq, Nat.zero_mul, Nat.zero_add]

/-- Settles O41: a layout maps lanes to lanes and undoes itself. -/
theorem lanePermutationInvolution : Obligations.LanePermutationInvolution := fun t _ h =>
  ⟨laneOf_lt t h, laneOf_laneOf t h⟩

/-! ### The writes of a scatter -/

theorem map_fst_scatterWrites (t : Tech) (a : List Int) :
    (scatterWrites t a).map Prod.fst = (List.range (a.length / lanes t * lanes t)).map (4 * ·) := by
  rw [scatterWrites_eq, List.map_map]
  rfl

/-- Settles O42: the offsets are the multiples of 4 in order. -/
theorem scatterOffsetsTile : Obligations.ScatterOffsetsTile := by
  intro t a
  rw [map_fst_scatterWrites]
  refine ⟨List.nodup_range.map (mul_right_injective₀ (by decide)), fun off => ?_⟩
  simp only [List.mem_map, List.mem_range, eq_comm]

/-- The word at slot `s` of period `p` is the one of the slot's lane (R72, R77). -/
theorem scatterValue_slot {t : Tech} {s : Nat} (h : s < lanes t) (a : List Int) (p : Nat) :
    scatterValue t a (p * lanes t + s) = portWord (a.getD (p * lanes t + laneOf t s) 0) := by
  have hdiv : (p * lanes t + s) / lanes t = p := by
    rw [Nat.mul_comm, Nat.mul_add_div (lanes_pos t), Nat.div_eq_of_lt h, Nat.add_zero]
  have hmod : (p * lanes t + s) % lanes t = s := by rw [Nat.mul_add_mod', Nat.mod_eq_of_lt h]
  rw [scatterValue, hdiv, hmod]

/-- A layout may be replaced by any function that agrees with it on the slots of a period. -/
theorem scatterValue_eq {t : Tech} {lane : Nat → Nat} (hlane : ∀ s < lanes t, laneOf t s = lane s) (a : List Int)
    (j : Nat) : scatterValue t a j = BitVec.ofInt 32 (a.getD (j / lanes t * lanes t + lane (j % lanes t)) 0) := by
  rw [scatterValue, hlane _ (Nat.mod_lt j (lanes_pos t))]
  rfl

/-- The playback region after the writes of a scatter. -/
def scatterMemory (order : ByteOrder) (t : Tech) (a : List Int) (m : Memory) : Memory :=
  allWrites order (scatterWrites t a) m

section
variable {t : Tech} {a : List Int} {j : Nat}

theorem readWord_scatterMemory (h : j < a.length / lanes t * lanes t) (order : ByteOrder) (m : Memory) :
    readWord order (4 * j) (scatterMemory order t a m) = some (scatterValue t a j) := by
  have hmem : (4 * j, scatterValue t a j) ∈ scatterWrites t a := by
    rw [scatterWrites_eq]
    exact List.mem_map_of_mem (List.mem_range.2 h)
  exact readWord_allWrites_mem (scatterWrites_disjoint t a) hmem m

theorem readByte_scatterMemory_past {x : Nat} (h : a.length / lanes t * periodBytes t ≤ x) (order : ByteOrder)
    (m : Memory) : readByte x (scatterMemory order t a m) = readByte x m :=
  readByte_allWrites_other (fun w hw => .inr ((scatterWrites_inside le_rfl w hw).2.trans h)) m

end

/-! ### How a scatter ends -/

section
variable {s : State} {c : Config} {t : Tech} {a : List Int}

theorem scatter_of_invalid (hr : Ready s c) (h : c.regionTech ≠ t ∨ a.length = 0) (op : BitVec 8) :
    scatter op t a s = .next (ended s (statusValue op 3#32) 0#32 [] []) := by
  rw [scatter, configured_ready hr, raiseError_invalidArgument]
  by_cases htech : t ≠ c.regionTech
  · rw [if_pos htech]
  · rw [if_neg htech, if_pos (h.resolve_left fun hne => htech hne.symm)]

theorem scatter_of_range (hr : Ready s c) (htech : c.regionTech = t) (ha : a.length ≠ 0)
    (h : c.regionSize < a.length / lanes t * periodBytes t) (op : BitVec 8) :
    scatter op t a s = .next (ended s (statusValue op 5#32) 0#32 [] []) := by
  rw [scatter, configured_ready hr, if_neg (not_not.2 htech.symm), if_neg ha, if_pos h, raiseError_rangeViolation]

theorem scatter_of_fit (hr : Ready s c) (htech : c.regionTech = t) (ha : a.length ≠ 0)
    (h : a.length / lanes t * periodBytes t ≤ c.regionSize) (op : BitVec 8) :
    scatter op t a s =
      .next (ended (withPlayback (scatterMemory c.mmioByteOrder t a s.playback) s)
        (statusValue op (successLow (a.length % lanes t))) (BitVec.ofNat 32 (a.length / lanes t * lanes t)) []
        (writeEvents (scatterWrites t a))) := by
  have hk : a.length % lanes t < 32 := (Nat.mod_lt _ (lanes_pos t)).trans_le (lanes_le t)
  rw [scatter, configured_ready hr, if_neg (not_not.2 htech.symm), if_neg ha, if_neg (Nat.not_lt.2 h),
    memWrites_ok (scatterWrites_inside h)]
  exact congrArg _ (finish_success op hk _ _ _ _)

end

/-- A command that runs as `scatter` keeps the rule of its technology, with the layout in any form. -/
theorem scatterRule_of_exec_eq_scatter {mk : List Int → Instr} {cmd : Word} {op : BitVec 8} {t : Tech} {L : Nat}
    {lane : Nat → Nat} (hencode : ∀ a, encode (mk a) = { cmd := cmd, arg0 := 0#32, a := a, b := [] })
    (hop : ∀ a, opcodeOf (mk a) = op) (hexec : ∀ a s, exec (mk a) s = scatter op t a s) (hL : lanes t = L)
    (hlane : ∀ s < lanes t, laneOf t s = lane s) : ScatterRule mk cmd op t L lane := by
  subst hL
  intro s c a hr
  rw [hexec]
  refine ⟨hencode a, hop a, fun h => scatter_of_invalid hr h op, fun htech ha h => scatter_of_range hr htech ha h op,
    fun htech ha h => ⟨scatterMemory c.mmioByteOrder t a s.playback, ?_, fun j hj => ?_, fun x hx => ?_⟩⟩
  · simp only [scatter_of_fit hr htech ha h, writeEvents, scatterWrites_eq, List.map_map, Function.comp_def,
      scatterValue_eq hlane]
    rfl
  · rw [readWord_scatterMemory hj, scatterValue_eq hlane]
  · exact readByte_scatterMemory_past hx _ _

/-- Settles O37: the command runs as `scatter` with the BRAM layout. -/
theorem scatterBramResult : Obligations.ScatterBramResult :=
  scatterRule_of_exec_eq_scatter (fun _ => rfl) (fun _ => rfl) (fun _ _ => rfl) rfl fun s _ => laneOf_bram s

/-- Settles O38: the command runs as `scatter` with the URAM layout. -/
theorem scatterUramResult : Obligations.ScatterUramResult :=
  scatterRule_of_exec_eq_scatter (fun _ => rfl) (fun _ => rfl) (fun _ _ => rfl) rfl fun s _ => laneOf_uram s

/-- Settles O39: the command runs as `scatter` with the DDR4 layout. -/
theorem scatterDdr4Result : Obligations.ScatterDdr4Result :=
  scatterRule_of_exec_eq_scatter (fun _ => rfl) (fun _ => rfl) (fun _ _ => rfl) rfl fun _ => laneOf_ddr4

/-! ### Gather-by-offset -/

/-- The word at the slot of lane `i` is word `i` of its period, since a layout is its own inverse (R82, R83). -/
theorem readWord_scatterMemory_lane {t : Tech} {a : List Int} {p i : Nat} (hp : p < a.length / lanes t)
    (hi : i < lanes t) (order : ByteOrder) (m : Memory) :
    readWord order (slotOffset t p (laneOf t i)) (scatterMemory order t a m) =
      some (portWord (a.getD (p * lanes t + i) 0)) := by
  have hlane := laneOf_lt t hi
  have hword : p * lanes t + laneOf t i < a.length / lanes t * lanes t :=
    calc p * lanes t + laneOf t i < (p + 1) * lanes t := by rw [Nat.succ_mul]; omega
      _ ≤ a.length / lanes t * lanes t := Nat.mul_le_mul_right _ hp
  rw [slotOffset_eq, readWord_scatterMemory hword, scatterValue_slot hlane, laneOf_laneOf t hi]

theorem map_range_getD_eq_map_take {α β : Type} (f : α → β) (d : α) {n : Nat} {xs : List α} (h : n ≤ xs.length) :
    ((List.range n).map fun j => f (xs.getD j d)) = (xs.take n).map f := by
  refine List.ext_getElem (by simp [h]) fun j hj _ => ?_
  have hjn : j < n := by simpa using hj
  simp [hjn.trans_le h]

theorem gatherByOffset_scatterMemory (t : Tech) (a : List Int) (order : ByteOrder) (m : Memory) :
    gatherByOffset t order (scatterMemory order t a m) (a.length / lanes t) =
      (a.take (a.length / lanes t * lanes t)).map fun v => some (BitVec.ofInt 32 v) := by
  rw [← map_range_getD_eq_map_take _ 0 (Nat.div_mul_le_self _ _), gatherByOffset, range_flatMap_map]
  refine List.map_congr_left fun j hj => ?_
  have hperiod := Nat.div_lt_of_lt_mul (Nat.mul_comm _ (lanes t) ▸ List.mem_range.1 hj)
  rw [readWord_scatterMemory_lane hperiod (Nat.mod_lt j (lanes_pos t)), Nat.div_add_mod']
  rfl

/-- Settles O43: the command ends with the words in place, and gather-by-offset finds each at its lane. -/
theorem gatherByOffsetRestores : Obligations.GatherByOffsetRestores := by
  intro s c i t a hr htech ha hi hfit
  have hexec : ∃ op, exec i s = scatter op t a s := by
    rcases hi with ⟨rfl, rfl⟩ | ⟨rfl, rfl⟩ | ⟨rfl, rfl⟩ <;> exact ⟨_, rfl⟩
  obtain ⟨op, hexec⟩ := hexec
  exact ⟨_, hexec.trans (scatter_of_fit hr htech ha hfit op), gatherByOffset_scatterMemory t a _ _⟩

end Sys2Proof.Machine

/-! # The capture demultiplexer (42_gather.md): what the gathers read and emit, and what they do not tell -/

namespace Sys2Proof.Machine

/-! ### How a gather ends -/

/-- The first `words` words of the capture region exist (R87). -/
def wordsFit (c : Config) (words : Nat) : Prop := ∀ w < words, capOffset c w + 4 ≤ c.capRegionSize

theorem wordsInside_zero_iff (c : Config) (words : Nat) : wordsInside c 0 words = true ↔ wordsFit c words := by
  simp only [wordsInside_iff, wordsFit, Nat.zero_add]

theorem wordsFit.mono {c : Config} {m n : Nat} (h : wordsFit c n) (hmn : m ≤ n) : wordsFit c m :=
  fun w hw => h w (hw.trans_le hmn)

theorem not_wordsFit {c : Config} {words : Nat} (h : ∃ w < words, c.capRegionSize < capOffset c w + 4) :
    ¬ wordsFit c words := by
  obtain ⟨w, hw, hpast⟩ := h
  exact fun hfit => (hfit w hw).not_gt hpast

/-- What the gather of the first `words` words in `s` reads: the words `cs`, after which the draw index is `d`. -/
def GatherReads (c : Config) (s : State) (words : Nat) (cs : List Word) (d : Nat) : Prop :=
  readPairs c s.source (settled c s) s.capture (capOffsets c words) s.draws = .ok (cs, d)

section
variable {c : Config} {s : State} {words : Nat}

/-- A gather of words that exist reads one value for each, in a settled machine the capture word where it has a value. -/
theorem exists_gatherReads (hc : configOk c) (hfit : wordsFit c words) (s : State) :
    ∃ cs d, GatherReads c s words cs d ∧ cs.length = words ∧
      (settled c s = true → ∀ w < words, ∀ v, readWord c.mmioByteOrder (capOffset c w) s.capture = some v →
        cs.getD w 0 = v) := by
  obtain ⟨cs, d, hreads, hlength, -, hsettled⟩ :=
    readPairs_ok (capOffsets_inside hc ((wordsInside_zero_iff c words).2 hfit)) s.source (settled c s) s.capture s.draws
  refine ⟨cs, d, hreads, by simpa using hlength, fun hs w hw v hv => ?_⟩
  have hword : cs[w]? = some v := hsettled hs w v ⟨capOffset c w, by simp [hw], hv⟩
  rw [List.getD_eq_getElem?_getD, hword, Option.getD_some]

theorem gather_of_range (hfit : ¬ wordsFit c words) (op : BitVec 8) (k : Nat) (demux : List Word → List Element)
    (s : State) : gather op words k demux c s = .next (ended s (statusValue op 5#32) 0#32 [] []) := by
  have hrange : wordsInside c 0 words = false :=
    Bool.eq_false_iff.2 fun h => hfit ((wordsInside_zero_iff c words).1 h)
  rw [gather, if_pos hrange, raiseError_rangeViolation]

theorem gather_of_fit (hfit : wordsFit c words) {cs : List Word} {d : Nat} (hreads : GatherReads c s words cs d)
    (op : BitVec 8) {k : Nat} (hk : k < 32) (demux : List Word → List Element) :
    gather op words k demux c s =
      .next (ended (withDraws d s) (statusValue op (successLow k)) (BitVec.ofNat 32 (demux cs).length) (demux cs)
        ((List.range words).flatMap fun w => [.read (capOffset c w), .read (capOffset c w)])) := by
  have hrange : ¬ wordsInside c 0 words = false := by rw [(wordsInside_zero_iff c words).2 hfit]; decide
  rw [GatherReads] at hreads
  rw [gather, if_neg hrange, hreads]
  dsimp only
  rw [finish_success op hk, readEvents, List.flatMap_map]

end

section
variable {s : State} {c : Config} {n : Word}

theorem exec_gatherReal_of_zero (hr : Ready s c) (hn : n.toNat = 0) :
    exec (.gatherReal n) s = .next (ended s (statusValue opGatherReal 3#32) 0#32 [] []) := by
  simp only [exec, execGatherReal, configured_ready hr, portCount, if_pos hn, raiseError_invalidArgument]

theorem exec_gatherReal_of_ne_zero (hr : Ready s c) (hn : n.toNat ≠ 0) :
    exec (.gatherReal n) s = gather opGatherReal n.toNat 0 (realSamples 0) c s := by
  simp only [exec, execGatherReal, configured_ready hr, portCount]
  exact if_neg hn

theorem exec_gatherIq_of_zero (hr : Ready s c) (hn : n.toNat = 0) :
    exec (.gatherIq n) s = .next (ended s (statusValue opGatherIq 3#32) 0#32 [] []) := by
  simp only [exec, execGatherIq, configured_ready hr, portCount, if_pos hn, raiseError_invalidArgument]

theorem exec_gatherIq_of_ne_zero (hr : Ready s c) (hn : n.toNat ≠ 0) :
    exec (.gatherIq n) s = gather opGatherIq (8 * (n.toNat / 8)) (n.toNat % 8) iqSamples c s := by
  simp only [exec, execGatherIq, configured_ready hr, portCount, capBlock]
  exact if_neg hn

end

/-! ### The output streams -/

/-- Sample `i` of the half blocks that begin at word `first` of each block: lane `i mod 2` of its word (R86, R90, R92). -/
def blockSample (cs : List Word) (first i : Nat) : Sample16 :=
  lane16 (cs.getD (8 * (i / 8) + first + i % 8 / 2) 0) (i % 2)

theorem blockSample_append {cs : List Word} {first i : Nat} (h : 8 * (i / 8) + first + i % 8 / 2 < cs.length)
    (cs' : List Word) : blockSample (cs ++ cs') first i = blockSample cs first i := by
  rw [blockSample, blockSample, List.getD_append _ _ _ _ h]

/-- Where the words read are those of the capture region, a sample is a half of its capture word. -/
theorem blockSample_of_word {cs : List Word} {first i : Nat} {v : Word}
    (h : cs.getD (8 * (i / 8) + first + i % 8 / 2) 0 = v) :
    blockSample cs first i = if i % 2 = 0 then v.extractLsb' 0 16 else v.extractLsb' 16 16 := by
  rw [blockSample, h]
  rfl

theorem realCount_succ (n : Nat) : realCount (n + 1) = realCount n + if n % 8 < 4 then 2 else 0 := by
  unfold realCount
  split <;> omega

/-- The word of a sample comes before the words whose samples are still to come. -/
theorem sampleWord_lt_of_lt_realCount {i n : Nat} (h : i < realCount n) : 8 * (i / 8) + 0 + i % 8 / 2 < n := by
  unfold realCount at h
  omega

/-- The next word of a first half block gives the next two samples. -/
theorem blockSample_realCount {cs : List Word} (h : cs.length % 8 < 4) (v : Word) {lane : Nat} (hlane : lane < 2) :
    blockSample (cs ++ [v]) 0 (realCount cs.length + lane) = lane16 v lane := by
  have hcount : realCount cs.length = 8 * (cs.length / 8) + 2 * (cs.length % 8) := by unfold realCount; omega
  have hword : 8 * ((realCount cs.length + lane) / 8) + 0 + (realCount cs.length + lane) % 8 / 2 = cs.length := by omega
  have hhalf : (realCount cs.length + lane) % 2 = lane := by omega
  rw [blockSample, hword, hhalf, List.getD_append_right _ _ _ _ le_rfl, Nat.sub_self, List.getD_cons_zero]

theorem realSamples_append (w : Nat) (cs cs' : List Word) :
    realSamples w (cs ++ cs') = realSamples w cs ++ realSamples (w + cs.length) cs' := by
  induction cs generalizing w with
  | nil => rfl
  | cons v cs ih =>
    rw [List.cons_append, realSamples_cons, realSamples_cons, ih, List.append_assoc, List.length_cons,
      Nat.add_right_comm, Nat.add_assoc]

/-- The output of GATHER_REAL by index (R88, R90). -/
theorem realSamples_eq (cs : List Word) :
    realSamples 0 cs = (List.range (realCount cs.length)).map fun i => .sample (blockSample cs 0 i) := by
  induction cs using List.reverseRecOn with
  | nil => rfl
  | append_singleton cs v ih =>
    rw [realSamples_append, ih, Nat.zero_add, realSamples_cons, List.length_append, List.length_singleton, realCount_succ,
      List.range_add, List.map_append]
    congr 1
    · refine List.map_congr_left fun i hi => ?_
      rw [blockSample_append (sampleWord_lt_of_lt_realCount (List.mem_range.1 hi))]
    · split
      · rename_i hkept
        have hlo : blockSample (cs ++ [v]) 0 (realCount cs.length) = lo16 v := blockSample_realCount hkept v Nat.two_pos
        have hhi : blockSample (cs ++ [v]) 0 (realCount cs.length + 1) = hi16 v :=
          blockSample_realCount hkept v Nat.one_lt_two
        simp [List.range_succ, realSamples, hlo, hhi]
      · rfl

theorem realSamples_zero_length (cs : List Word) : (realSamples 0 cs).length = realCount cs.length := by
  rw [realSamples_eq, List.length_map, List.length_range]

/-- The output of GATHER_IQ by index: I from the first half of a block, Q from the second (R91, R92). -/
theorem iqSamples_eq_blockSample (cs : List Word) :
    iqSamples cs = (List.range (cs.length / 8 * 8)).map fun i => .iq (blockSample cs 0 i) (blockSample cs 4 i) := by
  rw [iqSamples_eq]
  refine List.map_congr_left fun i _ => ?_
  rw [Nat.mod_mod_of_dvd i (by decide : 2 ∣ 8)]
  rfl

/-- On whole blocks the two demultiplexers keep the same lanes of the first half block (R96). -/
theorem map_iPart_iqSamples {cs : List Word} (h : cs.length % 8 = 0) : (iqSamples cs).map iPart = realSamples 0 cs := by
  have hcount : realCount cs.length = cs.length / 8 * 8 := by unfold realCount; omega
  rw [iqSamples_eq_blockSample, realSamples_eq, hcount, List.map_map]
  rfl

theorem getElem?_realSamples {cs : List Word} {i : Nat} (h : i < realCount cs.length) :
    (realSamples 0 cs)[i]? = some (.sample (blockSample cs 0 i)) := by
  rw [realSamples_eq, List.getElem?_map, List.getElem?_range h, Option.map_some]

theorem getElem?_iqSamples {cs : List Word} {i : Nat} (h : i < cs.length / 8 * 8) :
    (iqSamples cs)[i]? = some (.iq (blockSample cs 0 i) (blockSample cs 4 i)) := by
  rw [iqSamples_eq_blockSample, List.getElem?_map, List.getElem?_range h, Option.map_some]

/-- Settles O47: the gather ends in one of three ways, and the samples it emits are known by index. -/
theorem gatherRealResult : Obligations.GatherRealResult := by
  intro s c n hr
  refine ⟨rfl, exec_gatherReal_of_zero hr, fun hn hpast => ?_, fun hn hfit => ?_⟩
  · rw [exec_gatherReal_of_ne_zero hr hn, gather_of_range (not_wordsFit hpast)]
    rfl
  · obtain ⟨cs, d, hreads, hlength, hwords⟩ := exists_gatherReads hr.2 hfit s
    have hcount : (realSamples 0 cs).length = realCount n.toNat := by rw [realSamples_zero_length, hlength]
    have hout : ∀ i < (realSamples 0 cs).length, (realSamples 0 cs)[i]? = some (.sample (blockSample cs 0 i)) :=
      fun i hi => getElem?_realSamples (realSamples_zero_length cs ▸ hi)
    refine ⟨d, realSamples 0 cs, ?_, hcount, fun i hi => ⟨_, hout i hi⟩, fun hs i hi v hv => ?_⟩
    · rw [exec_gatherReal_of_ne_zero hr hn, gather_of_fit hfit hreads opGatherReal (by decide)]
      rfl
    · have hword := sampleWord_lt_of_lt_realCount (hcount ▸ hi)
      rw [hout i hi, blockSample_of_word (hwords hs _ hword v hv)]

/-- Settles O48: the gather ends in one of three ways, and the pairs it emits are known by index. -/
theorem gatherIqResult : Obligations.GatherIqResult := by
  intro s c n hr
  refine ⟨rfl, exec_gatherIq_of_zero hr, fun hn hpast => ?_, fun hn hfit => ?_⟩
  · rw [exec_gatherIq_of_ne_zero hr hn, gather_of_range (not_wordsFit hpast)]
    rfl
  · obtain ⟨cs, d, hreads, hlength, hwords⟩ := exists_gatherReads hr.2 hfit s
    have hcount : (iqSamples cs).length = 8 * (n.toNat / 8) := by rw [iqSamples_length, hlength]; omega
    have hout : ∀ i < (iqSamples cs).length,
        (iqSamples cs)[i]? = some (.iq (blockSample cs 0 i) (blockSample cs 4 i)) :=
      fun i hi => getElem?_iqSamples (iqSamples_length cs ▸ hi)
    refine ⟨d, iqSamples cs, ?_, hcount, fun i hi => ⟨_, _, hout i hi⟩, fun hs i hi v v' hv hv' => ?_⟩
    · rw [exec_gatherIq_of_ne_zero hr hn, gather_of_fit hfit hreads opGatherIq (by omega), hcount]
      rfl
    · have hI : 8 * (i / 8) + 0 + i % 8 / 2 < 8 * (n.toNat / 8) := by omega
      have hQ : 8 * (i / 8) + 4 + i % 8 / 2 < 8 * (n.toNat / 8) := by omega
      rw [hout i hi, blockSample_of_word (hwords hs _ hI v hv), blockSample_of_word (hwords hs _ hQ v' hv')]

/-! ### What a gather tells while SETTLED does not hold -/

/-- Two runs that complete with the same STATUS, COUNT, events and output length (R97). -/
def endAlike (x x' : Answer) : Prop :=
  ∃ t t' r r', x = .next t ∧ x' = .next t' ∧ lastResponse t = some r ∧ lastResponse t' = some r' ∧
    t.status = t'.status ∧ t.count = t'.count ∧ r.events = r'.events ∧ r.out.length = r'.out.length

theorem endAlike_ended {s s' : State} {out out' : List Element} (h : out.length = out'.length) (status count : Word)
    (ev : List Event) :
    endAlike (.next (ended s status count out ev)) (.next (ended s' status count out' ev)) :=
  ⟨_, _, _, _, rfl, rfl, lastResponse_ended .., lastResponse_ended .., rfl, rfl, rfl, h⟩

/-- Two gathers whose demultiplexer makes as many elements of as many words end alike, whatever they read. -/
theorem gather_endAlike {c : Config} (hc : configOk c) (s s' : State) (op : BitVec 8) (words : Nat) {k : Nat}
    (hk : k < 32) {demux : List Word → List Element}
    (hdemux : ∀ cs cs' : List Word, cs.length = cs'.length → (demux cs).length = (demux cs').length) :
    endAlike (gather op words k demux c s) (gather op words k demux c s') := by
  by_cases hfit : wordsFit c words
  · obtain ⟨cs, d, hreads, hlength, -⟩ := exists_gatherReads hc hfit s
    obtain ⟨cs', d', hreads', hlength', -⟩ := exists_gatherReads hc hfit s'
    have hout := hdemux cs cs' (hlength.trans hlength'.symm)
    rw [gather_of_fit hfit hreads op hk, gather_of_fit hfit hreads' op hk, hout]
    exact endAlike_ended hout _ _ _
  · rw [gather_of_range hfit, gather_of_range hfit]
    exact endAlike_ended rfl _ _ _

/-- Settles O50: the range check looks at the configuration alone, and the output length is that of the words read. -/
theorem unsettledGatherHasSameShape : Obligations.UnsettledGatherHasSameShape := by
  intro s s' c i n hr hr' hi
  show endAlike (exec i s) (exec i s')
  by_cases hn : n.toNat = 0
  · rcases hi with rfl | rfl
    · rw [exec_gatherReal_of_zero hr hn, exec_gatherReal_of_zero hr' hn]
      exact endAlike_ended rfl _ _ _
    · rw [exec_gatherIq_of_zero hr hn, exec_gatherIq_of_zero hr' hn]
      exact endAlike_ended rfl _ _ _
  · rcases hi with rfl | rfl
    · rw [exec_gatherReal_of_ne_zero hr hn, exec_gatherReal_of_ne_zero hr' hn]
      exact gather_endAlike hr.2 s s' _ _ (by decide) fun cs cs' h => by
        rw [realSamples_zero_length, realSamples_zero_length, h]
    · rw [exec_gatherIq_of_ne_zero hr hn, exec_gatherIq_of_ne_zero hr' hn]
      exact gather_endAlike hr.2 s s' _ _ (by omega) fun cs cs' h => by
        rw [iqSamples_length, iqSamples_length, h]

/-- Read pairs that are not settled return free values, whatever the capture region holds (R41). -/
theorem readPairs_unsettled (c : Config) (source : Nat) (cm cm' : Memory) (offs : List Nat) (draw : Nat) :
    readPairs c source false cm offs draw = readPairs c source false cm' offs draw := by
  induction offs generalizing draw with
  | nil => rfl
  | cons off rest ih =>
    have hpair : readPair c source false cm off draw = readPair c source false cm' off draw := rfl
    simp only [readPairs, hpair, ih]

section
variable {c : Config} {s : State}

theorem GatherReads.withCapture {words : Nat} {cs : List Word} {d : Nat} (hs : settled c s = false)
    (h : GatherReads c s words cs d) (cm : Memory) : GatherReads c { s with capture := cm } words cs d := by
  have hs' : settled c { s with capture := cm } = false := hs
  rw [GatherReads, hs] at h
  rw [GatherReads, hs', ← h]
  exact readPairs_unsettled ..

/-- Two runs that complete in the same state, but for the capture region `cm` of the second. -/
def endButCapture (cm : Memory) (x x' : Answer) : Prop := ∃ t, x = .next t ∧ x' = .next { t with capture := cm }

theorem gather_withCapture (hc : configOk c) (hs : settled c s = false) (cm : Memory) (op : BitVec 8) (words : Nat)
    {k : Nat} (hk : k < 32) (demux : List Word → List Element) :
    endButCapture cm (gather op words k demux c s) (gather op words k demux c { s with capture := cm }) := by
  by_cases hfit : wordsFit c words
  · obtain ⟨cs, d, hreads, -⟩ := exists_gatherReads hc hfit s
    exact ⟨_, gather_of_fit hfit hreads op hk demux, gather_of_fit hfit (hreads.withCapture hs cm) op hk demux⟩
  · exact ⟨_, gather_of_range hfit op k demux s, gather_of_range hfit op k demux _⟩

/-- A command that is no GATHER does not see the capture region. -/
theorem exec_withCapture_of_not_gather (hr : Ready s c) {i : Instr} (hi : opcodeOf i ∉ gatherOpcodes) (cm : Memory) :
    endButCapture cm (exec i s) (exec i { s with capture := cm }) := by
  have hr' : Ready { s with capture := cm } c := hr
  obtain ⟨t, t', ht, ht', hpair⟩ := exec_paired hr hr' rfl i
  obtain ⟨e, wm, k, n, out, out', ev, m, d, d', hev, hcodec, hread⟩ := hpair
  obtain ⟨rfl, rfl, rfl⟩ := hcodec hi
  exact ⟨_, ht, ht'⟩

end

/-- Settles O51: a GATHER draws free values for all its words, and no other command reads the capture region. -/
theorem unsettledGatherIndependentOfCapture : Obligations.UnsettledGatherIndependentOfCapture := by
  intro s c i cm hr hs
  have hr' : Ready { s with capture := cm } c := hr
  show endButCapture cm (exec i s) (exec i { s with capture := cm })
  cases i with
  | gatherReal n =>
    by_cases hn : n.toNat = 0
    · exact ⟨_, exec_gatherReal_of_zero hr hn, exec_gatherReal_of_zero hr' hn⟩
    · rw [exec_gatherReal_of_ne_zero hr hn, exec_gatherReal_of_ne_zero hr' hn]
      exact gather_withCapture hr.2 hs cm _ _ (by decide) _
  | gatherIq n =>
    by_cases hn : n.toNat = 0
    · exact ⟨_, exec_gatherIq_of_zero hr hn, exec_gatherIq_of_zero hr' hn⟩
    · rw [exec_gatherIq_of_ne_zero hr hn, exec_gatherIq_of_ne_zero hr' hn]
      exact gather_withCapture hr.2 hs cm _ _ (by omega) _
  | _ => exact exec_withCapture_of_not_gather hr (by simp only [opcodeOf]; decide) cm

/-! ### GATHER_REAL and GATHER_IQ on one state -/

/-- The read pairs at the first offsets of a list return the first words. -/
theorem readPairs_append {c : Config} {source draw d : Nat} {isSettled : Bool} {cm : Memory} {offs offs' : List Nat}
    {cs : List Word} (h : readPairs c source isSettled cm (offs ++ offs') draw = .ok (cs, d)) :
    ∃ d', readPairs c source isSettled cm offs draw = .ok (cs.take offs.length, d') := by
  induction offs generalizing draw cs with
  | nil => exact ⟨draw, rfl⟩
  | cons off rest ih =>
    rw [List.cons_append, readPairs] at h
    split at h
    · cases h
    · rename_i v draw' hpair
      split at h
      · cases h
      · rename_i vs draw'' hrest
        cases h
        obtain ⟨d', hd'⟩ := ih hrest
        exact ⟨d', by simp only [readPairs, hpair, hd', List.length_cons, List.take_succ_cons]⟩

/-- A gather of fewer words reads the first words of a gather of more. -/
theorem GatherReads.take {c : Config} {s : State} {m n d : Nat} {cs : List Word} (h : GatherReads c s n cs d)
    (hmn : m ≤ n) : ∃ d', GatherReads c s m (cs.take m) d' := by
  obtain ⟨k, rfl⟩ := Nat.exists_eq_add_of_le hmn
  rw [GatherReads, capOffsets, List.range_add, List.map_append] at h
  obtain ⟨d', hd'⟩ := readPairs_append h
  rw [List.length_map, List.length_range] at hd'
  exact ⟨d', hd'⟩

/-- The samples of the first words come first. -/
theorem take_realSamples {cs : List Word} {m : Nat} (hm : m ≤ cs.length) :
    (realSamples 0 cs).take (realCount m) = realSamples 0 (cs.take m) := by
  have hlength : (realSamples 0 (cs.take m)).length = realCount m := by
    rw [realSamples_zero_length, List.length_take_of_le hm]
  conv_lhs => rw [← List.take_append_drop m cs, realSamples_append, ← hlength, List.take_left]

/-- Settles O52: GATHER_IQ reads the first of the words that GATHER_REAL reads, and on whole blocks the two keep the same
lanes. -/
theorem realSamplesAreIParts : Obligations.RealSamplesAreIParts := by
  intro s c n hr hfit
  by_cases hn : n.toNat = 0
  · exact ⟨_, _, _, _, exec_gatherReal_of_zero hr hn, exec_gatherIq_of_zero hr hn, lastResponse_ended ..,
      lastResponse_ended .., List.take_nil⟩
  · have hle : 8 * (n.toNat / 8) ≤ n.toNat := Nat.mul_div_le _ _
    obtain ⟨cs, d, hreads, hlength, -⟩ := exists_gatherReads hr.2 hfit s
    obtain ⟨d', hreads'⟩ := hreads.take hle
    rw [exec_gatherReal_of_ne_zero hr hn, exec_gatherIq_of_ne_zero hr hn,
      gather_of_fit hfit hreads opGatherReal (by decide),
      gather_of_fit (wordsFit.mono hfit hle) hreads' opGatherIq (by omega)]
    refine ⟨_, _, _, _, rfl, rfl, lastResponse_ended .., lastResponse_ended .., ?_⟩
    have hcount : 8 * (n.toNat / 8) = realCount (8 * (n.toNat / 8)) := by unfold realCount; omega
    have hblocks : (cs.take (8 * (n.toNat / 8))).length % 8 = 0 := by
      rw [List.length_take_of_le (hlength ▸ hle), Nat.mul_mod_right]
    calc (realSamples 0 cs).take (8 * (n.toNat / 8))
        = (realSamples 0 cs).take (realCount (8 * (n.toNat / 8))) := by rw [← hcount]
      _ = realSamples 0 (cs.take (8 * (n.toNat / 8))) := take_realSamples (hlength ▸ hle)
      _ = (iqSamples (cs.take (8 * (n.toNat / 8)))).map iPart := (map_iPart_iqSamples hblocks).symm

end Sys2Proof.Machine

/-! # Exceptions and platform (60_exceptions.md): fatal errors, and instances on distinct regions -/

namespace Sys2Proof.Machine

/-! ### Fatal errors -/

/-- Settles O25: an end whose ERR is not 0 is an error raised, since a completed command writes ERR 0. -/
theorem fatalErrorChangesOnlyStatusAndCount : Obligations.FatalErrorChangesOnlyStatusAndCount := by
  intro s t d h herr
  obtain ⟨c, -, hend⟩ := runCommand_next h
  cases hend with
  | failed e he =>
    cases e with
    | none => exact absurd rfl he
    | invalidArgument =>
      rw [raiseError_invalidArgument]
      exact ⟨.inl rfl, rfl⟩
    | rangeViolation =>
      rw [raiseError_rangeViolation]
      exact ⟨.inr rfl, rfl⟩
  | done k n out ev m draw hk hn hw hev hd =>
    exact absurd (statusErr_endStatus (cmdOp d.cmd) .none (decide (k ≠ 0)) k) herr

/-! ### Regions that share no address -/

/-- Two regions share no address. -/
def regionsApart (base size base' size' : Nat) : Prop := ∀ x < size, ∀ y < size', base + x ≠ base' + y

theorem regionsApart.symm {base size base' size' : Nat} (h : regionsApart base size base' size') :
    regionsApart base' size' base size :=
  fun y hy x hx hxy => h x hx y hy hxy.symm

/-- No address lies in both regions. -/
theorem regionsApart.not_mem {base size base' size' a : Nat} (h : regionsApart base size base' size')
    (ha : base ≤ a ∧ a < base + size) : ¬ (base' ≤ a ∧ a < base' + size') :=
  fun ha' => h (a - base) (by omega) (a - base') (by omega) (by omega)

/-- A region takes nothing over from one it shares no address with. -/
theorem mirrorBytes_of_apart {base size base' size' : Nat} (h : regionsApart base size base' size') (src dst : Memory) :
    mirrorBytes base size base' size' src dst = dst := by
  induction src generalizing dst with
  | nil => rfl
  | cons x rest ih =>
    obtain ⟨a, b⟩ := x
    rw [mirrorBytes, if_neg fun ⟨ha, ha'⟩ => h.not_mem (by omega) ha', ih]

/-- A region takes over the bytes of two regions that share no address in either order. -/
theorem mirrorBytes_comm {base₁ size₁ base₂ size₂ base size : Nat} {src₁ src₂ m : Memory} (h₁ : src₁.wf) (h₂ : src₂.wf)
    (hm : m.wf) (h : regionsApart base₁ size₁ base₂ size₂) :
    mirrorBytes base₁ size₁ base size src₁ (mirrorBytes base₂ size₂ base size src₂ m) =
      mirrorBytes base₂ size₂ base size src₂ (mirrorBytes base₁ size₁ base size src₁ m) := by
  refine memory_ext (mirrorBytes_wf _ _ _ _ _ (mirrorBytes_wf _ _ _ _ _ hm))
    (mirrorBytes_wf _ _ _ _ _ (mirrorBytes_wf _ _ _ _ _ hm)) fun x => ?_
  simp only [readByte_mirrorBytes _ _ _ _ _ h₁, readByte_mirrorBytes _ _ _ _ _ h₂]
  by_cases hx : base₁ ≤ base + x ∧ base + x < base₁ + size₁
  · simp only [h.not_mem hx, and_false, if_false]
  · simp only [hx, and_false, if_false]

/-! ### Instances on distinct regions -/

theorem distinctRegions_iff (s t : State) : distinctRegions s t ↔ ∀ c c', s.config = some c → t.config = some c' →
    regionsApart c.regionBase c.regionSize c'.regionBase c'.regionSize ∧
    regionsApart c.capRegionBase c.capRegionSize c'.capRegionBase c'.capRegionSize := Iff.rfl

section
variable {s t s' t' r : State}

theorem distinctRegions.symm (h : distinctRegions s t) : distinctRegions t s := by
  rw [distinctRegions_iff] at h ⊢
  intro c c' hc hc'
  obtain ⟨hplayback, hcapture⟩ := h c' c hc' hc
  exact ⟨hplayback.symm, hcapture.symm⟩

/-- Which regions are distinct is a matter of the configurations alone. -/
theorem distinctRegions.congr (h : distinctRegions s t) (hs : s'.config = s.config) (ht : t'.config = t.config) :
    distinctRegions s' t' :=
  fun c c' hc hc' => h c c' (hs ▸ hc) (ht ▸ hc')

theorem shareRegions_of_distinct (h : distinctRegions s t) : shareRegions s t = t := by
  rw [distinctRegions_iff] at h
  rcases shareRegions_bound_or_eq s t with ⟨c, c', hs, ht⟩ | heq
  · obtain ⟨hplayback, hcapture⟩ := h c c' hs ht
    rw [shareRegions_bound hs ht, mirrorBytes_of_apart hplayback, mirrorBytes_of_apart hcapture]
    rfl
  · exact heq

/-- An instance takes over the bytes of two instances on distinct regions in either order. -/
theorem shareRegions_comm (hs : Formed s) (ht : Formed t) (hr : Formed r) (h : distinctRegions s t) :
    shareRegions s (shareRegions t r) = shareRegions t (shareRegions s r) := by
  cases hc : s.config with
  | none => rw [shareRegions_unbound (.inl hc), shareRegions_unbound (.inl hc)]
  | some c =>
    cases hc' : t.config with
    | none => rw [shareRegions_unbound (.inl hc'), shareRegions_unbound (.inl hc')]
    | some c' =>
      cases hcr : r.config with
      | none => simp only [shareRegions_unbound (.inr hcr)]
      | some cr =>
        rw [distinctRegions_iff] at h
        obtain ⟨hplayback, hcapture⟩ := h c c' hc hc'
        obtain ⟨hps, hqs, -⟩ := hs
        obtain ⟨hpt, hqt, -⟩ := ht
        obtain ⟨hpr, hqr, -⟩ := hr
        rw [shareRegions_bound hc ((shareRegions_config t r).trans hcr),
          shareRegions_bound hc' ((shareRegions_config s r).trans hcr), shareRegions_bound hc hcr,
          shareRegions_bound hc' hcr]
        simp only [withCapture, withPlayback, mirrorBytes_comm hps hpt hpr hplayback,
          mirrorBytes_comm hqs hqt hqr hcapture]

end

section
variable {sys sys' : System} {j k : Nat} {s t s' : State}

/-- Publishing a second machine leaves the first as published where the first takes nothing over from it. -/
theorem publish_publish (h : shareRegions t s = s) (j k : Nat) (sys : System) :
    publish k t (publish j s sys) = ((sys.map fun r => shareRegions t (shareRegions s r)).set j s).set k t := by
  rw [publish, publish, List.map_set, List.map_map, h]
  rfl

/-- Machines on distinct regions are published in either order. -/
theorem publish_comm (hsys : ∀ r ∈ sys, Formed r) (hjk : j ≠ k) (hs : Formed s) (ht : Formed t)
    (h : distinctRegions s t) : publish k t (publish j s sys) = publish j s (publish k t sys) := by
  rw [publish_publish (shareRegions_of_distinct h.symm), publish_publish (shareRegions_of_distinct h),
    List.set_comm _ _ hjk, List.map_congr_left fun r hr => shareRegions_comm ht hs (hsys r hr) h.symm]

/-- What a step of a bound instance does to its system. -/
theorem systemStep_of_bound (hs : sys[k]? = some s) (hbound : s.config ≠ none) :
    systemStep k sys = .next sys' ↔ ∃ s', step { s with source := k } = .next s' ∧ sys' = publish k s' sys := by
  simp only [systemStep, hs]
  split
  · rename_i s' hstep
    simp [hstep, hbound, eq_comm]
  · rename_i f hstep
    simp [hstep]
  · rename_i r hstep
    simp [hstep]

/-- A step of a bound instance leaves its configuration (R17). -/
theorem step_config_of_bound {n : Nat} (hbound : s.config ≠ none) (h : step { s with source := n } = .next s') :
    s'.config = s.config := by
  obtain ⟨c, hc⟩ := Option.ne_none_iff_exists'.1 hbound
  exact (configurationNeverChanges { s with source := n } s' c hc h).trans hc.symm

/-- A step keeps the canonical form of the regions. -/
theorem formed_step {n : Nat} (hs : Formed s) (h : step { s with source := n } = .next s') : Formed s' :=
  Formed.regionsWritten (s := { s with source := n }) hs (step_regionsWritten h) (step_config_none h)

end

/-- Settles O19: on distinct regions an instance takes over nothing from the other's step, so each step finds its
instance as it was, and the others take over the bytes of both in either order. -/
theorem instancesDoNotInterfere : Obligations.InstancesDoNotInterfere := by
  intro sys sys1 sys2 j k s t hinv hjk hj hk hs ht hdistinct hstepj hstepk
  obtain ⟨s', hs', rfl⟩ := (systemStep_of_bound hj hs).1 hstepj
  obtain ⟨t', ht', rfl⟩ := (systemStep_of_bound hk ht).1 hstepk
  have hsconfig : s'.config = s.config := step_config_of_bound hs hs'
  have htconfig : t'.config = t.config := step_config_of_bound ht ht'
  have hsformed : Formed s' := formed_step (hinv.formed_getElem? hj) hs'
  have htformed : Formed t' := formed_step (hinv.formed_getElem? hk) ht'
  have hk1 : (publish j s' sys)[k]? = some t := by
    rw [publish_getElem?_ne hjk.symm, hk, Option.map_some, shareRegions_of_distinct (hdistinct.congr hsconfig rfl)]
  have hj2 : (publish k t' sys)[j]? = some s := by
    rw [publish_getElem?_ne hjk, hj, Option.map_some, shareRegions_of_distinct (hdistinct.symm.congr htconfig rfl)]
  exact ⟨hk1.trans hk.symm, _, (systemStep_of_bound hk1 ht).2 ⟨t', ht', rfl⟩,
    (systemStep_of_bound hj2 hs).2 ⟨s', hs',
      publish_comm hinv.formed hjk hsformed htformed (hdistinct.congr hsconfig htconfig)⟩⟩

end Sys2Proof.Machine

/-! # Reset and hazards (70_reset_and_hazards.md): reset between commands and during one -/

namespace Sys2Proof.Machine

/-- Settles O9: the step is the handler of reset on the state without the input. -/
theorem resetInputRestoresRegisters : Obligations.ResetInputRestoresRegisters := fun _ _ h =>
  ⟨_, step_of_inbox h, rfl, rfl, rfl, rfl, rfl, rfl, rfl⟩

/-! ### Reset during a command -/

/-- At a byte that no dropped write covers, the kept writes leave what all of them leave. -/
theorem readByte_allWrites_filter {order : ByteOrder} {x : Nat} {p : Nat × Word → Bool} {ws : List (Nat × Word)}
    (h : ∀ w ∈ ws, p w = false → x < w.1 ∨ w.1 + 4 ≤ x) (m : Memory) :
    readByte x (allWrites order (ws.filter p) m) = readByte x (allWrites order ws m) := by
  induction ws generalizing m with
  | nil => rfl
  | cons w rest ih =>
    have ih := ih fun w hw => h w (List.mem_cons_of_mem _ hw)
    cases hp : p w with
    | true =>
      rw [List.filter_cons_of_pos hp]
      exact ih _
    | false =>
      have hother := h w List.mem_cons_self hp
      rw [List.filter_cons_of_neg (by simp [hp]), ih, allWrites, readByte_allWrites,
        readByte_allWrites order x rest (writeWord _ _ _ _), readByte_writeWord_other order hother]

/-- An aligned word after the writes that a free choice picks is the one all of them leave, where the choice picks its
offset, and else the one from before (R114). -/
theorem readByte_someWrites {ws : List (Nat × Word)} (hws : ∀ w ∈ ws, w.1 % 4 = 0) {off i : Nat} (hoff : off % 4 = 0)
    (hi : i < 4) (order : ByteOrder) (source draw : Nat) (m : Memory) :
    readByte (off + i) (someWrites order source draw ws m) =
      readByte (off + i) (if Config.freeChoice source draw off then allWrites order ws m else m) := by
  have apart : ∀ w ∈ ws, w.1 ≠ off → off + i < w.1 ∨ w.1 + 4 ≤ off + i := fun w hw hne => by
    have := hws w hw
    omega
  rw [someWrites_eq_allWrites]
  split
  · rename_i hpicked
    refine readByte_allWrites_filter (fun w hw hdropped => apart w hw ?_) m
    rintro rfl
    simp [hpicked] at hdropped
  · rename_i hdropped
    refine readByte_allWrites_other (fun w hw => ?_) m
    obtain ⟨hw, hpicked⟩ := List.mem_filter.1 hw
    refine apart w hw ?_
    rintro rfl
    exact hdropped hpicked

theorem onResetDuring_eq {s done : State} {c : Config} {d : Descriptor} (hr : Ready s c)
    (hrun : runCommand d s = .next done) :
    onResetDuring d s = .next (applyReset (withDraws (done.draws + 1)
      (withPlayback (someWrites c.mmioByteOrder s.source s.draws (lastWrites done) s.playback) s))) := by
  simp only [onResetDuring, configured_ready hr, hrun]

/-- Settles O54: the finished command leaves all its writes, which are of aligned words, and the abandoned one those that
the free choice picks. -/
theorem resetDuringCommandLeavesOldOrNew : Obligations.ResetDuringCommandLeavesOldOrNew := by
  intro s c d hr
  obtain ⟨done, hrun, hend⟩ := runCommand_end hr d
  refine ⟨done, _, hrun, onResetDuring_eq hr hrun, rfl, rfl, rfl, rfl, rfl, fun off hoff => ?_⟩
  have haligned : ∀ w ∈ lastWrites done, w.1 % 4 = 0 := fun w hw => (commandEnd_lastWrites_inside hend w hw).1
  have hword := fun i hi =>
    readByte_someWrites haligned hoff (i := i) hi c.mmioByteOrder s.source s.draws s.playback
  rw [← commandEnd_playback hend] at hword
  split at hword
  · exact .inr hword
  · exact .inl hword

end Sys2Proof.Machine
